-- ==== Sys2Proof/Word.lean ====
section
/-! DEFINITION. The machine's number types (00_scope.md R9 to R12). -/

namespace Sys2Proof

/-- One 8-bit byte of system memory (20_memory.md R70). -/
abbrev Byte := BitVec 8

/-- A 32-bit register, address, length or command word (00_scope.md R9). -/
abbrev Word := BitVec 32

/-- A 16-byte block read as the big-endian integer `int_BE` of its bytes (R12): byte 0 is bits 127 to 120,
byte 15 is bits 7 to 0. Exclusive-or, the counter field (the low bits) and the field element's coefficients
(bit 127 is the coefficient of x^0, 45_ghash.md R190) are all read off this one number. -/
abbrev Block := BitVec 128

/-- A byte string (R11), byte 0 first. -/
abbrev Bytes := List Byte

end Sys2Proof
end

