-- ==== Sys2Proof/Syntax.lean ====
section
/-! DEFINITION. What can be asked of the machine: the thirteen commands of the opcode table, the registers of the
window, and the actions of the host (30_encoding.md R106, R111; 10_state.md R42). -/

namespace Sys2Proof

/-- The commands, one constructor per row of spec/opcode_table.json (30_encoding.md R106). No command word carries an
operand (R109): a command's operands are the latched parameter registers. -/
inductive Instr where
  /-- CBC_ENC, word 0x00000001 (41_cbc.md R150). -/
  | cbcEnc
  /-- CBC_DEC, word 0x00000002 (41_cbc.md R151). -/
  | cbcDec
  /-- CFB_ENC, word 0x00000003 (42_cfb.md R160). -/
  | cfbEnc
  /-- CFB_DEC, word 0x00000004 (42_cfb.md R161). -/
  | cfbDec
  /-- OFB, word 0x00000005 (43_ofb.md R170). -/
  | ofb
  /-- CTR with CW = 0, word 0x00000006 (44_ctr.md R180). -/
  | ctr
  /-- CTR.C64: CTR with CW = 1, word 0x00000106 (44_ctr.md R180). -/
  | ctrC64
  /-- GHASH with HSRC = 0, word 0x00000007 (45_ghash.md R194). -/
  | ghash
  /-- GHASH.HMEM: GHASH with HSRC = 1, word 0x00000207 (45_ghash.md R194). -/
  | ghashHmem
  /-- GCM_ENC, word 0x00000008 (46_gcm.md R205). -/
  | gcmEnc
  /-- GCM_DEC, word 0x00000009 (46_gcm.md R206). -/
  | gcmDec
  /-- CCM_ENC, word 0x0000000A (47_ccm.md R229). -/
  | ccmEnc
  /-- CCM_DEC, word 0x0000000B (47_ccm.md R230). -/
  | ccmDec
  deriving DecidableEq, Repr

/-- The sixteen word registers of the window, in offset order (10_state.md R42). -/
inductive Reg where
  | ctrl | status | cmd | keyh | ivAddr | ivLen | aadAddr | aadLen
  | inAddr | outAddr | len | tagAddr | tagLen | tagMin | reserved38 | reserved3C
  deriving DecidableEq, Repr

/-- The width of a host access to the window (20_memory.md R76). -/
inductive AccessSize where
  | byte | half | word
  deriving DecidableEq, Repr

/-- One action of the host agent, or a turn given to the engine (00_scope.md R7). A window access carries its offset
from `BASE`. -/
inductive Event where
  /-- The engine moves: a running command ends (20_memory.md R86, 70_reset_and_hazards.md R298). -/
  | engine
  /-- The host writes `v` at offset `off` of the register window (R76, R111). -/
  | regWrite (size : AccessSize) (off : BitVec 6) (v : Word)
  /-- The host reads offset `off` of the register window (R76, R111). -/
  | regRead (size : AccessSize) (off : BitVec 6)
  /-- The host writes one byte of system memory (R70, R88). -/
  | memWrite (a : Word) (b : Byte)
  /-- The host reads one byte of system memory (R70, R87). -/
  | memRead (a : Word)
  /-- The reset input is asserted and released (70_reset_and_hazards.md R280). -/
  | reset
  deriving DecidableEq, Repr

end Sys2Proof
end

