-- ==== Sys2Proof/Decode.lean ====
section
/-! DEFINITION. The decoder of command words (30_encoding.md R107), total and rejecting by name, and the encoder,
written from the field table of R101 and the opcode map of R106. -/

namespace Sys2Proof

/-- Why a command word is rejected; each ends the command with ERR_CMD (60_exceptions.md R251). -/
inductive DecodeError where
  /-- Opcode 0x00 or 0x0C to 0x3F (R108). -/
  | reservedOpcode
  /-- A bit of 7:6 or 31:10 is set (R105). -/
  | reservedBits
  /-- CW = 1 on an opcode other than CTR (R103). -/
  | cwNotOnCtr
  /-- HSRC = 1 on an opcode other than GHASH (R104). -/
  | hsrcNotOnGhash
  deriving DecidableEq, Repr

/-- What the decoder answers. -/
inductive Decoded where
  | command (i : Instr)
  | rejected (why : DecodeError)
  deriving DecidableEq, Repr

/-- OP, bits 5:0 (R101). -/
def opField (v : Word) : BitVec 6 := v.extractLsb' 0 6

/-- CW, bit 8 (R101). -/
def cwField (v : Word) : Bool := v.getLsbD 8

/-- HSRC, bit 9 (R101). -/
def hsrcField (v : Word) : Bool := v.getLsbD 9

/-- Bits 7:6, reserved (R101). -/
def reservedLow (v : Word) : BitVec 2 := v.extractLsb' 6 2

/-- Bits 31:10, reserved (R101). -/
def reservedHigh (v : Word) : BitVec 22 := v.extractLsb' 10 22

/-- The opcode map (R106): opcode and option bits to a command. -/
def opcodeMap (op : BitVec 6) (cw hsrc : Bool) : Option Instr :=
  match op.toNat with
  | 0x01 => some .cbcEnc
  | 0x02 => some .cbcDec
  | 0x03 => some .cfbEnc
  | 0x04 => some .cfbDec
  | 0x05 => some .ofb
  | 0x06 => some (if cw then .ctrC64 else .ctr)
  | 0x07 => some (if hsrc then .ghashHmem else .ghash)
  | 0x08 => some .gcmEnc
  | 0x09 => some .gcmDec
  | 0x0A => some .ccmEnc
  | 0x0B => some .ccmDec
  | _ => none

/-- The decode function, its checks in the order of R107. -/
def decode (v : Word) : Decoded :=
  if opField v = 0 ∨ 0x0C ≤ (opField v).toNat then .rejected .reservedOpcode
  else if reservedLow v ≠ 0 ∨ reservedHigh v ≠ 0 then .rejected .reservedBits
  else if cwField v = true ∧ opField v ≠ 0x06 then .rejected .cwNotOnCtr
  else if hsrcField v = true ∧ opField v ≠ 0x07 then .rejected .hsrcNotOnGhash
  else
    match opcodeMap (opField v) (cwField v) (hsrcField v) with
    | some i => .command i
    | none => .rejected .reservedOpcode

/-- The command a word decodes to, if any. -/
def decodeCommand (v : Word) : Option Instr :=
  match decode v with
  | .command i => some i
  | .rejected _ => none

/-- A command word from its three fields, every reserved bit zero (R101). -/
def commandWord (op : BitVec 6) (cw hsrc : Bool) : Word :=
  op.zeroExtend 32 ||| ((BitVec.ofBool cw).zeroExtend 32 <<< 8) ||| ((BitVec.ofBool hsrc).zeroExtend 32 <<< 9)

/-- The encoder: the command word of each command (R106). -/
def encode : Instr → Word
  | .cbcEnc => commandWord 0x01 false false
  | .cbcDec => commandWord 0x02 false false
  | .cfbEnc => commandWord 0x03 false false
  | .cfbDec => commandWord 0x04 false false
  | .ofb => commandWord 0x05 false false
  | .ctr => commandWord 0x06 false false
  | .ctrC64 => commandWord 0x06 true false
  | .ghash => commandWord 0x07 false false
  | .ghashHmem => commandWord 0x07 false true
  | .gcmEnc => commandWord 0x08 false false
  | .gcmDec => commandWord 0x09 false false
  | .ccmEnc => commandWord 0x0A false false
  | .ccmDec => commandWord 0x0B false false

/-- The decoder's answer on a word numbered as spec/opcode_table.json numbers it: its low `nbits` bits, every bit above
them zero. A command word is a number on the host bus, so no byte order applies (20_memory.md R76). -/
def decodeTableWord (nbits w : Nat) : Option Instr :=
  decodeCommand (BitVec.ofNat 32 (w % 2 ^ nbits))

end Sys2Proof
end

