-- ==== Sys2Proof/Config.lean ====
section
/-! DEFINITION. What an implementation or a platform fixes (00_scope.md R9), and the free values.
An `opaque` constant here has no body: nothing can be proved of its value. -/

namespace Sys2Proof.Config

/-- The number of byte addresses of system memory, `2^ADDR_W` (20_memory.md R70). -/
def memorySize : Nat := 2 ^ 32

/-- The size of the register window in bytes (10_state.md R42). -/
def windowSize : Nat := 64

/-- The cipher port (00_scope.md R8, R9; D4): for each key handle an uninterpreted permutation of the blocks.
R8 asks for total functions E and D with `D(k, E(k, X)) = X`. Blocks are finitely many, so such a pair is exactly a
permutation and its inverse.
DEDUCED (entry 7): safe, since every pair that R8 admits is some value of this constant. -/
opaque cipher : Word → Equiv.Perm Block

/-- The two functions of a cipher port as plain functions, so that the datapath can be run with a concrete
cipher in tests (00_scope.md R8). -/
structure CipherPort where
  /-- `E(k, X)`: `encrypt_block`. -/
  encrypt : Word → Block → Block
  /-- `D(k, X)`: `decrypt_block`. -/
  decrypt : Word → Block → Block

/-- The machine's own cipher port. -/
def cipherPort : CipherPort where
  encrypt k x := cipher k x
  decrypt k x := (cipher k).symm x

/-- `BASE / 64`: the place of the register window on the host bus, left to the platform (R9, D6, U11). -/
opaque baseIndex : Nat

/-- `BASE`, 64-byte aligned (R9). -/
def base : Nat := windowSize * baseIndex

/-- A free byte: draw number and address give the value (U1, U2, U3, U5, U14; entry 8). -/
opaque freeByte : Nat → Nat → Byte

/-- A free bit: draw number gives the value (U2, U14; entry 8). -/
opaque freeBit : Nat → Bool

end Sys2Proof.Config
end

