-- ==== Sys2Proof/Machine/Bytes.lean ====
section
/-! DEFINITION. Byte strings, blocks and big-endian integers (00_scope.md R10 to R12). -/

namespace Sys2Proof.Machine

/-- `BE_n(v)`: the n-byte big-endian string of `v mod 2^(8n)` (R12). -/
def beBytes (n v : Nat) : Bytes := (List.range n).map fun i => BitVec.ofNat 8 (v / 2 ^ (8 * (n - 1 - i)))

/-- `int_BE(S)` (R12). -/
def intBE (s : Bytes) : Nat := s.foldl (fun acc b => acc * 256 + b.toNat) 0

/-- A 16-byte string as a block. -/
def blockOfBytes (s : Bytes) : Block := BitVec.ofNat 128 (intBE s)

/-- The 16 bytes of a block, byte 0 first (20_memory.md R74). -/
def bytesOfBlock (x : Block) : Bytes := beBytes 16 x.toNat

/-- `zeros(n)` (R11). -/
def zeroBytes (n : Nat) : Bytes := List.replicate n 0

/-- `pad16(S)` (R11). -/
def pad16 (s : Bytes) : Bytes := s ++ zeroBytes ((16 - s.length % 16) % 16)

/-- The first `n` blocks of a byte string. -/
def takeBlocks : Nat → Bytes → List Block
  | 0, _ => []
  | n + 1, s => blockOfBytes (s.take 16) :: takeBlocks n (s.drop 16)

/-- `blocks(S)` for a string whose length is a multiple of 16 (R11). -/
def blocksOf (s : Bytes) : List Block := takeBlocks (s.length / 16) s

/-- The byte string of a sequence of blocks. -/
def bytesOfBlocks (bs : List Block) : Bytes := bs.flatMap bytesOfBlock

/-- `A xor B`, byte by byte (R11, 40_engine.md R134); the shorter string bounds the result, which gives `MSB_r` of the
last keystream block (40_engine.md R144). -/
def xorBytes (a b : Bytes) : Bytes := List.zipWith (fun x y => x ^^^ y) a b

/-- `ceil(n / 16)` (40_engine.md R144). -/
def blockCount (n : Nat) : Nat := (n + 15) / 16

end Sys2Proof.Machine
end

