-- ==== Sys2Proof/Machine/State.lean ====
section
/-! DEFINITION. The machine's state as plain data (10_state.md), its reset value (R63), and the reasons a step can
stop. -/

namespace Sys2Proof.Machine

/-- System memory: the listed bytes, addresses strictly rising (20_memory.md R70, R71). What an unlisted address reads
as is `unlistedByte` of Machine/Memory.lean. -/
abbrev Mem := List Host.Cell

/-- STATUS.ERR: the error codes of 60_exceptions.md R250. Codes 9 to 15 are never produced, so they have no name. -/
inductive Err where
  | ok | cmd | len | ivLen | tagLen | msgLen | range | overlap | bus
  deriving DecidableEq, Repr

/-- The fields of STATUS (10_state.md R44); its reserved bits read 0 and are not held (R58). -/
structure Status where
  busy : Bool
  done : Bool
  authFail : Bool
  cmdOvr : Bool
  err : Err
  deriving DecidableEq, Repr

/-- The parameter registers (10_state.md R52 to R57). -/
structure ParamRegs where
  keyh : BitVec 32
  ivAddr : BitVec 32
  ivLen : BitVec 32
  aadAddr : BitVec 32
  aadLen : BitVec 32
  inAddr : BitVec 32
  outAddr : BitVec 32
  len : BitVec 32
  tagAddr : BitVec 32
  tagLen : BitVec 32
  /-- Bits 4:0 of TAGMIN; its other bits read 0 (R57). -/
  tagMin : BitVec 5
  deriving DecidableEq, Repr

/-- `W.LP`: the latched command word and parameter registers (10_state.md R39, 40_engine.md R121). -/
structure Latch extends ParamRegs where
  cmd : BitVec 32
  deriving DecidableEq, Repr

/-- The eight hidden working registers (10_state.md R30 to R38). -/
structure Work where
  fb : Block
  ks : Block
  cb : Block
  h : Block
  acc : Block
  j0 : Block
  mac : Block
  tc : Block
  deriving DecidableEq, Repr

/-- A position of `W.SEQ`: pass and block index (10_state.md R39). -/
structure SeqPos where
  pass : Nat
  block : Nat
  deriving DecidableEq, Repr

/-- A range `(a, n)`: base address and byte count (40_engine.md R126), as exact numbers that never wrap. -/
structure Range where
  base : Nat
  size : Nat
  deriving DecidableEq, Repr

/-- The platform's parameters over system memory (00_scope.md R9, 20_memory.md R71, R79), as plain data: a byte set is
the union of a list of ranges. No step changes them. -/
structure Platform where
  /-- The bytes with `BusOK(a) = false` (R71). -/
  dead : List Range
  /-- The bytes that are not ordinary memory: a read of one has a side effect or is not idempotent (R79). -/
  odd : List Range
  deriving DecidableEq, Repr

/-- What a read of the host returned: a register value (20_memory.md R76) or a byte of system memory. -/
inductive HostDatum where
  | word (v : BitVec 32)
  | byte (b : BitVec 8)
  deriving DecidableEq, Repr

/-- The whole machine: the engine's state (10_state.md), system memory, the platform's parameters, and the host agent as
a list of coming actions. `platform`, `raced`, `draws`, `schedule` and `hostSaw` are the model's own (INVENTORY.md). -/
structure State where
  /-- CTRL.IE (R43). -/
  ie : Bool
  /-- STATUS (R44). -/
  status : Status
  /-- The parameter registers (R52 to R57). -/
  regs : ParamRegs
  /-- The working registers (R30). -/
  work : Work
  /-- `W.LP` (R39). -/
  lp : Latch
  /-- `W.SEQ` (R39); none when no command is in flight. -/
  seq : Option SeqPos
  /-- System memory (R70). -/
  mem : Mem
  /-- `BusOK` and ordinary memory (R71, R79). -/
  platform : Platform
  /-- The host has written a used byte of the running command (R88). -/
  raced : Bool
  /-- How many free draws have been made (R87, R88, R132, R284). -/
  draws : Nat
  /-- The host's coming actions and the engine's turns (R7, R94, R298). -/
  schedule : List Event
  /-- What the host's last read returned. -/
  hostSaw : Option HostDatum
  deriving DecidableEq, Repr

/-- Why the machine stops. Both stops are safe: the model shows no further behaviour, so nothing false of the hardware can
be proved from them. -/
inductive Fault where
  /-- Raised by `step` when the host makes a byte, halfword or misaligned access to the register window and the engine is
  idle: the spec gives the host agent no step there (20_memory.md R76, U8). Safe. -/
  | windowAccessNotAdmitted
  /-- Raised by `step` and by a command's completion when BUSY = 1 with a latched command that does not pass validation.
  Acceptance never starts such a command (40_engine.md R130), so no run reaches it. Safe. -/
  | latchNotValidated
  deriving DecidableEq, Repr

/-- Why an instruction has no meaning. -/
inductive Refusal where
  /-- Raised by an arm of `exec` whose instruction has no meaning yet; no arm of this model does. Safe. -/
  | notModelled (mnemonic : String)
  deriving DecidableEq, Repr

/-- Working registers at reset and between commands: 128 zero bits each (R63). -/
def Work.zero : Work := ⟨0, 0, 0, 0, 0, 0, 0, 0⟩

/-- The parameter registers after reset (R63). -/
def ParamRegs.reset : ParamRegs := ⟨0, 0, 0, 0, 0, 0, 0, 0, 0, 0, 4⟩

/-- `W.LP` cleared (R63, R141): every field zero. DESIGN CHOICE (entry 9), unsafe where a statement rests on the zero,
though nothing reads `W.LP` while no command is in flight. -/
def Latch.cleared : Latch := ⟨⟨0, 0, 0, 0, 0, 0, 0, 0, 0, 0, 0⟩, 0⟩

/-- STATUS after reset, 0x00000000 (R63). -/
def Status.reset : Status := ⟨false, false, false, false, .ok⟩

/-- The machine right after reset (R63). The engine's registers are the spec's. System memory lists nothing (entry 5), the
platform answers everywhere with ordinary memory (entry 6), the schedule is empty (entry 1) and no free value has been
drawn (entry 8): DESIGN CHOICES of the log. -/
def State.reset : State where
  ie := false
  status := Status.reset
  regs := ParamRegs.reset
  work := Work.zero
  lp := Latch.cleared
  seq := none
  mem := []
  platform := ⟨[], []⟩
  raced := false
  draws := 0
  schedule := []
  hostSaw := none

end Sys2Proof.Machine
end

