-- ==== Sys2Proof/Machine/Memory.lean ====
section
/-! DEFINITION. System memory: reading and writing bytes and byte strings (20_memory.md R70 to R74), and the canonical form
of the list that holds it. -/

namespace Sys2Proof.Machine

/-- What an address that is not listed reads as. The spec gives system memory no initial contents; zero is a DESIGN CHOICE
(entry 5), unsafe where a statement would rest on it. -/
def unlistedByte : Byte := 0

/-- `Mem[a]` (R71). -/
def readByte : Mem → Nat → Byte
  | [], _ => unlistedByte
  | (k, v) :: m, a => if k = a then v else readByte m a

/-- `Mem[a] <- v`. Writing what an unlisted address reads as removes the entry, so that equal memories are equal lists. -/
def writeByte : Mem → Nat → Byte → Mem
  | [], a, v => if v = unlistedByte then [] else [(a, v)]
  | (k, w) :: m, a, v =>
    if a < k then (if v = unlistedByte then (k, w) :: m else (a, v) :: (k, w) :: m)
    else if a = k then (if v = unlistedByte then m else (a, v) :: m)
    else (k, w) :: writeByte m a v

/-- The canonical form from address `lo` up: addresses strictly rising, all below `2^32` (R70), no entry equal to what an
unlisted address reads as. -/
def memWfFrom : Nat → Mem → Bool
  | _, [] => true
  | lo, (k, v) :: m => decide (lo ≤ k) && decide (k < Config.memorySize) && decide (v ≠ unlistedByte) && memWfFrom (k + 1) m

/-- Memory is in its canonical form. -/
def Mem.wf (m : Mem) : Bool := memWfFrom 0 m

/-- `MemRead(addr, n)`: the bytes at `addr, …, addr+n-1` (R72). -/
def memRead (m : Mem) (addr : Nat) : Nat → Bytes
  | 0 => []
  | n + 1 => readByte m addr :: memRead m (addr + 1) n

/-- `MemWrite(addr, len(S), S)`: byte `i` of `S` to `addr + i` (R73). -/
def memWrite (m : Mem) (addr : Nat) : Bytes → Mem
  | [] => m
  | b :: bs => memWrite (writeByte m addr b) (addr + 1) bs

/-- Several byte strings written one after another, each at its address. -/
def memWriteAll (m : Mem) : List (Nat × Bytes) → Mem
  | [] => m
  | (a, bs) :: ws => memWriteAll (memWrite m a bs) ws

/-- Address `a` lies in the range (40_engine.md R126). -/
def Range.contains (r : Range) (a : Nat) : Bool := decide (r.base ≤ a) && decide (a < r.base + r.size)

/-- Two ranges overlap (40_engine.md R128). -/
def Range.overlaps (r q : Range) : Bool :=
  decide (0 < r.size) && decide (0 < q.size) && decide (r.base < q.base + q.size) && decide (q.base < r.base + r.size)

/-- A range does not wrap past the top of memory; an empty range takes no part (40_engine.md R127). -/
def Range.fits (r : Range) : Bool := decide (r.size = 0) || decide (r.base + r.size ≤ Config.memorySize)

/-- `BusOK(a)` (20_memory.md R71). -/
def busOK (p : Platform) (a : Nat) : Bool := !(p.dead.any fun r => r.contains a)

/-- Byte `a` is ordinary memory (20_memory.md R79). -/
def ordinaryByte (p : Platform) (a : Nat) : Bool := !(p.odd.any fun r => r.contains a)

/-- Every byte of the range satisfies `f`. -/
def Range.allBytes (r : Range) (f : Nat → Bool) : Bool := (List.range r.size).all fun i => f (r.base + i)

/-- A byte string of free bytes for the range, drawn at draw number `n` (entry 8). -/
def freeBytes (n : Nat) (r : Range) : Bytes := (List.range r.size).map fun i => Config.freeByte n (r.base + i)

/-- Every byte of every range holds any value (R88, 40_engine.md R132, 70_reset_and_hazards.md R284). -/
def havoc (m : Mem) (n : Nat) : List Range → Mem
  | [] => m
  | r :: rs => havoc (memWrite m r.base (freeBytes n r)) n rs

end Sys2Proof.Machine
end

