-- ==== Sys2Proof/Machine/Operands.lean ====
section
/-! DEFINITION. A command's operands: the validation of the latched parameters and the used ranges
(40_engine.md R122 to R128, 30_encoding.md R109). -/

namespace Sys2Proof.Machine

/-- `iv_ok` (40_engine.md R123). -/
def ivOk (i : Instr) (lp : Latch) : Bool :=
  match i with
  | .cbcEnc | .cbcDec | .cfbEnc | .cfbDec | .ofb | .ctr | .ctrC64 | .ghashHmem => lp.ivLen.toNat = 16
  | .ghash => true
  | .gcmEnc | .gcmDec => 1 ≤ lp.ivLen.toNat
  | .ccmEnc | .ccmDec => 7 ≤ lp.ivLen.toNat && lp.ivLen.toNat ≤ 13

/-- `len_ok` (40_engine.md R123). -/
def lenOk (i : Instr) (lp : Latch) : Bool :=
  match i with
  | .cbcEnc | .cbcDec | .cfbEnc | .cfbDec | .ofb | .ghash | .ghashHmem => lp.len.toNat % 16 = 0
  | .ctr | .ctrC64 | .gcmEnc | .gcmDec | .ccmEnc | .ccmDec => true

/-- `tag_ok` (40_engine.md R124). -/
def tagOk (i : Instr) (lp : Latch) : Bool :=
  match i with
  | .gcmEnc | .gcmDec => lp.tagMin.toNat ≤ lp.tagLen.toNat && lp.tagLen.toNat ≤ 16
  | .ccmEnc | .ccmDec =>
    [4, 6, 8, 10, 12, 14, 16].contains lp.tagLen.toNat && lp.tagMin.toNat ≤ lp.tagLen.toNat
  | .cbcEnc | .cbcDec | .cfbEnc | .cfbDec | .ofb | .ctr | .ctrC64 | .ghash | .ghashHmem => true

/-- `L = 15 - nonce_len`, the width of CCM's length field and counter (47_ccm.md R220). -/
def ccmL (lp : Latch) : Nat := 15 - lp.ivLen.toNat

/-- `msglen_ok` (40_engine.md R125). -/
def msgLenOk (i : Instr) (lp : Latch) : Bool :=
  match i with
  | .ccmEnc | .ccmDec => lp.len.toNat < 2 ^ (8 * ccmL lp)
  | .cbcEnc | .cbcDec | .cfbEnc | .cfbDec | .ofb | .ctr | .ctrC64 | .ghash | .ghashHmem
  | .gcmEnc | .gcmDec => true

/-- The names of the used ranges (40_engine.md R126): IVR, AADR, INR, OUTR, TAGR. -/
inductive RangeName where
  | iv | aad | inp | out | tag
  deriving DecidableEq, Repr

/-- IVR of a command with a variable IV (R126). -/
def ivRange (lp : Latch) : Range := ⟨lp.ivAddr.toNat, lp.ivLen.toNat⟩
/-- IVR of a command whose IV is 16 bytes (R126). -/
def ivBlockRange (lp : Latch) : Range := ⟨lp.ivAddr.toNat, 16⟩
/-- AADR (R126). -/
def aadRange (lp : Latch) : Range := ⟨lp.aadAddr.toNat, lp.aadLen.toNat⟩
/-- INR (R126). -/
def inRange (lp : Latch) : Range := ⟨lp.inAddr.toNat, lp.len.toNat⟩
/-- OUTR (R126). -/
def outRange (lp : Latch) : Range := ⟨lp.outAddr.toNat, lp.len.toNat⟩
/-- OUTR of GHASH, 16 bytes (R126). -/
def outBlockRange (lp : Latch) : Range := ⟨lp.outAddr.toNat, 16⟩
/-- TAGR (R126). -/
def tagRange (lp : Latch) : Range := ⟨lp.tagAddr.toNat, lp.tagLen.toNat⟩

/-- The read ranges of a command, by name (R126). -/
def namedReadRanges (i : Instr) (lp : Latch) : List (RangeName × Range) :=
  match i with
  | .cbcEnc | .cbcDec | .cfbEnc | .cfbDec | .ofb | .ctr | .ctrC64 | .ghashHmem =>
    [(.iv, ivBlockRange lp), (.inp, inRange lp)]
  | .ghash => [(.inp, inRange lp)]
  | .gcmEnc | .ccmEnc => [(.iv, ivRange lp), (.aad, aadRange lp), (.inp, inRange lp)]
  | .gcmDec | .ccmDec => [(.iv, ivRange lp), (.aad, aadRange lp), (.inp, inRange lp), (.tag, tagRange lp)]

/-- The write ranges of a command, by name (R126). -/
def namedWriteRanges (i : Instr) (lp : Latch) : List (RangeName × Range) :=
  match i with
  | .cbcEnc | .cbcDec | .cfbEnc | .cfbDec | .ofb | .ctr | .ctrC64 | .gcmDec | .ccmDec => [(.out, outRange lp)]
  | .ghash | .ghashHmem => [(.out, outBlockRange lp)]
  | .gcmEnc | .ccmEnc => [(.out, outRange lp), (.tag, tagRange lp)]

/-- The read ranges (R126). -/
def readRanges (i : Instr) (lp : Latch) : List Range := (namedReadRanges i lp).map Prod.snd

/-- The write ranges (R126). -/
def writeRanges (i : Instr) (lp : Latch) : List Range := (namedWriteRanges i lp).map Prod.snd

/-- The used ranges: read and write ranges (R126). -/
def usedRanges (i : Instr) (lp : Latch) : List Range := readRanges i lp ++ writeRanges i lp

/-- Address `a` lies in one of the ranges. -/
def inRanges (rs : List Range) (a : Nat) : Bool := rs.any fun r => r.contains a

/-- Every byte of every range satisfies `f`. -/
def allBytes (rs : List Range) (f : Nat → Bool) : Bool := rs.all fun r => r.allBytes f

/-- `ranges_ok` (R127). -/
def rangesOk (i : Instr) (lp : Latch) : Bool := (usedRanges i lp).all Range.fits

/-- The command is GHASH, which has no in-place operation (R128). -/
def isGhash : Instr → Bool
  | .ghash | .ghashHmem => true
  | .cbcEnc | .cbcDec | .cfbEnc | .cfbDec | .ofb | .ctr | .ctrC64 | .gcmEnc | .gcmDec | .ccmEnc | .ccmDec => false

/-- The one pair of a read and a write range that may overlap: INR and OUTR, in exact in-place operation (R128 item 1,
20_memory.md R89). -/
def inPlacePair (i : Instr) (lp : Latch) (r w : RangeName) : Bool :=
  r = .inp && w = .out && lp.inAddr = lp.outAddr && !(isGhash i)

/-- `overlap_ok` (R128): no read range overlaps a write range but the in-place pair, and OUTR and TAGR of GCM_ENC and
CCM_ENC do not overlap. -/
def overlapOk (i : Instr) (lp : Latch) : Bool :=
  ((namedReadRanges i lp).all fun r => (namedWriteRanges i lp).all fun w =>
    inPlacePair i lp r.1 w.1 || !(r.2.overlaps w.2)) &&
  match i with
  | .gcmEnc | .ccmEnc => !((outRange lp).overlaps (tagRange lp))
  | .cbcEnc | .cbcDec | .cfbEnc | .cfbDec | .ofb | .ctr | .ctrC64 | .ghash | .ghashHmem | .gcmDec | .ccmDec => true

/-- `validate` for a decoded command: the checks in the order of R122, the first that fails giving the code (R261). -/
def validateCommand (i : Instr) (lp : Latch) : Err :=
  if !(ivOk i lp) then .ivLen
  else if !(tagOk i lp) then .tagLen
  else if !(lenOk i lp) then .len
  else if !(msgLenOk i lp) then .msgLen
  else if !(rangesOk i lp) then .range
  else if !(overlapOk i lp) then .overlap
  else .ok

/-- `validate(LP)` (R122): the decode check first. -/
def validate (lp : Latch) : Err :=
  match decode lp.cmd with
  | .command i => validateCommand i lp
  | .rejected _ => .cmd

end Sys2Proof.Machine
end

