-- ==== Sys2Proof/Machine/Flags.lean ====
section
/-! DEFINITION. STATUS, its error codes, and the interrupt line (10_state.md R44 to R50, R60 to R62). -/

namespace Sys2Proof.Machine

/-- The numbers of the error codes (60_exceptions.md R250). -/
def errCode : Err → BitVec 4
  | .ok => 0
  | .cmd => 1
  | .len => 2
  | .ivLen => 3
  | .tagLen => 4
  | .msgLen => 5
  | .range => 6
  | .overlap => 7
  | .bus => 8

/-- The value a read of STATUS returns (10_state.md R44): BUSY, DONE, AUTH_FAIL and CMD_OVR in bits 0 to 3, ERR in bits
11:8, every other bit 0. -/
def statusWord (st : Status) : BitVec 32 :=
  (BitVec.ofBool st.busy).zeroExtend 32 ||| ((BitVec.ofBool st.done).zeroExtend 32 <<< 1)
    ||| ((BitVec.ofBool st.authFail).zeroExtend 32 <<< 2) ||| ((BitVec.ofBool st.cmdOvr).zeroExtend 32 <<< 3)
    ||| ((errCode st.err).zeroExtend 32 <<< 8)

/-- A host write of `v` to STATUS: DONE and CMD_OVR are cleared by ones, every other bit of `v` is ignored (R45). -/
def statusWrite (st : Status) (v : BitVec 32) : Status :=
  { st with done := st.done && !(v.getLsbD 1), cmdOvr := st.cmdOvr && !(v.getLsbD 3) }

/-- The flags an accepted command clears (40_engine.md R120). -/
def statusAccepted (st : Status) : Status := { st with done := false, authFail := false, err := .ok }

/-- The flags at an end: BUSY falls, DONE rises, ERR and AUTH_FAIL report (40_engine.md R129, R132, R139). -/
def statusEnded (st : Status) (e : Err) (af : Bool) : Status :=
  { st with busy := false, done := true, err := e, authFail := af }

/-- IRQ: always `CTRL.IE AND STATUS.DONE` (R61). -/
def State.irq (s : State) : Bool := s.ie && s.status.done

end Sys2Proof.Machine
end

