-- ==== Sys2Proof/Machine/Ops.lean ====
section
/-! DEFINITION. The engine's shared operations (40_engine.md): latching, starting, THE END OF A COMMAND (the engine's one
counterpart of taking an exception, 60_exceptions.md R264), and reset. -/

namespace Sys2Proof.Machine

/-- `scrub()` (40_engine.md R141). `raced` is about the running command, so it goes with it. -/
def scrub (s : State) : State :=
  { s with work := Work.zero, lp := Latch.cleared, seq := none, raced := false }

/-- THE END OF A COMMAND, shared by `end_error` (R129), the bus error (R132) and `finish` (R139): ERR and AUTH_FAIL report,
BUSY falls, DONE rises, and the working state is scrubbed. Nothing else is saved (60_exceptions.md R264). -/
def endCommand (e : Err) (af : Bool) (s : State) : State :=
  scrub { s with status := statusEnded s.status e af }

/-- `latch(v)` (R121). -/
def latch (v : BitVec 32) (s : State) : Latch := ⟨s.regs, v⟩

/-- A word is accepted: the flags of the last command are cleared and `W.LP` is loaded (R120). -/
def acceptWord (v : BitVec 32) (s : State) : State :=
  { s with status := statusAccepted s.status, lp := latch v s }

/-- `start()` (R130): BUSY rises and the sequencer stands at its first position. -/
def startCommand (s : State) : State :=
  { s with status := { s.status with busy := true }, seq := some ⟨0, 0⟩, raced := false }

/-- The command in flight, if any (R39, R147). -/
def inFlight (s : State) : Option Instr := if s.status.busy then decodeCommand s.lp.cmd else none

/-- The write ranges of the command in flight; none when the engine is idle (R126). -/
def liveWriteRanges (s : State) : List Range :=
  match inFlight s with
  | some i => writeRanges i s.lp
  | none => []

/-- The used ranges of the command in flight; none when the engine is idle (R126). -/
def liveUsedRanges (s : State) : List Range :=
  match inFlight s with
  | some i => usedRanges i s.lp
  | none => []

/-- The command checks a tag: GCM_DEC or CCM_DEC (R136). -/
def checksTag : Instr → Bool
  | .gcmDec | .ccmDec => true
  | .cbcEnc | .cbcDec | .cfbEnc | .cfbDec | .ofb | .ctr | .ctrC64 | .ghash | .ghashHmem | .gcmEnc | .ccmEnc => false

/-- The end of a command by a bus error (R132): ERR_BUS, AUTH_FAIL = 0, and every byte of the write ranges free
(60_exceptions.md R258; entry 13). -/
def endBusError (i : Instr) (s : State) : State :=
  endCommand .bus false { s with mem := havoc s.mem s.draws (writeRanges i s.lp), draws := s.draws + 1 }

/-- The ERR of a command whose used bytes the host wrote: 0, or ERR_BUS as R132 gives it (20_memory.md R88). A command that
checks a tag writes its ranges or does not, freely (entry 11). -/
def racedErr (i : Instr) (s : State) : Err :=
  if !(allBytes (readRanges i s.lp) (busOK s.platform)) then .bus
  else if !(allBytes (writeRanges i s.lp) (busOK s.platform)) && !(checksTag i && Config.freeBit (s.draws + 1)) then .bus
  else .ok

/-- The end of a command whose used bytes the host wrote (20_memory.md R88): every byte of the write ranges is free, and so
is AUTH_FAIL (entry 11). -/
def endUnspecified (i : Instr) (s : State) : State :=
  endCommand (racedErr i s) (Config.freeBit s.draws)
    { s with mem := havoc s.mem s.draws (writeRanges i s.lp), draws := s.draws + 2 }

/-- AUTH_FAIL of a command with a used byte that is not ordinary memory (20_memory.md R79), given what its rule reports: only a
command that checks a tag can report a mismatch (10_state.md R48, R60), and where it read a byte that is not ordinary memory
it compared values the spec leaves open (entry 12). -/
def oddAuthFail (i : Instr) (af : Bool) (s : State) : Bool :=
  checksTag i && if allBytes (readRanges i s.lp) (ordinaryByte s.platform) then af else Config.freeBit s.draws

/-- The end of a command with a used byte that is not ordinary memory, whose read bytes all answer (20_memory.md R79; entry
12): its outputs are free, and everything else is as R132, R136 and R139 say. A tag mismatch writes nothing; otherwise an
unanswered write byte is a bus error, and else it finishes. -/
def endOdd (i : Instr) (af : Bool) (s : State) : State :=
  if oddAuthFail i af s then endCommand .ok true { s with draws := s.draws + 1 }
  else if !(allBytes (writeRanges i s.lp) (busOK s.platform)) then endBusError i s
  else endCommand .ok false { s with mem := havoc s.mem s.draws (writeRanges i s.lp), draws := s.draws + 1 }

/-- Hardware reset (70_reset_and_hazards.md R280) and soft reset (R283): the engine's state takes the values of
10_state.md R63. A running command is aborted without an end, its write-range bytes free, and no other byte of memory
changes (R284). -/
def engineReset (s : State) : State :=
  { s with
    ie := false, status := Status.reset, regs := ParamRegs.reset, work := Work.zero, lp := Latch.cleared, seq := none,
    raced := false, mem := havoc s.mem s.draws (liveWriteRanges s), draws := s.draws + 1 }

end Sys2Proof.Machine
end

