-- ==== Sys2Proof/Machine/Sequencer.lean ====
section
/-! DEFINITION. The sequencer: how every command is accepted (40_engine.md R120 to R130) and how it is brought to its end
(R131 to R139), given the command's own rule. -/

namespace Sys2Proof.Machine

/-- What a command's rule produces (40_engine.md R131): the working registers it leaves, the byte strings it writes, and
AUTH_FAIL, which is 1 only for a tag mismatch, and then nothing is written (R136). -/
structure RuleOut where
  work : Work
  writes : List (Nat × Bytes)
  authFail : Bool
  deriving DecidableEq, Repr

/-- A command's rule: a function of the cipher port, the latched parameters and memory (40_engine.md R131), run on the
working registers. -/
abbrev Rule := Config.CipherPort → Latch → Mem → Work → RuleOut

/-- Acceptance of command `i` by an idle engine (40_engine.md R120): latch, validate, then end with the error (R129) or start
(R130). -/
def acceptCommand (i : Instr) (s : State) : State :=
  match validateCommand i (latch (encode i) s) with
  | .ok => startCommand (acceptWord (encode i) s)
  | e => endCommand e false (acceptWord (encode i) s)

/-- The completion of the running command `i` (20_memory.md R86): a command whose bytes the host spoiled ends unspecified
(R88); an unanswered read byte ends it with ERR_BUS (40_engine.md R132); then its rule is run (R131); a used byte that is not
ordinary memory frees its outputs (20_memory.md R79); a tag mismatch finishes with AUTH_FAIL = 1 and writes nothing (R136);
an unanswered write byte ends it with ERR_BUS; otherwise the outputs are written and it finishes (R139). -/
def completeCommand (c : Config.CipherPort) (i : Instr) (rule : Rule) (s : State) : State :=
  if s.raced then endUnspecified i s
  else if !(allBytes (readRanges i s.lp) (busOK s.platform)) then endBusError i s
  else
    let out := rule c s.lp s.mem s.work
    let ran := { s with work := out.work }
    if !(allBytes (usedRanges i s.lp) (ordinaryByte s.platform)) then endOdd i out.authFail ran
    else if out.authFail then endCommand .ok true ran
    else if !(allBytes (writeRanges i s.lp) (busOK s.platform)) then endBusError i ran
    else endCommand .ok false { ran with mem := memWriteAll s.mem out.writes }

/-- The engine's next action on command `i` with rule `rule`: with BUSY = 0 the command is accepted (40_engine.md R120), with
BUSY = 1 it is brought to its end (20_memory.md R86; entry 4). A running command that never passed validation is no state of
any run; the machine stops there (entry 15). -/
def runCommand (c : Config.CipherPort) (i : Instr) (rule : Rule) (s : State) : Host.Outcome State Fault Refusal :=
  if s.status.busy then
    if validateCommand i s.lp = .ok then .next (completeCommand c i rule s) else .fault .latchNotValidated
  else .next (acceptCommand i s)

end Sys2Proof.Machine
end

