-- ==== Sys2Proof/Machine/Cbc.lean ====
section
/-! DEFINITION. CBC_ENC and CBC_DEC (41_cbc.md R150, R151). -/

namespace Sys2Proof.Machine

/-- The block loop of CBC_ENC (R150): `C_i = E(k, P_i xor W.FB)`, and `C_i` is the next chaining value. -/
def cbcEncLoop (enc : Block → Block) : Work → List Block → Work × List Block
  | w, [] => (w, [])
  | w, p :: ps =>
    let c := enc (p ^^^ w.fb)
    let rest := cbcEncLoop enc { w with fb := c } ps
    (rest.1, c :: rest.2)

/-- The block loop of CBC_DEC (R151): `P_i = D(k, C_i) xor W.FB`, and the captured `C_i` is the next chaining value. -/
def cbcDecLoop (dec : Block → Block) : Work → List Block → Work × List Block
  | w, [] => (w, [])
  | w, c :: cs =>
    let p := dec c ^^^ w.fb
    let rest := cbcDecLoop dec { w with fb := c } cs
    (rest.1, p :: rest.2)

/-- The shared shape of the feedback modes CBC, CFB and OFB: the IV into `W.FB`, a block loop over the input, the output
blocks to OUTR (R150, R151, R160, R161, R170). -/
def feedbackRule (loop : Work → List Block → Work × List Block) (lp : Latch) (m : Mem) (w : Work) : RuleOut :=
  let iv := memRead m lp.ivAddr.toNat 16
  let inp := memRead m lp.inAddr.toNat lp.len.toNat
  let out := loop { w with fb := blockOfBytes iv } (blocksOf inp)
  { work := out.1, writes := [(lp.outAddr.toNat, bytesOfBlocks out.2)], authFail := false }

/-- The rule of CBC_ENC (R150). -/
def ruleCbcEnc : Rule := fun c lp m w => feedbackRule (cbcEncLoop (c.encrypt lp.keyh)) lp m w

/-- The rule of CBC_DEC (R151), the only rule that calls D (40_engine.md R133). -/
def ruleCbcDec : Rule := fun c lp m w => feedbackRule (cbcDecLoop (c.decrypt lp.keyh)) lp m w

/-- CBC_ENC (R150). -/
def execCbcEnc (s : State) : Host.Outcome State Fault Refusal := runCommand Config.cipherPort .cbcEnc ruleCbcEnc s

/-- CBC_DEC (R151). -/
def execCbcDec (s : State) : Host.Outcome State Fault Refusal := runCommand Config.cipherPort .cbcDec ruleCbcDec s

end Sys2Proof.Machine
end

