-- ==== Sys2Proof/Machine/Counter.lean ====
section
/-! DEFINITION. The counter-block formatter and keystream application (40_engine.md R142 to R144). -/

namespace Sys2Proof.Machine

/-- `inc_w(CB, i)`: the low `w` bytes count modulo `2^(8w)`, the bytes above them never change (R142). -/
def incCounter (w : Nat) (cb : Block) (i : Nat) : Block :=
  BitVec.ofNat 128 (cb.toNat / 2 ^ (8 * w) * 2 ^ (8 * w) + (cb.toNat % 2 ^ (8 * w) + i) % 2 ^ (8 * w))

/-- The keystream loop of CTR, GCM and CCM over `n` blocks (R144; 44_ctr.md R180): `W.KS` is the encryption of `W.CB`, the
last block uses only its first bytes, and `W.CB` counts up after each block. -/
def keystreamXor (enc : Block → Block) (width : Nat) : Nat → Work → Bytes → Work × Bytes
  | 0, w, _ => (w, [])
  | n + 1, w, s =>
    let ks := enc w.cb
    let rest := keystreamXor enc width n { w with ks := ks, cb := incCounter width w.cb 1 } (s.drop 16)
    (rest.1, xorBytes (s.take 16) (bytesOfBlock ks) ++ rest.2)

end Sys2Proof.Machine
end

