-- ==== Sys2Proof/Machine/Gf.lean ====
section
/-! DEFINITION. GF(2^128) and GHASH (45_ghash.md R190 to R193). -/

namespace Sys2Proof.Machine

/-- `X_i`, the coefficient of `x^i`: bit `7 - (i mod 8)` of byte `floor(i / 8)` (R190), which is bit `127 - i` of the
block's number. -/
def gfCoeff (x : Block) (i : Nat) : Bool := x.getMsbD i

/-- `R = E1 00 … 00`, that is `x^7 + x^2 + x + 1` (R191). -/
def gfReduction : Block := 0xE1000000000000000000000000000000

/-- Multiplication by `x`: `shr1(V)`, plus `R` when `V_127 = 1` (R191). -/
def gfMulX (v : Block) : Block :=
  if gfCoeff v 127 then (v >>> 1) ^^^ gfReduction else v >>> 1

/-- The loop of `gfmul` from index `i` for `n` rounds (R191). -/
def gfMulLoop (x : Block) : Nat → Nat → Block → Block → Block
  | 0, _, z, _ => z
  | n + 1, i, z, v => gfMulLoop x n (i + 1) (if gfCoeff x i then z ^^^ v else z) (gfMulX v)

/-- `gfmul(X, Y)` (R191). -/
def gfMul (x y : Block) : Block := gfMulLoop x 128 0 0 y

/-- `GHASH_H(S)` on the working registers, with H in `W.H`: `W.ACC` starts at zero and takes in every block (R193). -/
def ghashRun (w : Work) (s : Bytes) : Work :=
  (blocksOf s).foldl (fun w x => { w with acc := gfMul (w.acc ^^^ x) w.h }) { w with acc := 0 }

end Sys2Proof.Machine
end

