-- ==== Sys2Proof/Machine/Gcm.lean ====
section
/-! DEFINITION. GCM_ENC and GCM_DEC (46_gcm.md R200 to R206). -/

namespace Sys2Proof.Machine

/-- The GHASH input of the general path of J0: `pad16(IV) || zeros(8) || BE_8(8n)` (R201, 90_conflicts.md C1). -/
def gcmIvInput (iv : Bytes) : Bytes := pad16 iv ++ zeroBytes 8 ++ beBytes 8 (8 * iv.length)

/-- H into `W.H` (R200) and the pre-counter block into `W.J0` (R201). -/
def gcmStart (enc : Block → Block) (iv : Bytes) (w : Work) : Work :=
  let w := { w with h := enc 0 }
  if iv.length = 12 then { w with j0 := blockOfBytes (iv ++ [0x00, 0x00, 0x00, 0x01]) }
  else
    let w := ghashRun w (gcmIvInput iv)
    { w with j0 := w.acc }

/-- GCTR from `inc_4(J0, 1)` (R202). -/
def gcmCtr (enc : Block → Block) (w : Work) (s : Bytes) : Work × Bytes :=
  keystreamXor enc 4 (blockCount s.length) { w with cb := incCounter 4 w.j0 1 } s

/-- The authentication input (R203): AAD and ciphertext, each padded, and the bit lengths. -/
def gcmAuthInput (aad ct : Bytes) : Bytes :=
  pad16 aad ++ pad16 ct ++ beBytes 8 (8 * aad.length) ++ beBytes 8 (8 * ct.length)

/-- The authentication value into `W.TC` (R203, R204). -/
def gcmAuth (enc : Block → Block) (aad ct : Bytes) (w : Work) : Work :=
  let w := ghashRun w (gcmAuthInput aad ct)
  { w with tc := enc w.j0 ^^^ w.acc }

/-- `MSB_t(W.TC)`: the tag (R204, 47_ccm.md R228). -/
def tagBytes (w : Work) (t : Nat) : Bytes := (bytesOfBlock w.tc).take t

/-- `tag_eq`: the comparison of all the bytes (40_engine.md R137). -/
def tagEq (x y : Bytes) : Bool := x = y

/-- The shared end of GCM_DEC and CCM_DEC (R206, 47_ccm.md R230): with the authentication value in `W.TC`, compare the tag;
only on a match run the second pass `pass2` and write its output, otherwise write nothing and report AUTH_FAIL
(40_engine.md R136). -/
def openRule (lp : Latch) (m : Mem) (w : Work) (pass2 : Work × Bytes) : RuleOut :=
  if tagEq (tagBytes w lp.tagLen.toNat) (memRead m lp.tagAddr.toNat lp.tagLen.toNat) then
    { work := pass2.1, writes := [(lp.outAddr.toNat, pass2.2)], authFail := false }
  else { work := w, writes := [], authFail := true }

/-- The rule of GCM_ENC (R205). The hash is over the ciphertext the engine computed. -/
def ruleGcmEnc : Rule := fun c lp m w =>
  let enc := c.encrypt lp.keyh
  let iv := memRead m lp.ivAddr.toNat lp.ivLen.toNat
  let aad := memRead m lp.aadAddr.toNat lp.aadLen.toNat
  let inp := memRead m lp.inAddr.toNat lp.len.toNat
  let ct := gcmCtr enc (gcmStart enc iv w) inp
  let w := gcmAuth enc aad ct.2 ct.1
  { work := w, writes := [(lp.outAddr.toNat, ct.2), (lp.tagAddr.toNat, tagBytes w lp.tagLen.toNat)], authFail := false }

/-- The rule of GCM_DEC (R206): authenticate the ciphertext, and only on a match decrypt and write. -/
def ruleGcmDec : Rule := fun c lp m w =>
  let enc := c.encrypt lp.keyh
  let iv := memRead m lp.ivAddr.toNat lp.ivLen.toNat
  let aad := memRead m lp.aadAddr.toNat lp.aadLen.toNat
  let inp := memRead m lp.inAddr.toNat lp.len.toNat
  let w := gcmAuth enc aad inp (gcmStart enc iv w)
  openRule lp m w (gcmCtr enc w inp)

/-- GCM_ENC (R205). -/
def execGcmEnc (s : State) : Host.Outcome State Fault Refusal := runCommand Config.cipherPort .gcmEnc ruleGcmEnc s

/-- GCM_DEC (R206). -/
def execGcmDec (s : State) : Host.Outcome State Fault Refusal := runCommand Config.cipherPort .gcmDec ruleGcmDec s

end Sys2Proof.Machine
end

