-- ==== Sys2Proof/Machine/Ccm.lean ====
section
/-! DEFINITION. CCM_ENC and CCM_DEC (47_ccm.md R220 to R230). -/

namespace Sys2Proof.Machine

/-- The flags byte of B0 (R221). -/
def ccmFlags (a t l : Nat) : Nat := 64 * (if a > 0 then 1 else 0) + 8 * ((t - 2) / 2) + (l - 1)

/-- `B0 = BYTE(flags) || N || BE_L(m)` (R222). -/
def ccmB0 (nonce : Bytes) (a m t : Nat) : Bytes :=
  let l := 15 - nonce.length
  BitVec.ofNat 8 (ccmFlags a t l) :: nonce ++ beBytes l m

/-- `aenc(a)`: the AAD length encoding (R223). -/
def ccmAadLen (a : Nat) : Bytes :=
  if a < 0xFF00 then beBytes 2 a
  else if a < 2 ^ 32 then [0xFF, 0xFE] ++ beBytes 4 a
  else [0xFF, 0xFF] ++ beBytes 8 a

/-- `Ablocks`: one padding over the length encoding and the AAD together, and nothing when there is no AAD (R224). -/
def ccmAadBlocks (aad : Bytes) : Bytes := if aad.length > 0 then pad16 (ccmAadLen aad.length ++ aad) else []

/-- `A_0 = BYTE(L - 1) || N || zeros(L)` (R226). -/
def ccmA0 (nonce : Bytes) : Bytes :=
  let l := 15 - nonce.length
  BitVec.ofNat 8 (l - 1) :: nonce ++ zeroBytes l

/-- `CBCMAC(B)` in `W.MAC` (R225). -/
def cbcMacRun (enc : Block → Block) (w : Work) (s : Bytes) : Work :=
  (blocksOf s).foldl (fun w x => { w with mac := enc (w.mac ^^^ x) }) { w with mac := 0 }

/-- The MAC over B0, the AAD blocks and the padded plaintext (R225). -/
def ccmMac (enc : Block → Block) (nonce aad pt : Bytes) (t : Nat) (w : Work) : Work :=
  cbcMacRun enc w (ccmB0 nonce aad.length pt.length t ++ ccmAadBlocks aad ++ pad16 pt)

/-- `CCTR`: the data keystream from `A_1`, with the `L`-byte counter (R226, R227). -/
def ccmCtr (enc : Block → Block) (l : Nat) (w : Work) (s : Bytes) : Work × Bytes :=
  keystreamXor enc l (blockCount s.length) { w with cb := incCounter l w.j0 1 } s

/-- `W.TC = W.MAC xor E(k, A_0)` (R228). -/
def ccmTag (enc : Block → Block) (w : Work) : Work := { w with tc := w.mac ^^^ enc w.j0 }

/-- The rule of CCM_ENC (R229): authenticate, then encrypt. -/
def ruleCcmEnc : Rule := fun c lp m w =>
  let enc := c.encrypt lp.keyh
  let nonce := memRead m lp.ivAddr.toNat lp.ivLen.toNat
  let aad := memRead m lp.aadAddr.toNat lp.aadLen.toNat
  let inp := memRead m lp.inAddr.toNat lp.len.toNat
  let w := ccmMac enc nonce aad inp lp.tagLen.toNat w
  let ct := ccmCtr enc (ccmL lp) { w with j0 := blockOfBytes (ccmA0 nonce) } inp
  let w := ccmTag enc ct.1
  { work := w, writes := [(lp.outAddr.toNat, ct.2), (lp.tagAddr.toNat, tagBytes w lp.tagLen.toNat)], authFail := false }

/-- The rule of CCM_DEC (R230): decrypt inside, authenticate the plaintext, and only on a match decrypt again and write
(90_conflicts.md C8). -/
def ruleCcmDec : Rule := fun c lp m w =>
  let enc := c.encrypt lp.keyh
  let nonce := memRead m lp.ivAddr.toNat lp.ivLen.toNat
  let aad := memRead m lp.aadAddr.toNat lp.aadLen.toNat
  let inp := memRead m lp.inAddr.toNat lp.len.toNat
  let pt := ccmCtr enc (ccmL lp) { w with j0 := blockOfBytes (ccmA0 nonce) } inp
  let w := ccmTag enc (ccmMac enc nonce aad pt.2 lp.tagLen.toNat pt.1)
  openRule lp m w (ccmCtr enc (ccmL lp) w inp)

/-- CCM_ENC (R229). -/
def execCcmEnc (s : State) : Host.Outcome State Fault Refusal := runCommand Config.cipherPort .ccmEnc ruleCcmEnc s

/-- CCM_DEC (R230). -/
def execCcmDec (s : State) : Host.Outcome State Fault Refusal := runCommand Config.cipherPort .ccmDec ruleCcmDec s

end Sys2Proof.Machine
end

