-- ==== Sys2Proof/Machine/Cfb.lean ====
section
/-! DEFINITION. CFB_ENC and CFB_DEC, full-block feedback (42_cfb.md R160, R161). -/

namespace Sys2Proof.Machine

/-- The block loop of CFB_ENC (R160): the feedback is the ciphertext block just made. -/
def cfbEncLoop (enc : Block → Block) : Work → List Block → Work × List Block
  | w, [] => (w, [])
  | w, p :: ps =>
    let ks := enc w.fb
    let c := p ^^^ ks
    let rest := cfbEncLoop enc { w with ks := ks, fb := c } ps
    (rest.1, c :: rest.2)

/-- The block loop of CFB_DEC (R161): the feedback is the ciphertext block read, and only E is called. -/
def cfbDecLoop (enc : Block → Block) : Work → List Block → Work × List Block
  | w, [] => (w, [])
  | w, c :: cs =>
    let ks := enc w.fb
    let p := c ^^^ ks
    let rest := cfbDecLoop enc { w with ks := ks, fb := c } cs
    (rest.1, p :: rest.2)

/-- The rule of CFB_ENC (R160). -/
def ruleCfbEnc : Rule := fun c lp m w => feedbackRule (cfbEncLoop (c.encrypt lp.keyh)) lp m w

/-- The rule of CFB_DEC (R161). -/
def ruleCfbDec : Rule := fun c lp m w => feedbackRule (cfbDecLoop (c.encrypt lp.keyh)) lp m w

/-- CFB_ENC (R160). -/
def execCfbEnc (s : State) : Host.Outcome State Fault Refusal := runCommand Config.cipherPort .cfbEnc ruleCfbEnc s

/-- CFB_DEC (R161). -/
def execCfbDec (s : State) : Host.Outcome State Fault Refusal := runCommand Config.cipherPort .cfbDec ruleCfbDec s

end Sys2Proof.Machine
end

