-- ==== Sys2Proof/Machine/Ctr.lean ====
section
/-! DEFINITION. CTR with a 4-byte and with an 8-byte counter (44_ctr.md R180, R181). -/

namespace Sys2Proof.Machine

/-- The rule of CTR with increment width `width` bytes (R180): the first counter block is the IV. -/
def ruleCtr (width : Nat) : Rule := fun c lp m w =>
  let iv := memRead m lp.ivAddr.toNat 16
  let inp := memRead m lp.inAddr.toNat lp.len.toNat
  let out := keystreamXor (c.encrypt lp.keyh) width (blockCount lp.len.toNat) { w with cb := blockOfBytes iv } inp
  { work := out.1, writes := [(lp.outAddr.toNat, out.2)], authFail := false }

/-- CTR, CW = 0: `w = 4` (R180, 30_encoding.md R103). -/
def execCtr (s : State) : Host.Outcome State Fault Refusal := runCommand Config.cipherPort .ctr (ruleCtr 4) s

/-- CTR.C64, CW = 1: `w = 8` (R180, 30_encoding.md R103). -/
def execCtrC64 (s : State) : Host.Outcome State Fault Refusal := runCommand Config.cipherPort .ctrC64 (ruleCtr 8) s

end Sys2Proof.Machine
end

