-- ==== Sys2Proof/Machine/Ghash.lean ====
section
/-! DEFINITION. The GHASH command, with H computed or read from memory (45_ghash.md R194). -/

namespace Sys2Proof.Machine

/-- GHASH of the input with H in `W.H`, written to the 16 bytes of OUTR (R194). -/
def ghashFrom (lp : Latch) (m : Mem) (w : Work) : RuleOut :=
  let out := ghashRun w (memRead m lp.inAddr.toNat lp.len.toNat)
  { work := out, writes := [(lp.outAddr.toNat, bytesOfBlock out.acc)], authFail := false }

/-- The rule of GHASH with HSRC = 0 (R194): `H = E(KEYH, zeros(16))`. -/
def ruleGhash : Rule := fun c lp m w => ghashFrom lp m { w with h := c.encrypt lp.keyh 0 }

/-- The rule of GHASH with HSRC = 1 (R194): `H = MemRead(IV_ADDR, 16)`, and no cipher call. -/
def ruleGhashHmem : Rule := fun _ lp m w => ghashFrom lp m { w with h := blockOfBytes (memRead m lp.ivAddr.toNat 16) }

/-- GHASH, HSRC = 0 (R194). -/
def execGhash (s : State) : Host.Outcome State Fault Refusal := runCommand Config.cipherPort .ghash ruleGhash s

/-- GHASH.HMEM, HSRC = 1 (R194). -/
def execGhashHmem (s : State) : Host.Outcome State Fault Refusal :=
  runCommand Config.cipherPort .ghashHmem ruleGhashHmem s

end Sys2Proof.Machine
end

