-- ==== Sys2Proof/Machine/Ofb.lean ====
section
/-! DEFINITION. OFB (43_ofb.md R170). -/

namespace Sys2Proof.Machine

/-- The block loop of OFB (R170): the feedback is the keystream block. -/
def ofbLoop (enc : Block → Block) : Work → List Block → Work × List Block
  | w, [] => (w, [])
  | w, x :: xs =>
    let ks := enc w.fb
    let rest := ofbLoop enc { w with ks := ks, fb := ks } xs
    (rest.1, (x ^^^ ks) :: rest.2)

/-- The rule of OFB (R170). -/
def ruleOfb : Rule := fun c lp m w => feedbackRule (ofbLoop (c.encrypt lp.keyh)) lp m w

/-- OFB (R170). -/
def execOfb (s : State) : Host.Outcome State Fault Refusal := runCommand Config.cipherPort .ofb ruleOfb s

end Sys2Proof.Machine
end

