-- ==== Sys2Proof/Machine/Dispatch.lean ====
section
/-! DEFINITION. The meaning of every command: `exec i` is the engine's next action on command `i`, its acceptance when the
engine is idle and its completion when it is busy (entry 4). -/

namespace Sys2Proof.Machine

def exec (i : Instr) (s : State) : Host.Outcome State Fault Refusal :=
  match i with
  | .cbcEnc => Sys2Proof.Machine.execCbcEnc s
  | .cbcDec => Sys2Proof.Machine.execCbcDec s
  | .cfbEnc => Sys2Proof.Machine.execCfbEnc s
  | .cfbDec => Sys2Proof.Machine.execCfbDec s
  | .ofb => Sys2Proof.Machine.execOfb s
  | .ctr => Sys2Proof.Machine.execCtr s
  | .ctrC64 => Sys2Proof.Machine.execCtrC64 s
  | .ghash => Sys2Proof.Machine.execGhash s
  | .ghashHmem => Sys2Proof.Machine.execGhashHmem s
  | .gcmEnc => Sys2Proof.Machine.execGcmEnc s
  | .gcmDec => Sys2Proof.Machine.execGcmDec s
  | .ccmEnc => Sys2Proof.Machine.execCcmEnc s
  | .ccmDec => Sys2Proof.Machine.execCcmDec s

end Sys2Proof.Machine
end

