-- ==== Sys2Proof/Machine/HostPort.lean ====
section
/-! DEFINITION. The host's accesses (10_state.md R42 to R59, 20_memory.md R76, R87, R88) and whose turn it is
(R94, 70_reset_and_hazards.md R298). -/

namespace Sys2Proof.Machine

/-- The register at a word offset of the window; none for a misaligned offset (10_state.md R42, 20_memory.md R76). -/
def regAt (off : BitVec 6) : Option Reg :=
  match off.toNat with
  | 0x00 => some .ctrl
  | 0x04 => some .status
  | 0x08 => some .cmd
  | 0x0C => some .keyh
  | 0x10 => some .ivAddr
  | 0x14 => some .ivLen
  | 0x18 => some .aadAddr
  | 0x1C => some .aadLen
  | 0x20 => some .inAddr
  | 0x24 => some .outAddr
  | 0x28 => some .len
  | 0x2C => some .tagAddr
  | 0x30 => some .tagLen
  | 0x34 => some .tagMin
  | 0x38 => some .reserved38
  | 0x3C => some .reserved3C
  | _ => none

/-- The register an access reaches: only an aligned 32-bit word access is admitted (20_memory.md R76). -/
def regOfAccess (size : AccessSize) (off : BitVec 6) : Option Reg :=
  match size with
  | .word => regAt off
  | .byte | .half => none

/-- The window offset of a host-bus address (10_state.md R42); none outside the 64 bytes at `BASE`. -/
def windowOffset (busAddr : Nat) : Option (BitVec 6) :=
  if Config.base ≤ busAddr ∧ busAddr < Config.base + Config.windowSize then some (BitVec.ofNat 6 (busAddr - Config.base))
  else none

/-- The value a read of a register returns (R42 to R58). A read has no side effect (R45). -/
def readReg (s : State) : Reg → BitVec 32
  | .ctrl => (BitVec.ofBool s.ie).zeroExtend 32
  | .status => statusWord s.status
  | .cmd => 0
  | .keyh => s.regs.keyh
  | .ivAddr => s.regs.ivAddr
  | .ivLen => s.regs.ivLen
  | .aadAddr => s.regs.aadAddr
  | .aadLen => s.regs.aadLen
  | .inAddr => s.regs.inAddr
  | .outAddr => s.regs.outAddr
  | .len => s.regs.len
  | .tagAddr => s.regs.tagAddr
  | .tagLen => s.regs.tagLen
  | .tagMin => s.regs.tagMin.zeroExtend 32
  | .reserved38 => 0
  | .reserved3C => 0

/-- A host write to CTRL (R43): IE takes bit 0, then bit 1 performs the soft reset (70_reset_and_hazards.md R283). -/
def writeCtrl (v : BitVec 32) (s : State) : State :=
  let s := { s with ie := v.getLsbD 0 }
  if v.getLsbD 1 then engineReset s else s

/-- A host write to TAGMIN: only 1 to 16 is taken (R57). -/
def writeTagMin (v : BitVec 32) (r : ParamRegs) : ParamRegs :=
  if 1 ≤ v.toNat ∧ v.toNat ≤ 16 then { r with tagMin := v.setWidth 5 } else r

/-- A host write to any register but CMD (R43 to R59). Writes take effect at once, also while a command runs (R59). -/
def writeReg (r : Reg) (v : BitVec 32) (s : State) : State :=
  match r with
  | .ctrl => writeCtrl v s
  | .status => { s with status := statusWrite s.status v }
  | .cmd => s
  | .keyh => { s with regs := { s.regs with keyh := v } }
  | .ivAddr => { s with regs := { s.regs with ivAddr := v } }
  | .ivLen => { s with regs := { s.regs with ivLen := v } }
  | .aadAddr => { s with regs := { s.regs with aadAddr := v } }
  | .aadLen => { s with regs := { s.regs with aadLen := v } }
  | .inAddr => { s with regs := { s.regs with inAddr := v } }
  | .outAddr => { s with regs := { s.regs with outAddr := v } }
  | .len => { s with regs := { s.regs with len := v } }
  | .tagAddr => { s with regs := { s.regs with tagAddr := v } }
  | .tagLen => { s with regs := { s.regs with tagLen := v } }
  | .tagMin => { s with regs := writeTagMin v s.regs }
  | .reserved38 => s
  | .reserved3C => s

/-- What one step does: move to a state, let the engine act on a command, or stop. -/
inductive Plan where
  | next (s : State)
  | run (i : Instr) (s : State)
  | stuck (f : Fault)
  deriving DecidableEq, Repr

/-- A host write of `v` to CMD (40_engine.md R120): dropped with CMD_OVR while a command runs (R147); otherwise the engine
acts on the decoded command, and a word that does not decode is accepted and ends with ERR_CMD (R129, 60_exceptions.md
R251). -/
def writeCmd (v : BitVec 32) (s : State) : Plan :=
  if s.status.busy then .next { s with status := { s.status with cmdOvr := true } }
  else
    match decode v with
    | .command i => .run i s
    | .rejected _ => .next (endCommand .cmd false (acceptWord v s))

/-- A host write of one byte of system memory. A write to a used byte of the running command spoils that command
(20_memory.md R88). The write takes effect whatever `BusOK` says of the byte (DEDUCED, entry 24) and also where the byte is
not ordinary memory, of which the spec says nothing (DESIGN CHOICE, entry 26). -/
def hostWriteByte (a : BitVec 32) (b : BitVec 8) (s : State) : State :=
  { s with mem := writeByte s.mem a.toNat b, raced := s.raced || inRanges (liveUsedRanges s) a.toNat }

/-- A host read of one byte of system memory: while a command runs, a byte of its write ranges reads as any value
(20_memory.md R87). Any other byte reads as what memory holds, whatever `BusOK` says of it (DEDUCED, entry 24) and also where
it is not ordinary memory, of which the spec says nothing (DESIGN CHOICE, entry 26). -/
def hostReadByte (a : BitVec 32) (s : State) : State :=
  if inRanges (liveWriteRanges s) a.toNat then
    { s with hostSaw := some (.byte (Config.freeByte s.draws a.toNat)), draws := s.draws + 1 }
  else { s with hostSaw := some (.byte (readByte s.mem a.toNat)) }

/-- The engine's turn: a running command is brought to its end; an idle engine does nothing (60_exceptions.md R274). -/
def engineTurn (s : State) : Plan :=
  if s.status.busy then
    match decode s.lp.cmd with
    | .command i => .run i s
    | .rejected _ => .stuck .latchNotValidated
  else .next s

/-- The host is stuck at an access that is not admitted (20_memory.md R76): only the engine may still move. -/
def hostStuck (s : State) : Plan := if s.status.busy then engineTurn s else .stuck .windowAccessNotAdmitted

/-- One action of the schedule, already taken off it; `stuckAt` is the state before it was taken off. -/
def perform (stuckAt : State) (e : Event) (s : State) : Plan :=
  match e with
  | .engine => engineTurn s
  | .regWrite size off v =>
    match regOfAccess size off with
    | some .cmd => writeCmd v s
    | some r => .next (writeReg r v s)
    | none => hostStuck stuckAt
  | .regRead size off =>
    match regOfAccess size off with
    | some r => .next { s with hostSaw := some (.word (readReg s r)) }
    | none => hostStuck stuckAt
  | .memWrite a b => .next (hostWriteByte a b s)
  | .memRead a => .next (hostReadByte a s)
  | .reset => .next (engineReset s)

/-- Whose turn it is (R94, R298): the schedule's next action; the engine when the schedule is empty, so that an accepted
command always ends (40_engine.md R146). -/
def plan (s : State) : Plan :=
  match s.schedule with
  | [] => engineTurn s
  | e :: rest => perform s e { s with schedule := rest }

end Sys2Proof.Machine
end

