-- ==== Sys2Proof/Machine/Step.lean ====
section
/-! DEFINITION. One step of the machine, and the placing of a command word where the next step takes it. -/

namespace Sys2Proof.Machine

/-- What a plan comes to: a next state, the engine's action on a command, or a stop. -/
def carryOut : Plan → Host.Outcome State Fault Refusal
  | .next t => .next t
  | .run i t => exec i t
  | .stuck f => .fault f

/-- One step: the next action of the host, or of the engine on a command (20_memory.md R86, R94). -/
def step (s : State) : Host.Outcome State Fault Refusal := carryOut (plan s)

/-- The state whose next step takes the command word `w`: the host's next action is a write of it to CMD (10_state.md
R51). The engine fetches nothing (20_memory.md R92), so this stands for the host's program (entry 1). -/
def State.withFetchWord (s : State) (nbits w : Nat) : State :=
  { s with schedule := .regWrite .word 0x08 (BitVec.ofNat 32 (w % 2 ^ nbits)) :: s.schedule }

end Sys2Proof.Machine
end

