-- ==== Sys2Proof/Safety.lean ====
section
/-! DEFINITION. The vocabulary of the statements: running commands, ends, what memory keeps, the closed forms of the spec's
mode rules, the machine's invariant, and the host's duties. -/

namespace Sys2Proof.Machine

/-- Command `i` runs: BUSY = 1 and the latched parameters passed its validation (40_engine.md R130). -/
def Running (i : Instr) (s : State) : Prop := s.status.busy = true ∧ validateCommand i s.lp = .ok

/-- The host has kept its buffer duty (R88, 70_reset_and_hazards.md R292) and every used byte is ordinary memory
(20_memory.md R79). -/
def Undisturbed (i : Instr) (s : State) : Prop :=
  s.raced = false ∧ ∀ r ∈ usedRanges i s.lp, ∀ a, r.contains a = true → ordinaryByte s.platform a = true

/-- A byte of the ranges is not ordinary memory (20_memory.md R79). -/
def OddByte (rs : List Range) (s : State) : Prop := ∃ r ∈ rs, ∃ a, r.contains a = true ∧ ordinaryByte s.platform a = false

/-- System memory answers every byte of the read ranges (40_engine.md R132). -/
def ReadsAnswered (i : Instr) (s : State) : Prop :=
  ∀ r ∈ readRanges i s.lp, ∀ a, r.contains a = true → busOK s.platform a = true

/-- System memory answers every byte of the write ranges (40_engine.md R132). -/
def WritesAnswered (i : Instr) (s : State) : Prop :=
  ∀ r ∈ writeRanges i s.lp, ∀ a, r.contains a = true → busOK s.platform a = true

/-- The conditions under which the spec gives command `i` its normal end: it runs, undisturbed, every used byte answers
(40_engine.md R131, R132, R139), and memory is in the canonical form that every run keeps. -/
structure Clean (i : Instr) (s : State) : Prop where
  running : Running i s
  undisturbed : Undisturbed i s
  reads : ReadsAnswered i s
  writes : WritesAnswered i s
  memWf : Mem.wf s.mem = true

/-- The engine's state after an end with code `e` and AUTH_FAIL `af` (40_engine.md R129, R132, R139, R141), and everything an
end leaves alone: the registers, IE, CMD_OVR, the platform and the host (10_state.md R65, 60_exceptions.md R264).The values of the
cleared `W.LP` and `W.SEQ` are the model's (entries 9 and 10). -/
structure Ended (s t : State) (e : Err) (af : Bool) : Prop where
  status : t.status = ⟨false, true, af, s.status.cmdOvr, e⟩
  work : t.work = Work.zero
  lp : t.lp = Latch.cleared
  seq : t.seq = none
  raced : t.raced = false
  ie : t.ie = s.ie
  regs : t.regs = s.regs
  platform : t.platform = s.platform
  schedule : t.schedule = s.schedule
  hostSaw : t.hostSaw = s.hostSaw

/-- `finish(af)` (40_engine.md R139): an end with ERR = 0 at which no free value was drawn. -/
def Finished (s t : State) (af : Bool) : Prop := Ended s t .ok af ∧ t.draws = s.draws

/-- Every byte of memory outside the ranges reads as before. -/
def SameOutside (rs : List Range) (s t : State) : Prop :=
  ∀ a, inRanges rs a = false → readByte t.mem a = readByte s.mem a

/-- Every byte of the ranges reads as one free value, drawn at draw number `n`. -/
def FreeInside (rs : List Range) (n : Nat) (t : State) : Prop :=
  ∀ a, inRanges rs a = true → readByte t.mem a = Config.freeByte n a

/-- The 16-byte block at address `a` (20_memory.md R74). -/
def memBlock (m : Mem) (a : Nat) : Block := blockOfBytes (memRead m a 16)

/-- `E(k, X)` of the machine's cipher port (00_scope.md R8). -/
def encryptBlock (k : Word) (x : Block) : Block := Config.cipherPort.encrypt k x

/-- `D(k, X)` of the machine's cipher port (00_scope.md R8). -/
def decryptBlock (k : Word) (x : Block) : Block := Config.cipherPort.decrypt k x

/-- Byte `j` of a block, byte 0 the most significant (20_memory.md R74). -/
def blockByte (x : Block) (j : Nat) : Byte := x.extractLsb' (8 * (15 - j)) 8

/-- Byte `j` of the keystream `E(k, inc_w(CB, 0)) || E(k, inc_w(CB, 1)) || …` (40_engine.md R142, R144). -/
def keystreamByte (k : Word) (width : Nat) (cb : Block) (j : Nat) : Byte :=
  blockByte (encryptBlock k (incCounter width cb (j / 16))) (j % 16)

/-- `GHASH_H` of a sequence of blocks (45_ghash.md R193). -/
def ghashBlocks (h : Block) (xs : List Block) : Block := xs.foldl (fun acc x => gfMul (acc ^^^ x) h) 0

/-- `CBCMAC` of a sequence of blocks (47_ccm.md R225). -/
def cbcMacBlocks (k : Word) (xs : List Block) : Block := xs.foldl (fun acc x => encryptBlock k (acc ^^^ x)) 0

/-- The pre-counter block (46_gcm.md R201). -/
def gcmJ0 (k : Word) (iv : Bytes) : Block :=
  if iv.length = 12 then blockOfBytes (iv ++ [0x00, 0x00, 0x00, 0x01])
  else ghashBlocks (encryptBlock k 0) (blocksOf (pad16 iv ++ zeroBytes 8 ++ beBytes 8 (8 * iv.length)))

/-- The full authentication value of GCM over AAD and ciphertext (46_gcm.md R203, R204). -/
def gcmTagBlock (k : Word) (iv aad ct : Bytes) : Block :=
  encryptBlock k (gcmJ0 k iv) ^^^
    ghashBlocks (encryptBlock k 0)
      (blocksOf (pad16 aad ++ pad16 ct ++ beBytes 8 (8 * aad.length) ++ beBytes 8 (8 * ct.length)))

/-- The counter-0 block `A_0` (47_ccm.md R226). -/
def ccmA0Block (nonce : Bytes) : Block := blockOfBytes (ccmA0 nonce)

/-- The raw MAC of CCM over AAD and plaintext (47_ccm.md R225). -/
def ccmMacBlock (k : Word) (nonce aad pt : Bytes) (t : Nat) : Block :=
  cbcMacBlocks k (blocksOf (ccmB0 nonce aad.length pt.length t ++ ccmAadBlocks aad ++ pad16 pt))

/-- The full authentication value of CCM over AAD and plaintext (47_ccm.md R228). -/
def ccmTagBlock (k : Word) (nonce aad pt : Bytes) (t : Nat) : Block :=
  ccmMacBlock k nonce aad pt t ^^^ encryptBlock k (ccmA0Block nonce)

/-- The IV bytes of the running command (40_engine.md R131). -/
def ivBytes (s : State) : Bytes := memRead s.mem s.lp.ivAddr.toNat s.lp.ivLen.toNat
/-- The AAD bytes of the running command (40_engine.md R131). -/
def aadBytes (s : State) : Bytes := memRead s.mem s.lp.aadAddr.toNat s.lp.aadLen.toNat
/-- The input bytes of the running command (40_engine.md R131). -/
def inBytes (s : State) : Bytes := memRead s.mem s.lp.inAddr.toNat s.lp.len.toNat
/-- The bytes of the tag buffer of the running command (40_engine.md R131). -/
def tagBufBytes (s : State) : Bytes := memRead s.mem s.lp.tagAddr.toNat s.lp.tagLen.toNat

/-- The tag GCM computes for the running command over its AAD and its input as ciphertext (46_gcm.md R204, R206). -/
def gcmTag (s : State) : Bytes :=
  (bytesOfBlock (gcmTagBlock s.lp.keyh (ivBytes s) (aadBytes s) (inBytes s))).take s.lp.tagLen.toNat

/-- `pt` is the running CCM_DEC's input xor the keystream from `A_1` (47_ccm.md R227, R230). -/
def CcmOpensTo (s : State) (pt : Bytes) : Prop :=
  pt.length = s.lp.len.toNat ∧
    ∀ j, j < s.lp.len.toNat →
      pt[j]? = some (readByte s.mem (s.lp.inAddr.toNat + j) ^^^
        keystreamByte s.lp.keyh (15 - s.lp.ivLen.toNat)
          (incCounter (15 - s.lp.ivLen.toNat) (ccmA0Block (ivBytes s)) 1) j)

/-- The raw MAC CCM computes for the running command over its AAD and the plaintext `pt` (47_ccm.md R225, R230). -/
def ccmMacFor (s : State) (pt : Bytes) : Block :=
  ccmMacBlock s.lp.keyh (ivBytes s) (aadBytes s) pt s.lp.tagLen.toNat

/-- The tag CCM computes for the running command over its AAD and the plaintext `pt` (47_ccm.md R228, R230). -/
def ccmTagFor (s : State) (pt : Bytes) : Bytes :=
  (bytesOfBlock (ccmTagBlock s.lp.keyh (ivBytes s) (aadBytes s) pt s.lp.tagLen.toNat)).take s.lp.tagLen.toNat

/-- The invariant of the machine: memory is canonical (20_memory.md R70), TAGMIN is 1 to 16 (10_state.md R57), the working
registers are zero between steps (R30), an idle engine holds no latch, no position and no race (R39, R141), and a busy
engine holds a latched command that passed validation, with DONE, AUTH_FAIL and ERR clear (40_engine.md R120, R130). -/
structure Invariant (s : State) : Prop where
  memWf : Mem.wf s.mem = true
  tagMin : 1 ≤ s.regs.tagMin.toNat ∧ s.regs.tagMin.toNat ≤ 16
  work : s.work = Work.zero
  idle : s.status.busy = false → s.lp = Latch.cleared ∧ s.seq = none ∧ s.raced = false
  busy : s.status.busy = true → validate s.lp = .ok ∧ s.seq = some ⟨0, 0⟩ ∧ s.status.done = false ∧
    s.status.authFail = false ∧ s.status.err = .ok

/-- The sixteen registers of the window, each at its word offset (10_state.md R42). -/
def windowRegisters : List (BitVec 6 × Reg) :=
  [(0x00, .ctrl), (0x04, .status), (0x08, .cmd), (0x0C, .keyh), (0x10, .ivAddr), (0x14, .ivLen), (0x18, .aadAddr),
    (0x1C, .aadLen), (0x20, .inAddr), (0x24, .outAddr), (0x28, .len), (0x2C, .tagAddr), (0x30, .tagLen), (0x34, .tagMin),
    (0x38, .reserved38), (0x3C, .reserved3C)]

/-- The host's next action is an access to the window of this size at this offset. -/
def WindowAccessNext (s : State) (size : AccessSize) (off : BitVec 6) (rest : List Event) : Prop :=
  (∃ v, s.schedule = .regWrite size off v :: rest) ∨ s.schedule = .regRead size off :: rest

/-- An action of a host that keeps its duties while command `i` runs (20_memory.md R86, 70_reset_and_hazards.md R290, R292):
admitted register accesses but a soft reset, reads of bytes outside the write ranges, writes of bytes outside the used
ranges. -/
def QuietEvent (i : Instr) (lp : Latch) : Event → Prop
  | .engine => False
  | .regWrite size off v => ∃ r, regOfAccess size off = some r ∧ (r = .ctrl → v.getLsbD 1 = false)
  | .regRead size off => ∃ r, regOfAccess size off = some r
  | .memWrite a _ => inRanges (usedRanges i lp) a.toNat = false
  | .memRead a => inRanges (writeRanges i lp) a.toNat = false
  | .reset => False

/-- The two ways the engine is reset: the reset input (70_reset_and_hazards.md R280), and a host write to CTRL with SRST set
(R283). -/
def ResetEvent (e : Event) : Prop := e = .reset ∨ ∃ v : Word, e = .regWrite .word 0x00 v ∧ v.getLsbD 1 = true

/-- The engine's state of the table of 10_state.md R63, as the host and the sequencer see it. -/
structure AtResetValues (t : State) : Prop where
  ctrl : readReg t .ctrl = 0
  status : readReg t .status = 0
  keyh : readReg t .keyh = 0
  ivAddr : readReg t .ivAddr = 0
  ivLen : readReg t .ivLen = 0
  aadAddr : readReg t .aadAddr = 0
  aadLen : readReg t .aadLen = 0
  inAddr : readReg t .inAddr = 0
  outAddr : readReg t .outAddr = 0
  len : readReg t .len = 0
  tagAddr : readReg t .tagAddr = 0
  tagLen : readReg t .tagLen = 0
  tagMin : readReg t .tagMin = 4
  work : t.work = ⟨0, 0, 0, 0, 0, 0, 0, 0⟩
  lp : t.lp = Latch.cleared
  seq : t.seq = none
  idle : inFlight t = none
  irq : t.irq = false

/-- The field's one, `80 00 … 00` (45_ghash.md R190). -/
def gfOne : Block := 0x80000000000000000000000000000000

/-- `H^n` in the field (45_ghash.md R195). -/
def gfPow (h : Block) : Nat → Block
  | 0 => gfOne
  | n + 1 => gfMul (gfPow h n) h

/-- `X_1 • H^m xor X_2 • H^(m-1) xor … xor X_m • H` (45_ghash.md R195). -/
def hornerSum (h : Block) : List Block → Block
  | [] => 0
  | x :: xs => gfMul x (gfPow h (xs.length + 1)) ^^^ hornerSum h xs

/-- The command that undoes a confidentiality command (41_cbc.md R152, 42_cfb.md R162, 43_ofb.md R171, 44_ctr.md R182). -/
def undoing : List (Instr × Instr) :=
  [(.cbcEnc, .cbcDec), (.cfbEnc, .cfbDec), (.ofb, .ofb), (.ctr, .ctr), (.ctrC64, .ctrC64)]

/-- The change from `x` to `y` of the block of the padded strings that holds byte `q` (46_gcm.md R203). -/
def blockChange (x y : Bytes) (q : Nat) : Block :=
  blockOfBytes (((pad16 x).drop (16 * (q / 16))).take 16) ^^^ blockOfBytes (((pad16 y).drop (16 * (q / 16))).take 16)

/-- Two byte strings of one length differ in byte `j` and in no other. -/
def DifferOnlyAt (x y : Bytes) (j : Nat) : Prop :=
  x.length = y.length ∧ j < x.length ∧ x[j]? ≠ y[j]? ∧ ∀ i, i ≠ j → x[i]? = y[i]?

end Sys2Proof.Machine
end

