-- ==== Sys2Proof/WellFormed.lean ====
section
/-! DEFINITION. Which command words are well formed (30_encoding.md R101 to R108), said on the word's number and not
through the decoder. A word that fails a check is an illegal command. -/

namespace Sys2Proof

/-- The opcode is one of 0x01 to 0x0B (R102, R108). -/
def wordOpcodeDefined (v : Word) : Bool :=
  1 ≤ v.toNat % 64 && v.toNat % 64 ≤ 11

/-- Bits 7:6 and 31:10 are zero (R105). -/
def wordReservedZero (v : Word) : Bool :=
  v.toNat / 64 % 4 = 0 && v.toNat / 1024 = 0

/-- CW (bit 8) is zero but on CTR (R103). -/
def wordCwOnlyOnCtr (v : Word) : Bool :=
  v.toNat / 256 % 2 = 0 || v.toNat % 64 = 6

/-- HSRC (bit 9) is zero but on GHASH (R104). -/
def wordHsrcOnlyOnGhash (v : Word) : Bool :=
  v.toNat / 512 % 2 = 0 || v.toNat % 64 = 7

/-- A command word that decodes to a command (R107). -/
def wordWellFormed (v : Word) : Bool :=
  wordOpcodeDefined v && wordReservedZero v && wordCwOnlyOnCtr v && wordHsrcOnlyOnGhash v

/-- Every constructor of `Instr` is well formed: no command has an operand field (R109), and the option bits that are
legal are constructors of their own. -/
def Instr.wellFormed : Instr → Bool
  | .cbcEnc | .cbcDec | .cfbEnc | .cfbDec | .ofb | .ctr | .ctrC64 | .ghash | .ghashHmem
  | .gcmEnc | .gcmDec | .ccmEnc | .ccmDec => true

end Sys2Proof
end

