-- ==== Sys2Proof/Certificates/Slice0/Obligations.lean ====
section
/-! DEFINITION. The statements for the provers. Each docstring names the rules of spec/ it formalises. -/

open Sys2Proof Sys2Proof.Machine

/-! ## Reset -/

/-- 10_state.md R63, 70_reset_and_hazards.md R283: the reset input, or a CTRL write with SRST set, brings every
register, working register and the sequencer to the table of R63 in one step, IRQ low; CTRL.SRST reads 0 before as well;
memory keeps every byte outside the write ranges of the command it aborts. That a cleared `W.LP` is zero in every field
and a cleared `W.SEQ` is none is the model's choice (entries 9, 10). -/
def Obligations.ResetRestoresResetValues : Prop :=
  ∀ (s : State) (e : Event) (rest : List Event), s.schedule = e :: rest → ResetEvent e →
    (readReg s .ctrl).getLsbD 1 = false ∧
    ∃ t, step s = .next t ∧ AtResetValues t ∧ t.schedule = rest ∧ t.hostSaw = s.hostSaw ∧ t.platform = s.platform ∧
      SameOutside (liveWriteRanges s) s t

/-- 70_reset_and_hazards.md R284: a command aborted by reset has no end (DONE and ERR are 0, IRQ is low), every byte of
its write ranges holds a free value, and no other byte of memory changes. The free values are the model's draws (entry
8); that the OUTR of an aborted GCM_DEC or CCM_DEC is free too, which R284 permits, is the model's choice (entry 25). -/
def Obligations.AbortedCommandLeavesFreeBytes : Prop :=
  ∀ (s : State) (e : Event) (rest : List Event) (i : Instr), s.schedule = e :: rest → ResetEvent e →
    Running i s → decode s.lp.cmd = .command i → Mem.wf s.mem = true →
    ∃ t, step s = .next t ∧ t.status.done = false ∧ t.status.err = .ok ∧ t.irq = false ∧
      FreeInside (writeRanges i s.lp) s.draws t ∧ SameOutside (writeRanges i s.lp) s t

/-! ## The step and the decoder -/

/-- A host write of a command word to the CMD of an idle engine runs `exec` of the decoded command, the write taken off
the schedule (40_engine.md R120, 10_state.md R51); `withFetchWord` places such a write. That the host is a schedule of
actions is the model's choice (entry 1). -/
def Obligations.StepRunsWrittenCommandWord : Prop :=
  ∀ (s : State) (v : Word) (i : Instr), s.status.busy = false → decode v = .command i →
    (∀ rest, s.schedule = .regWrite .word 0x08 v :: rest → step s = exec i { s with schedule := rest }) ∧
    step (s.withFetchWord 32 v.toNat) = exec i s

/-- The engine's turn runs `exec` of the latched command, and an idle engine's turn changes nothing (20_memory.md R86,
40_engine.md R146, 60_exceptions.md R274). No rule says when the engine's turn comes: that it comes at a turn of the
schedule, and at every step once the schedule is empty, is the model's choice (entry 2). -/
def Obligations.StepCompletesLatchedCommand : Prop :=
  ∀ s : State,
    (∀ i, s.status.busy = true → decode s.lp.cmd = .command i →
      (s.schedule = [] → step s = exec i s) ∧
      ∀ rest, s.schedule = .engine :: rest → step s = exec i { s with schedule := rest }) ∧
    (s.status.busy = false →
      (s.schedule = [] → step s = .next s) ∧
      ∀ rest, s.schedule = .engine :: rest → step s = .next { s with schedule := rest })

/-- 30_encoding.md R106, R107: the decoder gives back every encoded command, no other word decodes to it, and the words
that decode are exactly those whose opcode is defined, whose reserved bits are zero, with CW only on CTR and HSRC only
on GHASH. -/
def Obligations.DecodeAndEncodeAgree : Prop :=
  (∀ i : Instr, i.wellFormed = true → decode (encode i) = .command i) ∧
  (∀ (v : Word) (i : Instr), decode v = .command i → v = encode i) ∧
  (∀ v : Word, (∃ i, decode v = .command i) ↔ wordWellFormed v = true)

/-- The thirteen command words of 30_encoding.md R106, written out, decode to their commands. -/
def Obligations.CommandWordsDecode : Prop :=
  decode 0x00000001 = .command .cbcEnc ∧ decode 0x00000002 = .command .cbcDec ∧
  decode 0x00000003 = .command .cfbEnc ∧ decode 0x00000004 = .command .cfbDec ∧
  decode 0x00000005 = .command .ofb ∧ decode 0x00000006 = .command .ctr ∧ decode 0x00000106 = .command .ctrC64 ∧
  decode 0x00000007 = .command .ghash ∧ decode 0x00000207 = .command .ghashHmem ∧
  decode 0x00000008 = .command .gcmEnc ∧ decode 0x00000009 = .command .gcmDec ∧
  decode 0x0000000A = .command .ccmEnc ∧ decode 0x0000000B = .command .ccmDec

/-- 60_exceptions.md R251, 30_encoding.md R108: a word with a reserved opcode, a reserved bit, CW off CTR or HSRC off
GHASH, written to an idle engine, ends with code 1 in that step, whatever the registers hold, and memory is untouched.
That a cleared `W.LP` is zero in every field and a cleared `W.SEQ` is none is the model's choice (entries 9, 10). -/
def Obligations.IllegalWordEndsWithErrCmd : Prop :=
  ∀ (s : State) (v : Word) (rest : List Event), s.schedule = .regWrite .word 0x08 v :: rest → s.status.busy = false →
    wordWellFormed v = false →
    ∃ t, step s = .next t ∧ Ended { s with schedule := rest } t .cmd false ∧ errCode t.status.err = 1 ∧
      t.mem = s.mem ∧ t.draws = s.draws

/-! ## Acceptance -/

/-- 40_engine.md R120, R121, R130: an idle engine accepts a command that passes validation: DONE, AUTH_FAIL and ERR are
cleared, the command word and every parameter register are latched, BUSY rises, and nothing else changes. (`seq` is the
position the model gives W.SEQ, entry 10.) -/
def Obligations.AcceptedCommandStarts : Prop :=
  ∀ (i : Instr) (s : State), s.status.busy = false → validateCommand i ⟨s.regs, encode i⟩ = .ok →
    exec i s = .next { s with
      status := ⟨true, false, false, s.status.cmdOvr, .ok⟩, lp := ⟨s.regs, encode i⟩, seq := some ⟨0, 0⟩, raced := false }

/-- 40_engine.md R129: a command that fails validation ends in its accepting step with its error code, BUSY 0, DONE 1
and AUTH_FAIL 0; the working state is scrubbed and no byte of memory changes. That a cleared `W.LP` is zero in every
field and a cleared `W.SEQ` is none is the model's choice (entries 9, 10). -/
def Obligations.RejectedCommandEndsAtAcceptance : Prop :=
  ∀ (i : Instr) (s : State) (e : Err), s.status.busy = false → validateCommand i ⟨s.regs, encode i⟩ = e → e ≠ .ok →
    ∃ t, exec i s = .next t ∧ Ended s t e false ∧ t.mem = s.mem ∧ t.draws = s.draws

/-- 40_engine.md R122, 60_exceptions.md R261: validation reports the first failing check in the order decode, IV length,
tag length, block length, message length, range, overlap, with its code. -/
def Obligations.ValidationReportsFirstError : Prop :=
  ∀ lp : Latch,
    (∀ why, decode lp.cmd = .rejected why → validate lp = .cmd) ∧
    ∀ i, decode lp.cmd = .command i →
      (ivOk i lp = false → validate lp = .ivLen) ∧
      (ivOk i lp = true → tagOk i lp = false → validate lp = .tagLen) ∧
      (ivOk i lp = true → tagOk i lp = true → lenOk i lp = false → validate lp = .len) ∧
      (ivOk i lp = true → tagOk i lp = true → lenOk i lp = true → msgLenOk i lp = false → validate lp = .msgLen) ∧
      (ivOk i lp = true → tagOk i lp = true → lenOk i lp = true → msgLenOk i lp = true → rangesOk i lp = false →
        validate lp = .range) ∧
      (ivOk i lp = true → tagOk i lp = true → lenOk i lp = true → msgLenOk i lp = true → rangesOk i lp = true →
        overlapOk i lp = false → validate lp = .overlap) ∧
      (ivOk i lp = true → tagOk i lp = true → lenOk i lp = true → msgLenOk i lp = true → rangesOk i lp = true →
        overlapOk i lp = true → validate lp = .ok) ∧
      [Err.cmd, .ivLen, .tagLen, .len, .msgLen, .range, .overlap].map errCode = [1, 3, 4, 2, 5, 6, 7]

/-- The table of 40_engine.md R123. -/
def Obligations.IvAndLengthRequirements : Prop :=
  ∀ lp : Latch,
    (∀ i ∈ [Instr.cbcEnc, .cbcDec, .cfbEnc, .cfbDec, .ofb, .ghashHmem],
      (ivOk i lp = true ↔ lp.ivLen = 16) ∧ (lenOk i lp = true ↔ lp.len.toNat % 16 = 0)) ∧
    (∀ i ∈ [Instr.ctr, .ctrC64], (ivOk i lp = true ↔ lp.ivLen = 16) ∧ lenOk i lp = true) ∧
    (ivOk .ghash lp = true ∧ (lenOk .ghash lp = true ↔ lp.len.toNat % 16 = 0)) ∧
    (∀ i ∈ [Instr.gcmEnc, .gcmDec], (ivOk i lp = true ↔ lp.ivLen ≠ 0) ∧ lenOk i lp = true) ∧
    (∀ i ∈ [Instr.ccmEnc, .ccmDec],
      (ivOk i lp = true ↔ 7 ≤ lp.ivLen.toNat ∧ lp.ivLen.toNat ≤ 13) ∧ lenOk i lp = true) ∧
    (lp.len = 0 → ∀ i, lenOk i lp = true)

/-- 40_engine.md R124: the tag lengths GCM and CCM accept; every other command accepts any. -/
def Obligations.TagLengthRequirements : Prop :=
  ∀ lp : Latch,
    (∀ i ∈ [Instr.gcmEnc, .gcmDec],
      (tagOk i lp = true ↔ lp.tagMin.toNat ≤ lp.tagLen.toNat ∧ lp.tagLen.toNat ≤ 16)) ∧
    (∀ i ∈ [Instr.ccmEnc, .ccmDec],
      (tagOk i lp = true ↔ (4 ≤ lp.tagLen.toNat ∧ lp.tagLen.toNat ≤ 16 ∧ lp.tagLen.toNat % 2 = 0) ∧
        lp.tagMin.toNat ≤ lp.tagLen.toNat)) ∧
    (∀ i ∈ [Instr.cbcEnc, .cbcDec, .cfbEnc, .cfbDec, .ofb, .ctr, .ctrC64, .ghash, .ghashHmem], tagOk i lp = true)

/-- 40_engine.md R125: a CCM message must fit its length field of `L = 15 - IV_LEN` bytes; with a 32-bit LEN only L = 2
(limit 65535) and L = 3 (limit 16777215) can fail, and no other command has the check. -/
def Obligations.MessageLengthRequirement : Prop :=
  ∀ lp : Latch,
    (∀ i ∈ [Instr.ccmEnc, .ccmDec], ivOk i lp = true →
      (msgLenOk i lp = true ↔ lp.len.toNat < 2 ^ (8 * (15 - lp.ivLen.toNat))) ∧
      (lp.ivLen = 13 → (msgLenOk i lp = true ↔ lp.len.toNat ≤ 65535)) ∧
      (lp.ivLen = 12 → (msgLenOk i lp = true ↔ lp.len.toNat ≤ 16777215)) ∧
      (lp.ivLen.toNat ≤ 11 → msgLenOk i lp = true)) ∧
    (∀ i ∈ [Instr.cbcEnc, .cbcDec, .cfbEnc, .cfbDec, .ofb, .ctr, .ctrC64, .ghash, .ghashHmem, .gcmEnc, .gcmDec],
      msgLenOk i lp = true)

/-- 40_engine.md R126: the read ranges and the write ranges of every command, by name, base address and byte count, and
the used ranges are these and no others. R127: the range check holds exactly when no used range that is not empty passes
address 0xFFFFFFFF, and a command that passes the earlier checks and fails this one ends with ERR_RANGE (6). -/
def Obligations.UsedRangesAndTheirCheck : Prop :=
  (∀ lp : Latch,
    (∀ i ∈ [Instr.cbcEnc, .cbcDec, .cfbEnc, .cfbDec, .ofb, .ctr, .ctrC64],
      namedReadRanges i lp = [(.iv, ⟨lp.ivAddr.toNat, 16⟩), (.inp, ⟨lp.inAddr.toNat, lp.len.toNat⟩)] ∧
      namedWriteRanges i lp = [(.out, ⟨lp.outAddr.toNat, lp.len.toNat⟩)]) ∧
    (namedReadRanges .ghash lp = [(.inp, ⟨lp.inAddr.toNat, lp.len.toNat⟩)] ∧
      namedWriteRanges .ghash lp = [(.out, ⟨lp.outAddr.toNat, 16⟩)]) ∧
    (namedReadRanges .ghashHmem lp = [(.iv, ⟨lp.ivAddr.toNat, 16⟩), (.inp, ⟨lp.inAddr.toNat, lp.len.toNat⟩)] ∧
      namedWriteRanges .ghashHmem lp = [(.out, ⟨lp.outAddr.toNat, 16⟩)]) ∧
    (∀ i ∈ [Instr.gcmEnc, .ccmEnc],
      namedReadRanges i lp = [(.iv, ⟨lp.ivAddr.toNat, lp.ivLen.toNat⟩), (.aad, ⟨lp.aadAddr.toNat, lp.aadLen.toNat⟩),
        (.inp, ⟨lp.inAddr.toNat, lp.len.toNat⟩)] ∧
      namedWriteRanges i lp = [(.out, ⟨lp.outAddr.toNat, lp.len.toNat⟩), (.tag, ⟨lp.tagAddr.toNat, lp.tagLen.toNat⟩)]) ∧
    (∀ i ∈ [Instr.gcmDec, .ccmDec],
      namedReadRanges i lp = [(.iv, ⟨lp.ivAddr.toNat, lp.ivLen.toNat⟩), (.aad, ⟨lp.aadAddr.toNat, lp.aadLen.toNat⟩),
        (.inp, ⟨lp.inAddr.toNat, lp.len.toNat⟩), (.tag, ⟨lp.tagAddr.toNat, lp.tagLen.toNat⟩)] ∧
      namedWriteRanges i lp = [(.out, ⟨lp.outAddr.toNat, lp.len.toNat⟩)]) ∧
    ∀ i, readRanges i lp = (namedReadRanges i lp).map Prod.snd ∧ writeRanges i lp = (namedWriteRanges i lp).map Prod.snd ∧
      usedRanges i lp = readRanges i lp ++ writeRanges i lp) ∧
  ∀ (i : Instr) (lp : Latch),
    (rangesOk i lp = true ↔ ∀ r ∈ usedRanges i lp, 0 < r.size → r.base + r.size ≤ 2 ^ 32) ∧
    (ivOk i lp = true → tagOk i lp = true → lenOk i lp = true → msgLenOk i lp = true → rangesOk i lp = false →
      validateCommand i lp = .range ∧ errCode .range = 6)

/-- 40_engine.md R128: the overlap check holds exactly when no byte lies both in a read range and in a write range, but
for the pair INR and OUTR at one address in a command that is not GHASH, and OUTR and TAGR of GCM_ENC and CCM_ENC share
no byte; an accepted command passed it, and a command that passes the earlier checks and fails this one ends with
ERR_OVERLAP (7). -/
def Obligations.OverlapCheckForbidsSharedBytes : Prop :=
  ∀ (i : Instr) (lp : Latch),
    (overlapOk i lp = true ↔
      (∀ r ∈ namedReadRanges i lp, ∀ w ∈ namedWriteRanges i lp, ∀ a, r.2.contains a = true → w.2.contains a = true →
        r.1 = .inp ∧ w.1 = .out ∧ lp.inAddr = lp.outAddr ∧ i ≠ .ghash ∧ i ≠ .ghashHmem) ∧
      (i = .gcmEnc ∨ i = .ccmEnc → ∀ a, (outRange lp).contains a = true → (tagRange lp).contains a = false)) ∧
    (validateCommand i lp = .ok → overlapOk i lp = true) ∧
    (ivOk i lp = true → tagOk i lp = true → lenOk i lp = true → msgLenOk i lp = true → rangesOk i lp = true →
      overlapOk i lp = false → validateCommand i lp = .overlap ∧ errCode .overlap = 7)

/-! ## The commands -/

/-- 41_cbc.md R150: CBC_ENC finishes with `C_j = E(k, P_j xor C_{j-1})`, `C_{-1}` the IV, in OUTR; nothing else changes
but STATUS. That a cleared `W.LP` is zero in every field and a cleared `W.SEQ` is none is the model's choice (entries 9,
10). -/
def Obligations.CbcEncWritesChainedCiphertext : Prop :=
  ∀ s : State, Clean .cbcEnc s →
    ∃ t, exec .cbcEnc s = .next t ∧ Finished s t false ∧ SameOutside [outRange s.lp] s t ∧
      ∀ j, 16 * j < s.lp.len.toNat →
        memBlock t.mem (s.lp.outAddr.toNat + 16 * j) =
          encryptBlock s.lp.keyh (memBlock s.mem (s.lp.inAddr.toNat + 16 * j) ^^^
            if j = 0 then memBlock s.mem s.lp.ivAddr.toNat
            else memBlock t.mem (s.lp.outAddr.toNat + 16 * (j - 1)))

/-- 41_cbc.md R151: CBC_DEC finishes with `P_j = D(k, C_j) xor C_{j-1}`, `C_{-1}` the IV, in OUTR, the ciphertext as it
stood before any write; nothing else changes but STATUS. That a cleared `W.LP` is zero in every field and a cleared
`W.SEQ` is none is the model's choice (entries 9, 10). -/
def Obligations.CbcDecWritesPlaintext : Prop :=
  ∀ s : State, Clean .cbcDec s →
    ∃ t, exec .cbcDec s = .next t ∧ Finished s t false ∧ SameOutside [outRange s.lp] s t ∧
      ∀ j, 16 * j < s.lp.len.toNat →
        memBlock t.mem (s.lp.outAddr.toNat + 16 * j) =
          decryptBlock s.lp.keyh (memBlock s.mem (s.lp.inAddr.toNat + 16 * j)) ^^^
            if j = 0 then memBlock s.mem s.lp.ivAddr.toNat
            else memBlock s.mem (s.lp.inAddr.toNat + 16 * (j - 1))

/-- 42_cfb.md R160: CFB_ENC finishes with `C_j = P_j xor E(k, C_{j-1})`, `C_{-1}` the IV, in OUTR; nothing else changes
but STATUS. That a cleared `W.LP` is zero in every field and a cleared `W.SEQ` is none is the model's choice (entries 9,
10). -/
def Obligations.CfbEncWritesFeedbackCiphertext : Prop :=
  ∀ s : State, Clean .cfbEnc s →
    ∃ t, exec .cfbEnc s = .next t ∧ Finished s t false ∧ SameOutside [outRange s.lp] s t ∧
      ∀ j, 16 * j < s.lp.len.toNat →
        memBlock t.mem (s.lp.outAddr.toNat + 16 * j) =
          memBlock s.mem (s.lp.inAddr.toNat + 16 * j) ^^^
            encryptBlock s.lp.keyh (if j = 0 then memBlock s.mem s.lp.ivAddr.toNat
              else memBlock t.mem (s.lp.outAddr.toNat + 16 * (j - 1)))

/-- 42_cfb.md R161: CFB_DEC finishes with `P_j = C_j xor E(k, C_{j-1})`, `C_{-1}` the IV, in OUTR, with E only; nothing
else changes but STATUS. That a cleared `W.LP` is zero in every field and a cleared `W.SEQ` is none is the model's
choice (entries 9, 10). -/
def Obligations.CfbDecWritesPlaintext : Prop :=
  ∀ s : State, Clean .cfbDec s →
    ∃ t, exec .cfbDec s = .next t ∧ Finished s t false ∧ SameOutside [outRange s.lp] s t ∧
      ∀ j, 16 * j < s.lp.len.toNat →
        memBlock t.mem (s.lp.outAddr.toNat + 16 * j) =
          memBlock s.mem (s.lp.inAddr.toNat + 16 * j) ^^^
            encryptBlock s.lp.keyh (if j = 0 then memBlock s.mem s.lp.ivAddr.toNat
              else memBlock s.mem (s.lp.inAddr.toNat + 16 * (j - 1)))

/-- 43_ofb.md R170, R171: OFB finishes with input block `j` xor the (j+1)-fold encryption of the IV in OUTR; nothing
else changes but STATUS. That a cleared `W.LP` is zero in every field and a cleared `W.SEQ` is none is the model's
choice (entries 9, 10). -/
def Obligations.OfbWritesIteratedKeystream : Prop :=
  ∀ s : State, Clean .ofb s →
    ∃ t, exec .ofb s = .next t ∧ Finished s t false ∧ SameOutside [outRange s.lp] s t ∧
      ∀ j, 16 * j < s.lp.len.toNat →
        memBlock t.mem (s.lp.outAddr.toNat + 16 * j) =
          memBlock s.mem (s.lp.inAddr.toNat + 16 * j) ^^^
            (encryptBlock s.lp.keyh)^[j + 1] (memBlock s.mem s.lp.ivAddr.toNat)

/-- 44_ctr.md R180, R181: CTR with a 4-byte counter, and CTR.C64 with an 8-byte counter, finish with every input byte
xored with its byte of `E(k, inc_w(IV, 0)) || E(k, inc_w(IV, 1)) || …` in OUTR, for any length; nothing else changes but
STATUS. That a cleared `W.LP` is zero in every field and a cleared `W.SEQ` is none is the model's choice (entries 9,
10). -/
def Obligations.CtrWritesCounterKeystream : Prop :=
  ∀ p ∈ [(Instr.ctr, 4), (Instr.ctrC64, 8)], ∀ s : State, Clean p.1 s →
    ∃ t, exec p.1 s = .next t ∧ Finished s t false ∧ SameOutside [outRange s.lp] s t ∧
      ∀ j, j < s.lp.len.toNat →
        readByte t.mem (s.lp.outAddr.toNat + j) =
          readByte s.mem (s.lp.inAddr.toNat + j) ^^^
            keystreamByte s.lp.keyh p.2 (memBlock s.mem s.lp.ivAddr.toNat) j

/-- 45_ghash.md R193, R194: GHASH and GHASH.HMEM finish with the Horner fold of the input blocks in the 16 bytes of
OUTR, with H the encryption of the zero block or the block at IV_ADDR; nothing else changes but STATUS. That a cleared
`W.LP` is zero in every field and a cleared `W.SEQ` is none is the model's choice (entries 9, 10). -/
def Obligations.GhashWritesAccumulator : Prop :=
  ∀ i ∈ [Instr.ghash, .ghashHmem], ∀ s : State, Clean i s →
    ∃ t, exec i s = .next t ∧ Finished s t false ∧ SameOutside [outBlockRange s.lp] s t ∧
      memBlock t.mem s.lp.outAddr.toNat =
        ghashBlocks (if i = .ghash then encryptBlock s.lp.keyh 0 else memBlock s.mem s.lp.ivAddr.toNat)
          ((List.range (s.lp.len.toNat / 16)).map fun j => memBlock s.mem (s.lp.inAddr.toNat + 16 * j))

/-- 46_gcm.md R200 to R205: GCM_ENC finishes with the plaintext xor the 4-byte-counter keystream from `inc_4(J0, 1)` in
OUTR and the first TAG_LEN bytes of the authentication value over AAD and that ciphertext in TAGR; nothing else changes
but STATUS. That a cleared `W.LP` is zero in every field and a cleared `W.SEQ` is none is the model's choice (entries 9,
10). -/
def Obligations.GcmEncWritesCiphertextAndTag : Prop :=
  ∀ s : State, Clean .gcmEnc s →
    ∃ t, exec .gcmEnc s = .next t ∧ Finished s t false ∧ SameOutside [outRange s.lp, tagRange s.lp] s t ∧
      (∀ j, j < s.lp.len.toNat →
        readByte t.mem (s.lp.outAddr.toNat + j) =
          readByte s.mem (s.lp.inAddr.toNat + j) ^^^
            keystreamByte s.lp.keyh 4 (incCounter 4 (gcmJ0 s.lp.keyh (ivBytes s)) 1) j) ∧
      memRead t.mem s.lp.tagAddr.toNat s.lp.tagLen.toNat =
        (bytesOfBlock (gcmTagBlock s.lp.keyh (ivBytes s) (aadBytes s)
          (memRead t.mem s.lp.outAddr.toNat s.lp.len.toNat))).take s.lp.tagLen.toNat

/-- 46_gcm.md R206, 40_engine.md R132, R136: GCM_DEC with a tag that does not match finishes with AUTH_FAIL = 1 and
memory unchanged, even where OUTR does not answer; with a tag that matches it finishes with the plaintext in OUTR where
OUTR answers; nothing else changes but STATUS. That a cleared `W.LP` is zero in every field and a cleared `W.SEQ` is
none is the model's choice (entries 9, 10). -/
def Obligations.GcmDecOpensOnlyOnTagMatch : Prop :=
  ∀ s : State, Running .gcmDec s → Undisturbed .gcmDec s → ReadsAnswered .gcmDec s → Mem.wf s.mem = true →
    (tagBufBytes s ≠
        (bytesOfBlock (gcmTagBlock s.lp.keyh (ivBytes s) (aadBytes s) (inBytes s))).take s.lp.tagLen.toNat →
      ∃ t, exec .gcmDec s = .next t ∧ Finished s t true ∧ t.mem = s.mem) ∧
    (tagBufBytes s =
        (bytesOfBlock (gcmTagBlock s.lp.keyh (ivBytes s) (aadBytes s) (inBytes s))).take s.lp.tagLen.toNat →
      WritesAnswered .gcmDec s →
      ∃ t, exec .gcmDec s = .next t ∧ Finished s t false ∧ SameOutside [outRange s.lp] s t ∧
        ∀ j, j < s.lp.len.toNat →
          readByte t.mem (s.lp.outAddr.toNat + j) =
            readByte s.mem (s.lp.inAddr.toNat + j) ^^^
              keystreamByte s.lp.keyh 4 (incCounter 4 (gcmJ0 s.lp.keyh (ivBytes s)) 1) j)

/-- 47_ccm.md R220 to R229: CCM_ENC finishes with the plaintext xor the keystream from `A_1` (an L-byte counter, L = 15
- IV_LEN) in OUTR and the first TAG_LEN bytes of MAC xor `E(k, A_0)` in TAGR; nothing else changes but STATUS. That a
cleared `W.LP` is zero in every field and a cleared `W.SEQ` is none is the model's choice (entries 9, 10). -/
def Obligations.CcmEncWritesCiphertextAndTag : Prop :=
  ∀ s : State, Clean .ccmEnc s →
    ∃ t, exec .ccmEnc s = .next t ∧ Finished s t false ∧ SameOutside [outRange s.lp, tagRange s.lp] s t ∧
      (∀ j, j < s.lp.len.toNat →
        readByte t.mem (s.lp.outAddr.toNat + j) =
          readByte s.mem (s.lp.inAddr.toNat + j) ^^^
            keystreamByte s.lp.keyh (15 - s.lp.ivLen.toNat)
              (incCounter (15 - s.lp.ivLen.toNat) (ccmA0Block (ivBytes s)) 1) j) ∧
      memRead t.mem s.lp.tagAddr.toNat s.lp.tagLen.toNat =
        (bytesOfBlock (ccmTagBlock s.lp.keyh (ivBytes s) (aadBytes s) (inBytes s) s.lp.tagLen.toNat)).take
          s.lp.tagLen.toNat

/-- 47_ccm.md R230, 40_engine.md R132, R136: CCM_DEC decrypts inside, and for a plaintext string `pt` that is the input
xor the keystream from `A_1`: with a tag that does not match that plaintext it finishes with AUTH_FAIL = 1 and memory
unchanged, even where OUTR does not answer; with a tag that matches it finishes with `pt` in OUTR where OUTR answers;
nothing else changes but STATUS. That a cleared `W.LP` is zero in every field and a cleared `W.SEQ` is none is the
model's choice (entries 9, 10). -/
def Obligations.CcmDecOpensOnlyOnTagMatch : Prop :=
  ∀ (s : State) (pt : Bytes), Running .ccmDec s → Undisturbed .ccmDec s → ReadsAnswered .ccmDec s → Mem.wf s.mem = true →
    pt.length = s.lp.len.toNat →
    (∀ j, j < s.lp.len.toNat →
      pt[j]? = some (readByte s.mem (s.lp.inAddr.toNat + j) ^^^
        keystreamByte s.lp.keyh (15 - s.lp.ivLen.toNat)
          (incCounter (15 - s.lp.ivLen.toNat) (ccmA0Block (ivBytes s)) 1) j)) →
    (tagBufBytes s ≠
        (bytesOfBlock (ccmTagBlock s.lp.keyh (ivBytes s) (aadBytes s) pt s.lp.tagLen.toNat)).take s.lp.tagLen.toNat →
      ∃ t, exec .ccmDec s = .next t ∧ Finished s t true ∧ t.mem = s.mem) ∧
    (tagBufBytes s =
        (bytesOfBlock (ccmTagBlock s.lp.keyh (ivBytes s) (aadBytes s) pt s.lp.tagLen.toNat)).take s.lp.tagLen.toNat →
      WritesAnswered .ccmDec s →
      ∃ t, exec .ccmDec s = .next t ∧ Finished s t false ∧ SameOutside [outRange s.lp] s t ∧
        memRead t.mem s.lp.outAddr.toNat s.lp.len.toNat = pt)

/-! ## Bus errors, races and what every command keeps -/

/-- 40_engine.md R132, 60_exceptions.md R258, R262: a running command with an unanswered read byte, or one that would
finish with success but has an unanswered write byte, ends with ERR_BUS, which is code 8, and AUTH_FAIL = 0, its
write-range bytes free and no other byte changed; one that would report a tag mismatch ends so, writing nothing,
whatever its write ranges answer. The free values are the model's draws (entry 8); that a write-range byte which does
not answer is free too is the model's reading of R258 beside R132 (entry 13). (`u` is the end the same command would
have if every byte answered.) That a cleared `W.LP` is zero in every field and a cleared `W.SEQ` is none is the model's
choice (entries 9, 10). -/
def Obligations.UnansweredByteEndsWithErrBus : Prop :=
  ∀ (i : Instr) (s : State), Running i s → Undisturbed i s → Mem.wf s.mem = true →
    (¬ ReadsAnswered i s →
      ∃ t, exec i s = .next t ∧ Ended s t .bus false ∧ errCode t.status.err = 8 ∧
        FreeInside (writeRanges i s.lp) s.draws t ∧ SameOutside (writeRanges i s.lp) s t) ∧
    (ReadsAnswered i s → ∀ u, exec i { s with platform := ⟨[], s.platform.odd⟩ } = .next u →
      (u.status.authFail = false → ¬ WritesAnswered i s →
        ∃ t, exec i s = .next t ∧ Ended s t .bus false ∧ errCode t.status.err = 8 ∧
          FreeInside (writeRanges i s.lp) s.draws t ∧ SameOutside (writeRanges i s.lp) s t) ∧
      (u.status.authFail = true → ∃ t, exec i s = .next t ∧ Finished s t true ∧ t.mem = s.mem))

/-- 20_memory.md R88, 40_engine.md R132: a running command whose used bytes the host wrote ends with free values (the
model's draws, entry 8) in its write ranges and a free AUTH_FAIL, ERR 0 or ERR_BUS, and no other byte changed; ERR is 0
where every used byte answers, ERR_BUS where a read byte does not, and ERR_BUS where a write byte does not and the
command checks no tag, which is every command but GCM_DEC and CCM_DEC; that AUTH_FAIL is free beside ERR_BUS too is the
model's reading (entry 11). 20_memory.md R79, 93_implementation_defined.md U14: of a command that is not raced but uses
a byte which is not ordinary memory only the outputs are open. That all else is as for any command is the model's
reading (entry 12): an unanswered read byte gives ERR_BUS with AUTH_FAIL = 0; AUTH_FAIL is 0 unless the command checks a
tag, is free where such a command read a byte that is not ordinary, and else is what it would be on ordinary memory
(`u`); a mismatch writes nothing; without one the write ranges are free and ERR is 0, or ERR_BUS at an unanswered write
byte. That the write ranges are free at a byte that does not answer is entry 13, and the values of the cleared `W.LP`
and `W.SEQ` are the model's choice (entries 9, 10). -/
def Obligations.DisturbedCommandEndsUnspecified : Prop :=
  (∀ i : Instr, checksTag i = true ↔ i = .gcmDec ∨ i = .ccmDec) ∧
  ∀ (i : Instr) (s : State), Running i s → Mem.wf s.mem = true →
    (s.raced = true →
      ∃ t e, exec i s = .next t ∧ Ended s t e (Config.freeBit s.draws) ∧ (e = .ok ∨ e = .bus) ∧
        (ReadsAnswered i s → WritesAnswered i s → e = .ok) ∧ (¬ ReadsAnswered i s → e = .bus) ∧
        (checksTag i = false → ¬ WritesAnswered i s → e = .bus) ∧
        FreeInside (writeRanges i s.lp) s.draws t ∧ SameOutside (writeRanges i s.lp) s t) ∧
    (s.raced = false → OddByte (usedRanges i s.lp) s →
      (¬ ReadsAnswered i s →
        ∃ t, exec i s = .next t ∧ Ended s t .bus false ∧ FreeInside (writeRanges i s.lp) s.draws t ∧
          SameOutside (writeRanges i s.lp) s t) ∧
      (ReadsAnswered i s → ∀ (u : State) (af : Bool), exec i { s with platform := ⟨[], []⟩ } = .next u →
        (checksTag i = false → af = false) →
        (checksTag i = true → OddByte (readRanges i s.lp) s → af = Config.freeBit s.draws) →
        (checksTag i = true → ¬ OddByte (readRanges i s.lp) s → af = u.status.authFail) →
        (af = true → ∃ t, exec i s = .next t ∧ Ended s t .ok true ∧ t.mem = s.mem) ∧
        (af = false →
          ∃ t, exec i s = .next t ∧ (WritesAnswered i s → Ended s t .ok false) ∧
            (¬ WritesAnswered i s → Ended s t .bus false) ∧ FreeInside (writeRanges i s.lp) s.draws t ∧
            SameOutside (writeRanges i s.lp) s t)))

/-- 20_memory.md R80, R81: whatever the outcome, a command's completion changes no byte outside its write ranges, and
its acceptance changes no byte at all. -/
def Obligations.EngineWritesOnlyWriteRanges : Prop :=
  ∀ (i : Instr) (s t : State), exec i s = .next t →
    (s.status.busy = true → SameOutside (writeRanges i s.lp) s t) ∧ (s.status.busy = false → t.mem = s.mem)

/-- 10_state.md R65, 40_engine.md R120, R139: neither the acceptance nor any end of a command changes a parameter
register, CTRL.IE, CMD_OVR, the platform, or what belongs to the host. -/
def Obligations.CommandsLeaveRegistersAlone : Prop :=
  ∀ (i : Instr) (s t : State), exec i s = .next t →
    t.regs = s.regs ∧ t.ie = s.ie ∧ t.status.cmdOvr = s.status.cmdOvr ∧ t.platform = s.platform ∧
      t.schedule = s.schedule ∧ t.hostSaw = s.hostSaw

/-- 40_engine.md R140, R141, 10_state.md R30: whenever a command has ended, DONE is 1 and IRQ equals CTRL.IE, every
working register is zero and `W.LP` and `W.SEQ` are cleared; a completion always ends the command. That a cleared `W.LP`
is zero in every field and a cleared `W.SEQ` is none is the model's choice (entries 9, 10). -/
def Obligations.EveryEndScrubsAndRaisesDone : Prop :=
  ∀ (i : Instr) (s t : State), exec i s = .next t →
    (s.status.busy = true → t.status.busy = false) ∧
    (t.status.busy = false →
      t.status.done = true ∧ t.irq = s.ie ∧ t.work = ⟨0, 0, 0, 0, 0, 0, 0, 0⟩ ∧ t.lp = Latch.cleared ∧ t.seq = none)

/-- 10_state.md R48, R60, 60_exceptions.md R259, 40_engine.md R136: a command whose used bytes the host did not write
and that ends with AUTH_FAIL = 1 is GCM_DEC or CCM_DEC, has ERR = 0 and has written no byte of memory, and the tag it
was given differs from the tag it computes. That such an end writes no byte also where a used byte, the output buffer
among them, is not ordinary memory is the model's reading beside 20_memory.md R79 and 93_implementation_defined.md U14
(entry 12). The last clause is about ordinary memory: where such a command reads a byte that is not, it compares values
the spec leaves open (entry 12). -/
def Obligations.AuthFailMeansMismatchAndNothingWritten : Prop :=
  ∀ (i : Instr) (s t : State), Running i s → s.raced = false → exec i s = .next t →
    t.status.authFail = false ∨
      ((i = .gcmDec ∨ i = .ccmDec) ∧ t.status.err = .ok ∧ t.mem = s.mem ∧
        (¬ OddByte (readRanges i s.lp) s →
          (i = .gcmDec → tagBufBytes s ≠ gcmTag s) ∧
          (i = .ccmDec → ∀ pt, CcmOpensTo s pt → tagBufBytes s ≠ ccmTagFor s pt)))

/-- 40_engine.md R131, R148: two undisturbed runs of one command with the same latched parameters and the same bytes in
its read ranges, on platforms that answer every used byte, end with the same ERR and AUTH_FAIL, and, where they write,
with the same bytes in the write ranges, whatever else the two machines hold. -/
def Obligations.ResultDependsOnlyOnOperands : Prop :=
  ∀ (i : Instr) (s₁ s₂ t₁ t₂ : State), Clean i s₁ → Clean i s₂ → s₁.lp = s₂.lp →
    (∀ a, inRanges (readRanges i s₁.lp) a = true → readByte s₁.mem a = readByte s₂.mem a) →
    exec i s₁ = .next t₁ → exec i s₂ = .next t₂ →
    t₁.status.err = t₂.status.err ∧ t₁.status.authFail = t₂.status.authFail ∧
      (t₁.status.authFail = false →
        ∀ a, inRanges (writeRanges i s₁.lp) a = true → readByte t₁.mem a = readByte t₂.mem a)

/-- 20_memory.md R86: for a host that keeps its duties, whatever it does between a command's acceptance and the engine's
turn, the command ends as it would have ended at once: same ERR and AUTH_FAIL, and the same bytes in every range it
uses. For a command that ends in free values (raced, with a used byte that is not ordinary memory, or with ERR_BUS) R79,
R88 and 40_engine.md R132 leave any value: that the free bytes and the free AUTH_FAIL of the two ends are equal is the
model's choice, whose free values are functions of the draw count (entry 8). -/
def Obligations.CompletionIsOneAtomicTransition : Prop :=
  ∀ (i : Instr) (s u : State) (es rest : List Event), Running i s → decode s.lp.cmd = .command i → Mem.wf s.mem = true →
    s.schedule = es ++ .engine :: rest → (∀ e ∈ es, QuietEvent i s.lp e) → exec i s = .next u →
    ∃ t, Host.Core.run Sys2Proof.core (es.length + 1) s = .next t ∧ t.schedule = rest ∧ t.status.busy = false ∧
      t.status.err = u.status.err ∧ t.status.authFail = u.status.authFail ∧
      ∀ a, inRanges (usedRanges i s.lp) a = true → readByte t.mem a = readByte u.mem a

/-- 40_engine.md R146, 70_reset_and_hazards.md R298: from every state of the invariant in which a command runs, the
engine is idle again within one step more than the host's remaining actions, whatever those are. R146 and R298 give no
number: that the engine moves at the latest when the schedule is empty, and so the bound, is the model's choice (entry
2). That a cleared `W.LP` is zero in every field and a cleared `W.SEQ` is none is the model's choice (entries 9, 10). -/
def Obligations.EveryAcceptedCommandEnds : Prop :=
  ∀ s : State, Invariant s → s.status.busy = true →
    ∃ (n : Nat) (t : State), n ≤ s.schedule.length + 1 ∧ Host.Core.run Sys2Proof.core n s = .next t ∧
      t.status.busy = false

/-! ## The invariant -/

/-- The invariant holds right after reset (10_state.md R63, R30, R57). That a cleared `W.LP` is zero in every field and
a cleared `W.SEQ` is none is the model's choice (entries 9, 10). -/
def Obligations.ResetStateSatisfiesInvariant : Prop := Invariant State.reset

/-- Every step keeps the invariant: canonical memory, TAGMIN 1 to 16 (10_state.md R57), working registers zero between
steps (R30), an idle engine scrubbed (40_engine.md R141), a busy engine holding a validated command with DONE, AUTH_FAIL
and ERR clear (R120, R130). That a cleared `W.LP` is zero in every field and a cleared `W.SEQ` is none is the model's
choice (entries 9, 10). -/
def Obligations.EveryStepKeepsInvariant : Prop :=
  ∀ s t : State, Invariant s → step s = .next t → Invariant t

/-- 20_memory.md R76: a byte, halfword or misaligned access to the window gets no step: with the engine idle the machine
stops there, and with a command running the step is the engine's turn, the access left on the schedule. From a state of
the invariant the machine stops nowhere else, and no step is ever refused. That a running command goes on past a stuck
host is the model's reading (entry 14); that a cleared `W.LP` is zero in every field and a cleared `W.SEQ` is none is
the model's choice (entries 9, 10). -/
def Obligations.StopsExactlyAtAccessesNotAdmitted : Prop :=
  (∀ (s : State) (size : AccessSize) (off : BitVec 6) (rest : List Event), WindowAccessNext s size off rest →
    size ≠ .word ∨ off.toNat % 4 ≠ 0 →
    (s.status.busy = false → step s = .fault .windowAccessNotAdmitted) ∧
    (∀ i, s.status.busy = true → decode s.lp.cmd = .command i → step s = exec i s)) ∧
  (∀ (s : State) (f : Fault), Invariant s → step s = .fault f →
    f = .windowAccessNotAdmitted ∧ s.status.busy = false ∧
      ∃ size off rest, WindowAccessNext s size off rest ∧ (size ≠ .word ∨ off.toNat % 4 ≠ 0)) ∧
  ∀ (s : State) (r : Refusal), step s ≠ .refused r

/-! ## The host's accesses -/

/-- 40_engine.md R147: a CMD write while a command runs sets CMD_OVR and changes nothing else. -/
def Obligations.CommandWriteWhileBusyIsDropped : Prop :=
  ∀ (s : State) (v : Word) (rest : List Event), s.schedule = .regWrite .word 0x08 v :: rest → s.status.busy = true →
    step s = .next { s with schedule := rest, status := { s.status with cmdOvr := true } }

/-- 10_state.md R42, R59, R52 to R56, 20_memory.md R76, 70_reset_and_hazards.md R299: a word read at each of the sixteen
offsets shows the host that register's value and changes nothing else; a write to a 32-bit parameter register takes
effect at once and is read back, busy or not, and leaves the running command, STATUS, the other registers and memory
alone. (`hostSaw` is the model's field for what the host's last read returned, entry 16.) -/
def Obligations.RegisterAccessTakesEffectAtOnce : Prop :=
  (∀ (s : State) (off : BitVec 6) (r : Reg) (rest : List Event), (off, r) ∈ windowRegisters →
    s.schedule = .regRead .word off :: rest →
    step s = .next { s with schedule := rest, hostSaw := some (.word (readReg s r)) }) ∧
  ∀ (s : State) (v : Word) (off : BitVec 6) (rest : List Event) (r : Reg),
    (off, r) ∈ [((0x0C : BitVec 6), Reg.keyh), (0x10, .ivAddr), (0x14, .ivLen), (0x18, .aadAddr), (0x1C, .aadLen),
      (0x20, .inAddr), (0x24, .outAddr), (0x28, .len), (0x2C, .tagAddr), (0x30, .tagLen)] →
    s.schedule = .regWrite .word off v :: rest →
    ∃ t, step s = .next t ∧ readReg t r = v ∧ (∀ q, q ≠ r → readReg t q = readReg s q) ∧ t = { s with
      schedule := rest, regs := t.regs }

/-- 10_state.md R57: TAGMIN takes a written value from 1 to 16 and ignores any other, so that it stays within 1 to 16;
its bits 31:5 read 0, and it is 4 after reset. -/
def Obligations.TagMinTakesOnlyLegalValues : Prop :=
  readReg State.reset .tagMin = 4 ∧
  ∀ (s : State) (v : Word) (rest : List Event), s.schedule = .regWrite .word 0x34 v :: rest →
    ∃ t, step s = .next t ∧ t = { s with schedule := rest, regs := { s.regs with tagMin := t.regs.tagMin } } ∧
      (1 ≤ v.toNat ∧ v.toNat ≤ 16 → readReg t .tagMin = v) ∧
      (¬ (1 ≤ v.toNat ∧ v.toNat ≤ 16) → readReg t .tagMin = readReg s .tagMin) ∧
      (1 ≤ s.regs.tagMin.toNat ∧ s.regs.tagMin.toNat ≤ 16 → 1 ≤ t.regs.tagMin.toNat ∧ t.regs.tagMin.toNat ≤ 16) ∧
      readReg t .tagMin >>> 5 = 0

/-- 10_state.md R45: a STATUS write clears DONE where bit 1 is set and CMD_OVR where bit 3 is set, and changes nothing
else; a STATUS read has no side effect. -/
def Obligations.StatusWriteClearsByOnes : Prop :=
  (∀ (s : State) (v : Word) (rest : List Event), s.schedule = .regWrite .word 0x04 v :: rest →
    step s = .next { s with
      schedule := rest
      status := { s.status with
        done := if v.getLsbD 1 then false else s.status.done
        cmdOvr := if v.getLsbD 3 then false else s.status.cmdOvr } }) ∧
  (∀ (s : State) (rest : List Event), s.schedule = .regRead .word 0x04 :: rest →
    step s = .next { s with schedule := rest, hostSaw := some (.word (readReg s .status)) })

/-- 10_state.md R58: offsets 0x38 and 0x3C, CMD, and the reserved bits of CTRL and STATUS read 0; a write to 0x38 or
0x3C changes nothing, and a write to CTRL or STATUS does not depend on the bits written to the reserved places. -/
def Obligations.ReservedPlacesReadZero : Prop :=
  ∀ s : State,
    (∀ off ∈ [(0x38 : BitVec 6), 0x3C, 0x08], ∀ rest, s.schedule = .regRead .word off :: rest →
      step s = .next { s with schedule := rest, hostSaw := some (.word 0) }) ∧
    (∀ off ∈ [(0x38 : BitVec 6), 0x3C], ∀ v rest, s.schedule = .regWrite .word off v :: rest →
      step s = .next { s with schedule := rest }) ∧
    readReg s .ctrl >>> 1 = 0 ∧ (readReg s .status).extractLsb' 4 4 = 0 ∧ readReg s .status >>> 12 = 0 ∧
    (∀ v w : Word, v.extractLsb' 0 2 = w.extractLsb' 0 2 → ∀ rest,
      (s.schedule = .regWrite .word 0x00 v :: rest →
        step s = step { s with schedule := .regWrite .word 0x00 w :: rest })) ∧
    (∀ v w : Word, v.extractLsb' 0 4 = w.extractLsb' 0 4 → v.extractLsb' 8 4 = w.extractLsb' 8 4 → ∀ rest,
      (s.schedule = .regWrite .word 0x04 v :: rest →
        step s = step { s with schedule := .regWrite .word 0x04 w :: rest }))

/-- 10_state.md R44: where each field of STATUS stands in the value read; 60_exceptions.md R250: the codes of ERR, 0 to
8, and no other is produced. -/
def Obligations.StatusFieldsStandInTheirBits : Prop :=
  [Err.ok, .cmd, .len, .ivLen, .tagLen, .msgLen, .range, .overlap, .bus].map errCode = [0, 1, 2, 3, 4, 5, 6, 7, 8] ∧
  ∀ s : State,
    (errCode s.status.err).toNat ≤ 8 ∧
    (readReg s .status).getLsbD 0 = s.status.busy ∧ (readReg s .status).getLsbD 1 = s.status.done ∧
    (readReg s .status).getLsbD 2 = s.status.authFail ∧ (readReg s .status).getLsbD 3 = s.status.cmdOvr ∧
    (readReg s .status).extractLsb' 8 4 = errCode s.status.err

/-- 10_state.md R61, R43: a CTRL write without SRST sets IE to bit 0 at once and nothing else, and IRQ is then high
exactly when DONE is; IRQ is always IE AND DONE; and IE is bit 0 of the value read from CTRL. -/
def Obligations.InterruptLineFollowsEnableAndDone : Prop :=
  (∀ s : State, (s.irq = true ↔ s.ie = true ∧ s.status.done = true) ∧ (readReg s .ctrl).getLsbD 0 = s.ie) ∧
  ∀ (s : State) (v : Word) (rest : List Event), s.schedule = .regWrite .word 0x00 v :: rest → v.getLsbD 1 = false →
    ∃ t, step s = .next t ∧ t = { s with schedule := rest, ie := v.getLsbD 0 } ∧
      t.irq = (v.getLsbD 0 && s.status.done) ∧ (readReg t .ctrl).getLsbD 0 = v.getLsbD 0

/-- 20_memory.md R87, R88, 70_reset_and_hazards.md R290: a host write of a byte is read back and changes no other byte,
and marks the running command raced exactly when the byte is one it uses; a host read of a write-range byte of the
running command returns a free value (the model's draw, entry 8), any other read returns the byte, and neither disturbs
the command; an idle engine uses no byte. That both succeed also at a byte with `BusOK = false` (entry 24) and treat a
byte that is not ordinary memory like any other (entry 26) is the model's choice. -/
def Obligations.HostMemoryAccess : Prop :=
  (∀ s : State,
    (∀ i, s.status.busy = true → decode s.lp.cmd = .command i →
      liveUsedRanges s = usedRanges i s.lp ∧ liveWriteRanges s = writeRanges i s.lp) ∧
    (s.status.busy = false → liveUsedRanges s = [] ∧ liveWriteRanges s = [])) ∧
  (∀ (s : State) (a : Word) (b : Byte) (rest : List Event), s.schedule = .memWrite a b :: rest → Mem.wf s.mem = true →
    ∃ t, step s = .next t ∧ readByte t.mem a.toNat = b ∧ (∀ c, c ≠ a.toNat → readByte t.mem c = readByte s.mem c) ∧
      t = { s with schedule := rest, mem := t.mem, raced := s.raced || inRanges (liveUsedRanges s) a.toNat }) ∧
  (∀ (s : State) (a : Word) (rest : List Event), s.schedule = .memRead a :: rest →
    ∃ t b, step s = .next t ∧ t = { s with schedule := rest, hostSaw := some (.byte b), draws := t.draws } ∧
      (inRanges (liveWriteRanges s) a.toNat = true → b = Config.freeByte s.draws a.toNat) ∧
      (inRanges (liveWriteRanges s) a.toNat = false → b = readByte s.mem a.toNat))

/-! ## Counters, the field, byte strings -/

/-- 40_engine.md R142, R143: `inc_w` adds `i` to the low `w` bytes modulo `2^(8w)`; its four properties, and its
example. -/
def Obligations.CounterIncrementLaws : Prop :=
  (∀ (w : Nat) (cb : Block), 1 ≤ w → w ≤ 16 →
    (∀ i, (incCounter w cb i).toNat % 2 ^ (8 * w) = (cb.toNat % 2 ^ (8 * w) + i) % 2 ^ (8 * w)) ∧
    (∀ i j, j < 16 - w → blockByte (incCounter w cb i) j = blockByte cb j) ∧
    incCounter w cb 0 = cb ∧
    (∀ i j, incCounter w (incCounter w cb i) j = incCounter w cb (i + j)) ∧
    incCounter w cb (2 ^ (8 * w)) = cb) ∧
  incCounter 4 0x00112233445566778899aabbffffffff 1 = 0x00112233445566778899aabb00000000 ∧
  incCounter 8 0x00112233445566778899aabbffffffff 1 = 0x00112233445566778899aabc00000000

/-- 45_ghash.md R192: `gfmul` is commutative and associative, distributes over xor, has `80 00…00` as its identity and
the zero block as its zero, and `x • x^127` is `E1 00…00`; and multiplying by `x` is R191's step, a right shift and,
where the coefficient of `x^127` was 1, an xor of `E1 00…00`, which with these laws fixes every product. -/
def Obligations.FieldMultiplicationLaws : Prop :=
  (∀ x y : Block, gfMul x y = gfMul y x) ∧
  (∀ x y z : Block, gfMul (gfMul x y) z = gfMul x (gfMul y z)) ∧
  (∀ x y z : Block, gfMul x (y ^^^ z) = gfMul x y ^^^ gfMul x z) ∧
  (∀ y : Block, gfMul 0x80000000000000000000000000000000 y = y) ∧
  (∀ y : Block, gfMul 0 y = 0) ∧
  (∀ y : Block, gfMul 0x40000000000000000000000000000000 y =
    if y.getLsbD 0 then (y >>> 1) ^^^ 0xE1000000000000000000000000000000 else y >>> 1) ∧
  gfMul 0x40000000000000000000000000000000 0x00000000000000000000000000000001 = 0xE1000000000000000000000000000000 ∧
  gfMul 0x0388dace60b6a392f328c2b971b2fe78 0x66e94bd4ef8a2c3b884cfa59ca342b2e = 0x5e2ec746917062882c85b0685353deb7

/-- 45_ghash.md R195: GHASH of the xor of two block-aligned strings of one length is the xor of their GHASHes, and GHASH
is the polynomial `X_1 • H^m xor … xor X_m • H`. -/
def Obligations.GhashIsLinearAndPolynomial : Prop :=
  (∀ (h : Block) (x y : Bytes), x.length = y.length → x.length % 16 = 0 →
    ghashBlocks h (blocksOf (xorBytes x y)) = ghashBlocks h (blocksOf x) ^^^ ghashBlocks h (blocksOf y)) ∧
  ∀ (h : Block) (xs : List Block), ghashBlocks h xs = hornerSum h xs

/-- 46_gcm.md R207 item 3: changing one byte of the ciphertext or of the AAD changes the authentication value by `delta
• H^j`, where `delta` is the change of its block of the padded string and is not zero, and `j` counts the blocks of the
GHASH input from that block on; and of two GCM_DEC that differ in such a byte only, when the first is accepted the
second reports AUTH_FAIL = 1 exactly when the first `t` bytes of `delta • H^j` are not zero, which for `t = 16` is so
whenever `H` is not zero. -/
def Obligations.TamperingShiftsGcmTag : Prop :=
  (∀ (k : Word) (iv x y z : Bytes) (q : Nat), DifferOnlyAt x y q →
    blockChange x y q ≠ 0 ∧
    gcmTagBlock k iv z y = gcmTagBlock k iv z x ^^^
      gfMul (blockChange x y q) (gfPow (encryptBlock k 0) (blockCount x.length - q / 16 + 1)) ∧
    gcmTagBlock k iv y z = gcmTagBlock k iv x z ^^^
      gfMul (blockChange x y q) (gfPow (encryptBlock k 0) (blockCount x.length - q / 16 + blockCount z.length + 1))) ∧
  ∀ (s₁ s₂ t₁ t₂ : State) (q j : Nat) (delta : Block), Clean .gcmDec s₁ → Clean .gcmDec s₂ → s₂.lp.keyh = s₁.lp.keyh →
    s₂.lp.tagLen = s₁.lp.tagLen → ivBytes s₂ = ivBytes s₁ → tagBufBytes s₂ = tagBufBytes s₁ →
    (aadBytes s₂ = aadBytes s₁ ∧ DifferOnlyAt (inBytes s₁) (inBytes s₂) q ∧
        delta = blockChange (inBytes s₁) (inBytes s₂) q ∧ j = blockCount s₁.lp.len.toNat - q / 16 + 1 ∨
      inBytes s₂ = inBytes s₁ ∧ DifferOnlyAt (aadBytes s₁) (aadBytes s₂) q ∧
        delta = blockChange (aadBytes s₁) (aadBytes s₂) q ∧
        j = blockCount s₁.lp.aadLen.toNat - q / 16 + blockCount s₁.lp.len.toNat + 1) →
    exec .gcmDec s₁ = .next t₁ → exec .gcmDec s₂ = .next t₂ → t₁.status.authFail = false →
    (t₂.status.authFail = true ↔
      (bytesOfBlock (gfMul delta (gfPow (encryptBlock s₁.lp.keyh 0) j))).take s₁.lp.tagLen.toNat ≠
        zeroBytes s₁.lp.tagLen.toNat) ∧
    (s₁.lp.tagLen = 16 → encryptBlock s₁.lp.keyh 0 ≠ 0 → t₂.status.authFail = true)

/-- 00_scope.md R12: the bytes of `BE_n(v)`, the sum that `int_BE` is, and that each undoes the other. R11: `pad16`
appends the fewest zero bytes that fill the last block; `blocks` cuts a string into its 16-byte blocks; the bytes of a
block are those it was made of; `xor` acts byte by byte. -/
def Obligations.ByteStringConversions : Prop :=
  (∀ n v, (beBytes n v).length = n ∧ intBE (beBytes n v) = v % 2 ^ (8 * n) ∧
    ∀ i, i < n → (beBytes n v)[i]? = some (BitVec.ofNat 8 (v / 2 ^ (8 * (n - 1 - i))))) ∧
  (∀ s : Bytes, beBytes s.length (intBE s) = s ∧
    intBE s = ((List.range s.length).map fun i => (s.getD i 0).toNat * 2 ^ (8 * (s.length - 1 - i))).sum) ∧
  (∀ s : Bytes, (pad16 s).length % 16 = 0 ∧ ∃ n, n < 16 ∧ pad16 s = s ++ List.replicate n 0) ∧
  (∀ s : Bytes, s.length % 16 = 0 → (blocksOf s).length = s.length / 16 ∧
    ∀ j, j < s.length / 16 → (blocksOf s)[j]? = some (blockOfBytes ((s.drop (16 * j)).take 16))) ∧
  (∀ s : Bytes, s.length = 16 → bytesOfBlock (blockOfBytes s) = s ∧
    ∀ i, i < 16 → s[i]? = some (blockByte (blockOfBytes s) i)) ∧
  ∀ a b : Bytes, a.length = b.length → (xorBytes a b).length = a.length ∧
    ∀ i, i < a.length → (xorBytes a b)[i]? = some (a.getD i 0 ^^^ b.getD i 0)

/-- 20_memory.md R72, R73: `MemRead` gives the bytes in address order; `MemWrite` sets exactly the bytes of its range,
and memory stays canonical. R74: byte `i` of the block at `a` is the byte at `a + i`. -/
def Obligations.MemoryReadsBackWrites : Prop :=
  (∀ (m : Mem) (a n : Nat), (memRead m a n).length = n ∧ ∀ i, i < n → (memRead m a n)[i]? = some (readByte m (a + i))) ∧
  (∀ (m : Mem) (a i : Nat), i < 16 → blockByte (memBlock m a) i = readByte m (a + i)) ∧
  ∀ (m : Mem) (a : Nat) (bs : Bytes), Mem.wf m = true → a + bs.length ≤ 2 ^ 32 →
    Mem.wf (memWrite m a bs) = true ∧
    (∀ i, i < bs.length → some (readByte (memWrite m a bs) (a + i)) = bs[i]?) ∧
    (∀ c, c < a ∨ a + bs.length ≤ c → readByte (memWrite m a bs) c = readByte m c) ∧ memWrite m a [] = m

/-- The formats of CCM, for a nonce of 7 to 13 bytes and `L = 15 - n` (47_ccm.md R220). R226: `A_i` is the byte L - 1,
the nonce and the L-byte big-endian `i`, for every counter value the data of an accepted message uses. R221, R222: `B0`
is 16 bytes, the flags byte `64 * Adata + 8 * ((t - 2) / 2) + (L - 1)`, the nonce and the L-byte message length, for
every tag length CCM accepts. R223: the AAD length stands in 2 bytes below 0xFF00, in `FF FE` and 4 bytes below 2^32,
and in `FF FF` and 8 bytes from there on. R224: the AAD blocks are the length encoding and the AAD with one padding of
fewer than 16 zero bytes to whole blocks, and nothing where there is no AAD. -/
def Obligations.CcmBlockFormats : Prop :=
  (∀ (nonce : Bytes) (m i : Nat), 7 ≤ nonce.length → nonce.length ≤ 13 → m < 2 ^ (8 * (15 - nonce.length)) →
    i ≤ blockCount m →
    incCounter (15 - nonce.length) (ccmA0Block nonce) i =
      blockOfBytes (BitVec.ofNat 8 (15 - nonce.length - 1) :: nonce ++ beBytes (15 - nonce.length) i)) ∧
  (∀ (nonce : Bytes) (a m t : Nat), 7 ≤ nonce.length → nonce.length ≤ 13 → m < 2 ^ (8 * (15 - nonce.length)) →
    t ∈ [4, 6, 8, 10, 12, 14, 16] →
    (ccmB0 nonce a m t).length = 16 ∧
    ∃ flags : Byte, ccmB0 nonce a m t = flags :: nonce ++ beBytes (15 - nonce.length) m ∧
      flags.toNat = 64 * (if 0 < a then 1 else 0) + 8 * ((t - 2) / 2) + (15 - nonce.length - 1)) ∧
  (∀ a : Nat, 0 < a →
    (a < 0xFF00 → ccmAadLen a = beBytes 2 a) ∧
    (0xFF00 ≤ a → a < 2 ^ 32 → ccmAadLen a = 0xFF :: 0xFE :: beBytes 4 a) ∧
    (2 ^ 32 ≤ a → ccmAadLen a = 0xFF :: 0xFF :: beBytes 8 a)) ∧
  (ccmAadBlocks [] = [] ∧
    ∀ aad : Bytes, 0 < aad.length → (ccmAadBlocks aad).length % 16 = 0 ∧
      ∃ n, n < 16 ∧ ccmAadBlocks aad = ccmAadLen aad.length ++ aad ++ List.replicate n 0)

/-! ## The properties of the modes -/

/-- 41_cbc.md R152 item 1, 42_cfb.md R162 item 1, 43_ofb.md R171 item 1, 44_ctr.md R182 item 1: CBC_DEC of CBC_ENC,
CFB_DEC of CFB_ENC, and OFB, CTR and CTR.C64 applied twice return the input, for the same key handle and IV, wherever
the buffers lie. That a cleared `W.LP` is zero in every field and a cleared `W.SEQ` is none is the model's choice
(entries 9, 10). -/
def Obligations.ConfidentialityModesRoundTrip : Prop :=
  ∀ p ∈ undoing, ∀ s₁ s₂ t₁ : State, Clean p.1 s₁ → Clean p.2 s₂ → s₂.lp.keyh = s₁.lp.keyh → ivBytes s₂ = ivBytes s₁ →
    s₂.lp.len = s₁.lp.len → exec p.1 s₁ = .next t₁ →
    inBytes s₂ = memRead t₁.mem s₁.lp.outAddr.toNat s₁.lp.len.toNat →
    ∃ t₂, exec p.2 s₂ = .next t₂ ∧ Finished s₂ t₂ false ∧
      memRead t₂.mem s₂.lp.outAddr.toNat s₂.lp.len.toNat = inBytes s₁

/-- 46_gcm.md R207 item 1: GCM_DEC of GCM_ENC's ciphertext and tag, with the same key handle, IV, AAD and tag length,
finishes with AUTH_FAIL = 0 and the plaintext in OUTR. That a cleared `W.LP` is zero in every field and a cleared
`W.SEQ` is none is the model's choice (entries 9, 10). -/
def Obligations.GcmRoundTrip : Prop :=
  ∀ s₁ s₂ t₁ : State, Clean .gcmEnc s₁ → Clean .gcmDec s₂ → s₂.lp.keyh = s₁.lp.keyh → ivBytes s₂ = ivBytes s₁ →
    aadBytes s₂ = aadBytes s₁ → s₂.lp.len = s₁.lp.len → s₂.lp.tagLen = s₁.lp.tagLen → exec .gcmEnc s₁ = .next t₁ →
    inBytes s₂ = memRead t₁.mem s₁.lp.outAddr.toNat s₁.lp.len.toNat →
    tagBufBytes s₂ = memRead t₁.mem s₁.lp.tagAddr.toNat s₁.lp.tagLen.toNat →
    ∃ t₂, exec .gcmDec s₂ = .next t₂ ∧ Finished s₂ t₂ false ∧
      memRead t₂.mem s₂.lp.outAddr.toNat s₂.lp.len.toNat = inBytes s₁

/-- 47_ccm.md R231 item 1: CCM_DEC of CCM_ENC's ciphertext and tag, with the same key handle, nonce, AAD and tag length,
finishes with AUTH_FAIL = 0 and the plaintext in OUTR. That a cleared `W.LP` is zero in every field and a cleared
`W.SEQ` is none is the model's choice (entries 9, 10). -/
def Obligations.CcmRoundTrip : Prop :=
  ∀ s₁ s₂ t₁ : State, Clean .ccmEnc s₁ → Clean .ccmDec s₂ → s₂.lp.keyh = s₁.lp.keyh → ivBytes s₂ = ivBytes s₁ →
    aadBytes s₂ = aadBytes s₁ → s₂.lp.len = s₁.lp.len → s₂.lp.tagLen = s₁.lp.tagLen → exec .ccmEnc s₁ = .next t₁ →
    inBytes s₂ = memRead t₁.mem s₁.lp.outAddr.toNat s₁.lp.len.toNat →
    tagBufBytes s₂ = memRead t₁.mem s₁.lp.tagAddr.toNat s₁.lp.tagLen.toNat →
    ∃ t₂, exec .ccmDec s₂ = .next t₂ ∧ Finished s₂ t₂ false ∧
      memRead t₂.mem s₂.lp.outAddr.toNat s₂.lp.len.toNat = inBytes s₁

/-- 41_cbc.md R152 item 3: two CBC_ENC commands with the same key handle and plaintext and different IVs give
ciphertexts that differ in every block. -/
def Obligations.CbcIvChangesEveryBlock : Prop :=
  ∀ s₁ s₂ t₁ t₂ : State, Clean .cbcEnc s₁ → Clean .cbcEnc s₂ → s₂.lp.keyh = s₁.lp.keyh → s₂.lp.len = s₁.lp.len →
    inBytes s₂ = inBytes s₁ → ivBytes s₂ ≠ ivBytes s₁ → exec .cbcEnc s₁ = .next t₁ → exec .cbcEnc s₂ = .next t₂ →
    ∀ j, 16 * j < s₁.lp.len.toNat →
      memBlock t₂.mem (s₂.lp.outAddr.toNat + 16 * j) ≠ memBlock t₁.mem (s₁.lp.outAddr.toNat + 16 * j)

/-- 44_ctr.md R182 item 2, 42_cfb.md R162 item 2: two CTR, or two CTR.C64, commands with one key handle and IV give
outputs whose xor is the xor of their inputs; and CFB_ENC and OFB with one key handle and IV give the same first output
block for the same first input block. -/
def Obligations.SameIvGivesSameKeystream : Prop :=
  (∀ i ∈ [Instr.ctr, .ctrC64], ∀ s₁ s₂ t₁ t₂ : State, Clean i s₁ → Clean i s₂ → s₂.lp.keyh = s₁.lp.keyh →
    ivBytes s₂ = ivBytes s₁ → s₂.lp.len = s₁.lp.len → exec i s₁ = .next t₁ → exec i s₂ = .next t₂ →
    xorBytes (memRead t₁.mem s₁.lp.outAddr.toNat s₁.lp.len.toNat) (memRead t₂.mem s₂.lp.outAddr.toNat s₂.lp.len.toNat) =
      xorBytes (inBytes s₁) (inBytes s₂)) ∧
  ∀ s₁ s₂ t₁ t₂ : State, Clean .cfbEnc s₁ → Clean .ofb s₂ → s₂.lp.keyh = s₁.lp.keyh → ivBytes s₂ = ivBytes s₁ →
    16 ≤ s₁.lp.len.toNat → 16 ≤ s₂.lp.len.toNat →
    memBlock s₂.mem s₂.lp.inAddr.toNat = memBlock s₁.mem s₁.lp.inAddr.toNat →
    exec .cfbEnc s₁ = .next t₁ → exec .ofb s₂ = .next t₂ →
    memBlock t₂.mem s₂.lp.outAddr.toNat = memBlock t₁.mem s₁.lp.outAddr.toNat

/-- 46_gcm.md R207 item 2, 47_ccm.md R231 item 2: of two GCM_DEC, or two CCM_DEC, of one message that differ in the
supplied tag, at most one is accepted. -/
def Obligations.ChangedTagIsRejected : Prop :=
  ∀ i ∈ [Instr.gcmDec, .ccmDec], ∀ s₁ s₂ t₁ t₂ : State, Clean i s₁ → Clean i s₂ → s₂.lp.keyh = s₁.lp.keyh →
    s₂.lp.len = s₁.lp.len → s₂.lp.tagLen = s₁.lp.tagLen → ivBytes s₂ = ivBytes s₁ → aadBytes s₂ = aadBytes s₁ →
    inBytes s₂ = inBytes s₁ → tagBufBytes s₂ ≠ tagBufBytes s₁ → exec i s₁ = .next t₁ → exec i s₂ = .next t₂ →
    t₁.status.authFail = true ∨ t₂.status.authFail = true

/-- 47_ccm.md R231 item 3: of two CCM_DEC that differ in one byte of the ciphertext, or in one byte of the AAD, the raw
MACs over the plaintexts they open to differ; with a 16-byte tag at most one of the two is accepted; and for every tag
length `t`, when the first is accepted the second reports AUTH_FAIL = 1 exactly when the first `t` bytes of the MAC have
changed. -/
def Obligations.TamperingChangesCcmMac : Prop :=
  ∀ (s₁ s₂ t₁ t₂ : State) (q : Nat), Clean .ccmDec s₁ → Clean .ccmDec s₂ → s₂.lp.keyh = s₁.lp.keyh →
    s₂.lp.tagLen = s₁.lp.tagLen → ivBytes s₂ = ivBytes s₁ → tagBufBytes s₂ = tagBufBytes s₁ →
    (aadBytes s₂ = aadBytes s₁ ∧ DifferOnlyAt (inBytes s₁) (inBytes s₂) q ∨
      inBytes s₂ = inBytes s₁ ∧ DifferOnlyAt (aadBytes s₁) (aadBytes s₂) q) →
    exec .ccmDec s₁ = .next t₁ → exec .ccmDec s₂ = .next t₂ →
    (s₁.lp.tagLen = 16 → t₁.status.authFail = true ∨ t₂.status.authFail = true) ∧
    ∀ pt₁ pt₂ : Bytes, CcmOpensTo s₁ pt₁ → CcmOpensTo s₂ pt₂ →
      ccmMacFor s₁ pt₁ ≠ ccmMacFor s₂ pt₂ ∧
      (t₁.status.authFail = false →
        (t₂.status.authFail = true ↔
          (bytesOfBlock (ccmMacFor s₂ pt₂)).take s₁.lp.tagLen.toNat ≠
            (bytesOfBlock (ccmMacFor s₁ pt₁)).take s₁.lp.tagLen.toNat))
end

