-- ==== Sys2Proof/Laws/Memory.lean ====
section
/-! SUPPORT. The laws of system memory: reading after writing, what a write leaves alone, and that every memory operation
keeps the canonical form. -/

namespace Sys2Proof.Machine

/-! ## One byte -/

@[simp] theorem readByte_nil (a : Nat) : readByte [] a = unlistedByte := rfl

theorem memWfFrom_cons {lo k : Nat} {v : Byte} {m : Mem} :
    memWfFrom lo ((k, v) :: m) = true ↔
      lo ≤ k ∧ k < Config.memorySize ∧ v ≠ unlistedByte ∧ memWfFrom (k + 1) m = true := by
  simp [memWfFrom, and_assoc]

theorem memWfFrom_mono {m : Mem} {lo lo' : Nat} (hle : lo' ≤ lo) (h : memWfFrom lo m = true) :
    memWfFrom lo' m = true := by
  cases m with
  | nil => rfl
  | cons c m =>
    obtain ⟨k, v⟩ := c
    rw [memWfFrom_cons] at h ⊢
    exact ⟨hle.trans h.1, h.2⟩

/-- Below the listed addresses every byte reads as unlisted. -/
theorem readByte_below {m : Mem} {lo a : Nat} (h : memWfFrom lo m = true) (ha : a < lo) :
    readByte m a = unlistedByte := by
  induction m generalizing lo with
  | nil => rfl
  | cons c m ih =>
    obtain ⟨k, v⟩ := c
    rw [memWfFrom_cons] at h
    have hne : k ≠ a := by omega
    simp only [readByte, if_neg hne]
    exact ih h.2.2.2 (by omega)

theorem readByte_writeByte_other (m : Mem) (a b : Nat) (v : Byte) (hne : b ≠ a) :
    readByte (writeByte m a v) b = readByte m b := by
  induction m with
  | nil =>
    by_cases hv : v = unlistedByte
    · simp [writeByte, hv]
    · simp [writeByte, hv, readByte, hne.symm]
  | cons c m ih =>
    obtain ⟨k, w⟩ := c
    by_cases h1 : a < k
    · by_cases hv : v = unlistedByte
      · simp [writeByte, h1, hv]
      · simp [writeByte, h1, hv, readByte, hne.symm]
    · by_cases h2 : a = k
      · subst h2
        by_cases hv : v = unlistedByte
        · simp [writeByte, hv, readByte, hne.symm]
        · simp [writeByte, hv, readByte, hne.symm]
      · simp [writeByte, h1, h2, readByte, ih]

theorem readByte_writeByte_same_from {m : Mem} {lo : Nat} (h : memWfFrom lo m = true) (a : Nat) (v : Byte) :
    readByte (writeByte m a v) a = v := by
  induction m generalizing lo with
  | nil =>
    by_cases hv : v = unlistedByte
    · simp [writeByte, hv]
    · simp [writeByte, hv, readByte]
  | cons c m ih =>
    obtain ⟨k, w⟩ := c
    rw [memWfFrom_cons] at h
    by_cases h1 : a < k
    · by_cases hv : v = unlistedByte
      · simp only [writeByte, h1, hv, if_true, readByte, if_neg (by omega : ¬ k = a)]
        exact readByte_below h.2.2.2 (by omega)
      · simp [writeByte, h1, hv, readByte]
    · by_cases h2 : a = k
      · subst h2
        by_cases hv : v = unlistedByte
        · simp only [writeByte, hv, if_true, lt_irrefl, if_false]
          exact readByte_below h.2.2.2 (by omega)
        · simp [writeByte, hv, readByte]
      · simp only [writeByte, h1, h2, if_false, readByte, if_neg (Ne.symm h2)]
        exact ih h.2.2.2

/-- A byte reads back as it was written. -/
theorem readByte_writeByte_same {m : Mem} (h : Mem.wf m = true) (a : Nat) (v : Byte) :
    readByte (writeByte m a v) a = v := readByte_writeByte_same_from h a v

theorem writeByte_wfFrom {m : Mem} {lo a : Nat} {v : Byte} (h : memWfFrom lo m = true) (hlo : lo ≤ a)
    (ha : a < Config.memorySize) : memWfFrom lo (writeByte m a v) = true := by
  induction m generalizing lo with
  | nil =>
    by_cases hv : v = unlistedByte
    · simp [writeByte, hv, memWfFrom]
    · simp [writeByte, hv, memWfFrom, hlo, ha]
  | cons c m ih =>
    obtain ⟨k, w⟩ := c
    have h' := memWfFrom_cons.mp h
    by_cases h1 : a < k
    · by_cases hv : v = unlistedByte
      · simpa [writeByte, h1, hv] using h
      · simp only [writeByte, h1, hv, if_true, if_false]
        rw [memWfFrom_cons, memWfFrom_cons]
        exact ⟨hlo, ha, hv, by omega, h'.2⟩
    · by_cases h2 : a = k
      · subst h2
        by_cases hv : v = unlistedByte
        · simp only [writeByte, hv, if_true, lt_irrefl, if_false]
          exact memWfFrom_mono (by omega) h'.2.2.2
        · simp only [writeByte, hv, lt_irrefl, if_true, if_false]
          rw [memWfFrom_cons]
          exact ⟨hlo, ha, hv, h'.2.2.2⟩
      · simp only [writeByte, h1, h2, if_false]
        rw [memWfFrom_cons]
        exact ⟨h'.1, h'.2.1, h'.2.2.1, ih h'.2.2.2 (by omega)⟩

/-- A write inside the address space keeps the canonical form. -/
theorem writeByte_wf {m : Mem} {a : Nat} {v : Byte} (h : Mem.wf m = true) (ha : a < Config.memorySize) :
    Mem.wf (writeByte m a v) = true := writeByte_wfFrom h (Nat.zero_le _) ha

/-- Canonical memories that read alike are equal. -/
theorem mem_ext_from {m n : Mem} {lo : Nat} (hm : memWfFrom lo m = true) (hn : memWfFrom lo n = true)
    (h : ∀ a, readByte m a = readByte n a) : m = n := by
  induction m generalizing n lo with
  | nil =>
    cases n with
    | nil => rfl
    | cons c n =>
      obtain ⟨k, v⟩ := c
      have h' := memWfFrom_cons.mp hn
      have := h k
      simp [readByte] at this
      exact absurd this.symm h'.2.2.1
  | cons c m ih =>
    obtain ⟨k, v⟩ := c
    have hm' := memWfFrom_cons.mp hm
    cases n with
    | nil =>
      have := h k
      simp [readByte] at this
      exact absurd this hm'.2.2.1
    | cons d n =>
      obtain ⟨j, w⟩ := d
      have hn' := memWfFrom_cons.mp hn
      have hkj : k = j := by
        rcases lt_trichotomy k j with hlt | heq | hgt
        · have := h k
          simp only [readByte, if_true, if_neg (by omega : ¬ j = k)] at this
          rw [readByte_below hn'.2.2.2 (by omega)] at this
          exact absurd this hm'.2.2.1
        · exact heq
        · have := h j
          simp only [readByte, if_true, if_neg (by omega : ¬ k = j)] at this
          rw [readByte_below hm'.2.2.2 (by omega)] at this
          exact absurd this.symm hn'.2.2.1
      subst hkj
      have hv : v = w := by simpa [readByte] using h k
      subst hv
      congr 1
      refine ih hm'.2.2.2 hn'.2.2.2 fun a => ?_
      by_cases ha : k = a
      · subst ha
        rw [readByte_below hm'.2.2.2 (by omega), readByte_below hn'.2.2.2 (by omega)]
      · simpa [readByte, ha] using h a

/-- Canonical memories that read alike are equal. -/
theorem mem_ext {m n : Mem} (hm : Mem.wf m = true) (hn : Mem.wf n = true) (h : ∀ a, readByte m a = readByte n a) :
    m = n := mem_ext_from hm hn h

/-! ## Byte strings -/

@[simp] theorem memRead_length (m : Mem) (a n : Nat) : (memRead m a n).length = n := by
  induction n generalizing a with
  | zero => rfl
  | succ n ih => simp [memRead, ih]

theorem memRead_getElem (m : Mem) (a n i : Nat) (h : i < (memRead m a n).length) :
    (memRead m a n)[i] = readByte m (a + i) := by
  induction n generalizing a i with
  | zero => simp at h
  | succ n ih =>
    cases i with
    | zero => rfl
    | succ i =>
      simp only [memRead, List.getElem_cons_succ]
      rw [ih]
      congr 1
      omega

theorem memRead_getElem? (m : Mem) (a n i : Nat) (h : i < n) : (memRead m a n)[i]? = some (readByte m (a + i)) := by
  rw [List.getElem?_eq_getElem (by simpa using h), memRead_getElem]

/-- Two memories that agree on a range give the same byte string there. -/
theorem memRead_congr {m m' : Mem} {a n : Nat} (h : ∀ i, i < n → readByte m (a + i) = readByte m' (a + i)) :
    memRead m a n = memRead m' a n := by
  apply List.ext_getElem (by simp)
  intro i h1 h2
  rw [memRead_getElem, memRead_getElem]
  exact h i (by simpa using h1)

theorem memRead_append (m : Mem) (a n k : Nat) : memRead m a (n + k) = memRead m a n ++ memRead m (a + n) k := by
  induction n generalizing a with
  | zero => simp [memRead]
  | succ n ih =>
    rw [Nat.succ_add, memRead, memRead, ih]
    simp [Nat.add_assoc, Nat.add_comm 1 n]

theorem memRead_take (m : Mem) (a n k : Nat) : (memRead m a n).take k = memRead m a (min k n) := by
  apply List.ext_getElem (by simp)
  intro i h1 h2
  rw [List.getElem_take, memRead_getElem, memRead_getElem]

theorem memRead_drop (m : Mem) (a n k : Nat) : (memRead m a n).drop k = memRead m (a + k) (n - k) := by
  apply List.ext_getElem (by simp)
  intro i h1 h2
  rw [List.getElem_drop, memRead_getElem, memRead_getElem]
  congr 1
  omega

/-- A string write leaves every byte outside its range alone (20_memory.md R73). -/
theorem readByte_memWrite_other (m : Mem) (a : Nat) (bs : Bytes) (b : Nat) (h : b < a ∨ a + bs.length ≤ b) :
    readByte (memWrite m a bs) b = readByte m b := by
  induction bs generalizing m a with
  | nil => rfl
  | cons x bs ih =>
    simp only [List.length_cons] at h
    rw [memWrite, ih _ _ (by omega), readByte_writeByte_other _ _ _ _ (by omega)]

theorem memWrite_wf {m : Mem} {a : Nat} {bs : Bytes} (h : Mem.wf m = true) (ha : a + bs.length ≤ Config.memorySize) :
    Mem.wf (memWrite m a bs) = true := by
  induction bs generalizing m a with
  | nil => exact h
  | cons x bs ih =>
    simp only [List.length_cons] at ha
    exact ih (writeByte_wf h (by omega)) (by omega)

theorem readByte_memWrite_wfFrom {m : Mem} (h : Mem.wf m = true) (a : Nat) (bs : Bytes) (i : Nat)
    (hi : i < bs.length) (ha : a + bs.length ≤ Config.memorySize) :
    readByte (memWrite m a bs) (a + i) = bs[i] := by
  induction bs generalizing m a i with
  | nil => simp at hi
  | cons x bs ih =>
    simp only [List.length_cons] at ha
    cases i with
    | zero =>
      rw [memWrite, readByte_memWrite_other _ _ _ _ (by omega)]
      exact readByte_writeByte_same h a x
    | succ i =>
      simp only [List.length_cons] at hi
      rw [memWrite, show a + (i + 1) = (a + 1) + i by omega, ih (writeByte_wf h (by omega)) _ _ (by omega) (by omega)]
      rfl

/-- A string reads back as it was written (20_memory.md R73). -/
theorem readByte_memWrite_same {m : Mem} (h : Mem.wf m = true) (a : Nat) (bs : Bytes) (b : Nat)
    (hlo : a ≤ b) (hhi : b - a < bs.length) (ha : a + bs.length ≤ Config.memorySize) :
    readByte (memWrite m a bs) b = bs[b - a] := by
  have := readByte_memWrite_wfFrom h a bs (b - a) hhi ha
  rwa [show a + (b - a) = b by omega] at this

/-- A string reads back as it was written (20_memory.md R72, R73). -/
theorem memRead_memWrite_same {m : Mem} (h : Mem.wf m = true) (a : Nat) (bs : Bytes)
    (ha : a + bs.length ≤ Config.memorySize) : memRead (memWrite m a bs) a bs.length = bs := by
  apply List.ext_getElem (by simp)
  intro i h1 h2
  rw [memRead_getElem, readByte_memWrite_wfFrom h a bs i h2 ha]

/-- A string write leaves a string elsewhere alone (20_memory.md R73). -/
theorem memRead_memWrite_other (m : Mem) (a : Nat) (bs : Bytes) (b n : Nat) (h : b + n ≤ a ∨ a + bs.length ≤ b) :
    memRead (memWrite m a bs) b n = memRead m b n :=
  memRead_congr fun i hi => readByte_memWrite_other _ _ _ _ (by omega)

/-! ## Ranges -/

theorem Range.contains_iff {r : Range} {a : Nat} : r.contains a = true ↔ r.base ≤ a ∧ a < r.base + r.size := by
  simp [Range.contains]

theorem Range.overlaps_iff {r q : Range} :
    r.overlaps q = true ↔ 0 < r.size ∧ 0 < q.size ∧ r.base < q.base + q.size ∧ q.base < r.base + r.size := by
  simp [Range.overlaps, and_assoc]

theorem Range.allBytes_iff {r : Range} {f : Nat → Bool} :
    r.allBytes f = true ↔ ∀ a, r.contains a = true → f a = true := by
  simp only [Range.allBytes, List.all_eq_true, List.mem_range, Range.contains_iff]
  constructor
  · rintro h a ⟨h1, h2⟩
    have := h (a - r.base) (by omega)
    rwa [show r.base + (a - r.base) = a by omega] at this
  · intro h i hi
    exact h _ ⟨by omega, by omega⟩

theorem allBytes_iff {rs : List Range} {f : Nat → Bool} :
    allBytes rs f = true ↔ ∀ r ∈ rs, ∀ a, r.contains a = true → f a = true := by
  simp [allBytes, Range.allBytes_iff]

theorem inRanges_iff {rs : List Range} {a : Nat} : inRanges rs a = true ↔ ∃ r ∈ rs, r.contains a = true := by
  simp [inRanges]

theorem inRanges_false_iff {rs : List Range} {a : Nat} : inRanges rs a = false ↔ ∀ r ∈ rs, r.contains a = false := by
  simp [inRanges]

@[simp] theorem inRanges_append (rs qs : List Range) (a : Nat) :
    inRanges (rs ++ qs) a = (inRanges rs a || inRanges qs a) := by simp [inRanges]

@[simp] theorem freeBytes_length (n : Nat) (r : Range) : (freeBytes n r).length = r.size := by simp [freeBytes]

/-! ## Free bytes -/

theorem readByte_havoc_other (m : Mem) (n : Nat) (rs : List Range) (a : Nat) (h : inRanges rs a = false) :
    readByte (havoc m n rs) a = readByte m a := by
  induction rs generalizing m with
  | nil => rfl
  | cons r rs ih =>
    rw [inRanges_false_iff] at h
    have hr := h r (by simp)
    rw [havoc, ih _ (inRanges_false_iff.mpr fun q hq => h q (by simp [hq])), readByte_memWrite_other]
    simp [Range.contains] at hr
    simp only [freeBytes_length]
    omega

theorem havoc_wf {m : Mem} {n : Nat} {rs : List Range} (h : Mem.wf m = true) (hfit : rs.all Range.fits = true) :
    Mem.wf (havoc m n rs) = true := by
  induction rs generalizing m with
  | nil => exact h
  | cons r rs ih =>
    simp only [List.all_cons, Bool.and_eq_true] at hfit
    refine ih ?_ hfit.2
    by_cases hz : r.size = 0
    · have : freeBytes n r = [] := by simp [freeBytes, hz]
      rw [this]
      exact h
    · refine memWrite_wf h ?_
      have := hfit.1
      simp [Range.fits, hz] at this
      simpa using this

/-- Every byte of the ranges reads as its free value after `havoc` (R88, 40_engine.md R132). -/
theorem readByte_havoc_inside {m : Mem} {n : Nat} {rs : List Range} {a : Nat} (h : Mem.wf m = true)
    (hfit : rs.all Range.fits = true) (ha : inRanges rs a = true) :
    readByte (havoc m n rs) a = Config.freeByte n a := by
  induction rs generalizing m with
  | nil => simp [inRanges] at ha
  | cons r rs ih =>
    simp only [List.all_cons, Bool.and_eq_true] at hfit
    have hwf : Mem.wf (memWrite m r.base (freeBytes n r)) = true := by
      have := havoc_wf (n := n) (rs := [r]) h (by simpa using hfit.1)
      simpa [havoc] using this
    by_cases hrest : inRanges rs a = true
    · exact ih hwf hfit.2 hrest
    · rw [havoc, readByte_havoc_other _ _ _ _ (by simpa using hrest)]
      have hr : r.contains a = true := by
        rw [inRanges_iff] at ha
        obtain ⟨q, hq, hqa⟩ := ha
        rcases List.mem_cons.mp hq with rfl | hq
        · exact hqa
        · exact absurd (inRanges_iff.mpr ⟨q, hq, hqa⟩) hrest
      rw [Range.contains_iff] at hr
      have hfits := hfit.1
      simp only [Range.fits, Bool.or_eq_true, decide_eq_true_eq] at hfits
      rw [readByte_memWrite_same h _ _ _ hr.1 (by simp; omega) (by simp; omega)]
      simp only [freeBytes, List.getElem_map, List.getElem_range]
      congr 1
      omega

/-! ## Several writes -/

theorem memWriteAll_wf {m : Mem} {ws : List (Nat × Bytes)} (h : Mem.wf m = true)
    (hfit : ∀ w ∈ ws, w.1 + w.2.length ≤ Config.memorySize) : Mem.wf (memWriteAll m ws) = true := by
  induction ws generalizing m with
  | nil => exact h
  | cons w ws ih =>
    obtain ⟨a, bs⟩ := w
    exact ih (memWrite_wf h (hfit (a, bs) (by simp))) fun w hw => hfit w (by simp [hw])

theorem readByte_memWriteAll_other (m : Mem) (ws : List (Nat × Bytes)) (b : Nat)
    (h : ∀ w ∈ ws, b < w.1 ∨ w.1 + w.2.length ≤ b) : readByte (memWriteAll m ws) b = readByte m b := by
  induction ws generalizing m with
  | nil => rfl
  | cons w ws ih =>
    obtain ⟨a, bs⟩ := w
    rw [memWriteAll, ih _ fun w hw => h w (by simp [hw]), readByte_memWrite_other _ _ _ _ (h (a, bs) (by simp))]

end Sys2Proof.Machine
end

