-- ==== Sys2Proof/Laws/Bytes.lean ====
section
/-! SUPPORT. The laws of byte strings and blocks: conversions are inverse, byte `i` of a block, lengths, and splitting into
blocks (00_scope.md R11, R12). -/

namespace Sys2Proof.Machine

@[simp] theorem beBytes_length (n v : Nat) : (beBytes n v).length = n := by simp [beBytes]

@[simp] theorem bytesOfBlock_length (x : Block) : (bytesOfBlock x).length = 16 := beBytes_length 16 _

@[simp] theorem zeroBytes_length (n : Nat) : (zeroBytes n).length = n := by simp [zeroBytes]

theorem beBytes_getElem (n v i : Nat) (h : i < (beBytes n v).length) :
    (beBytes n v)[i] = BitVec.ofNat 8 (v / 2 ^ (8 * (n - 1 - i))) := by simp [beBytes]

theorem beBytes_succ (n v : Nat) : beBytes (n + 1) v = beBytes n (v / 256) ++ [BitVec.ofNat 8 v] := by
  apply List.ext_getElem (by simp)
  intro i h1 h2
  simp only [beBytes_length] at h1
  rw [beBytes_getElem]
  by_cases hi : i < n
  · rw [List.getElem_append_left (by simpa using hi), beBytes_getElem]
    congr 1
    rw [show 8 * (n + 1 - 1 - i) = 8 + 8 * (n - 1 - i) by omega, pow_add, ← Nat.div_div_eq_div_mul]
    rfl
  · have : i = n := by omega
    subst this
    simp

theorem intBE_append_one (s : Bytes) (b : Byte) : intBE (s ++ [b]) = intBE s * 256 + b.toNat := by
  simp [intBE]

@[simp] theorem intBE_nil : intBE [] = 0 := rfl

theorem intBE_lt (s : Bytes) : intBE s < 256 ^ s.length := by
  induction s using List.reverseRecOn with
  | nil => simp
  | append_singleton s b ih =>
    rw [intBE_append_one, List.length_append, List.length_singleton, pow_succ]
    have := b.isLt
    omega

/-- `int_BE(BE_n(v)) = v mod 2^(8n)` (R12). -/
theorem intBE_beBytes (n v : Nat) : intBE (beBytes n v) = v % 256 ^ n := by
  induction n generalizing v with
  | zero => simp [beBytes, Nat.mod_one]
  | succ n ih =>
    rw [beBytes_succ, intBE_append_one, ih, pow_succ, mul_comm (256 ^ n) 256, Nat.mod_mul]
    simp only [BitVec.toNat_ofNat]
    omega

/-- `BE_n(int_BE(S)) = S` for a string of `n` bytes (R12). -/
theorem beBytes_intBE (s : Bytes) : beBytes s.length (intBE s) = s := by
  induction s using List.reverseRecOn with
  | nil => rfl
  | append_singleton s b ih =>
    rw [List.length_append, List.length_singleton, beBytes_succ, intBE_append_one]
    have hb := b.isLt
    rw [show (intBE s * 256 + b.toNat) / 256 = intBE s by omega, ih]
    congr 2
    apply BitVec.eq_of_toNat_eq
    simp only [BitVec.toNat_ofNat]
    omega

@[simp] theorem blockOfBytes_bytesOfBlock (x : Block) : blockOfBytes (bytesOfBlock x) = x := by
  unfold blockOfBytes bytesOfBlock
  rw [intBE_beBytes]
  apply BitVec.eq_of_toNat_eq
  have := x.isLt
  simp only [BitVec.toNat_ofNat]
  omega

theorem bytesOfBlock_blockOfBytes {s : Bytes} (h : s.length = 16) : bytesOfBlock (blockOfBytes s) = s := by
  have hlt := intBE_lt s
  rw [h] at hlt
  unfold blockOfBytes bytesOfBlock
  rw [BitVec.toNat_ofNat, Nat.mod_eq_of_lt (by simpa using hlt), ← h, beBytes_intBE]

theorem bytesOfBlock_getElem (x : Block) (i : Nat) (h : i < (bytesOfBlock x).length) :
    (bytesOfBlock x)[i] = blockByte x i := by
  have h16 : i < 16 := by simpa using h
  have := beBytes_getElem 16 x.toNat i (by simpa using h16)
  refine Eq.trans this ?_
  apply BitVec.eq_of_toNat_eq
  simp [blockByte, BitVec.extractLsb'_toNat, Nat.shiftRight_eq_div_pow]

/-- Byte `i` of the block read from a 16-byte string. -/
theorem blockByte_blockOfBytes {s : Bytes} (h : s.length = 16) {i : Nat} (hi : i < 16) :
    blockByte (blockOfBytes s) i = s[i]'(by omega) := by
  have h1 := bytesOfBlock_getElem (blockOfBytes s) i (by simpa using hi)
  rw [← h1]
  congr 1
  exact bytesOfBlock_blockOfBytes h

@[simp] theorem blockByte_xor (x y : Block) (i : Nat) : blockByte (x ^^^ y) i = blockByte x i ^^^ blockByte y i := by
  apply BitVec.eq_of_getLsbD_eq
  intro j hj
  simp [blockByte, hj]

/-- Blocks with the same sixteen bytes are equal. -/
theorem block_ext {x y : Block} (h : ∀ i, i < 16 → blockByte x i = blockByte y i) : x = y := by
  rw [← blockOfBytes_bytesOfBlock x, ← blockOfBytes_bytesOfBlock y]
  congr 1
  apply List.ext_getElem (by simp)
  intro i h1 h2
  rw [bytesOfBlock_getElem, bytesOfBlock_getElem]
  exact h i (by simpa using h1)

/-- Byte `i` of the block at `a` (20_memory.md R74). -/
theorem blockByte_memBlock (m : Mem) (a i : Nat) (h : i < 16) : blockByte (memBlock m a) i = readByte m (a + i) := by
  rw [memBlock, blockByte_blockOfBytes (by simp) h, memRead_getElem]

theorem bytesOfBlock_memBlock (m : Mem) (a : Nat) : bytesOfBlock (memBlock m a) = memRead m a 16 :=
  bytesOfBlock_blockOfBytes (by simp)

theorem memBlock_congr {m m' : Mem} {a : Nat} (h : ∀ i, i < 16 → readByte m (a + i) = readByte m' (a + i)) :
    memBlock m a = memBlock m' a := by
  unfold memBlock
  rw [memRead_congr h]

/-! ## Exclusive-or -/

@[simp] theorem xorBytes_length (a b : Bytes) : (xorBytes a b).length = min a.length b.length := by simp [xorBytes]

theorem xorBytes_getElem (a b : Bytes) (i : Nat) (h : i < (xorBytes a b).length) :
    (xorBytes a b)[i] = a[i]'(by simp at h; omega) ^^^ b[i]'(by simp at h; omega) := by simp [xorBytes]

/-! ## Blocks of a string -/

@[simp] theorem takeBlocks_length (n : Nat) (s : Bytes) : (takeBlocks n s).length = n := by
  induction n generalizing s with
  | zero => rfl
  | succ n ih => simp [takeBlocks, ih]

theorem takeBlocks_getElem (n : Nat) (s : Bytes) (i : Nat) (h : i < (takeBlocks n s).length) :
    (takeBlocks n s)[i] = blockOfBytes ((s.drop (16 * i)).take 16) := by
  induction n generalizing s i with
  | zero => simp at h
  | succ n ih =>
    cases i with
    | zero => simp [takeBlocks]
    | succ i =>
      simp only [takeBlocks, List.getElem_cons_succ]
      rw [ih, List.drop_drop]
      congr 3
      ring

@[simp] theorem blocksOf_length (s : Bytes) : (blocksOf s).length = s.length / 16 := by simp [blocksOf]

/-- Block `i` of a memory string is the block at its address. -/
theorem blocksOf_memRead_getElem (m : Mem) (a n i : Nat) (h : i < (blocksOf (memRead m a n)).length) :
    (blocksOf (memRead m a n))[i] = memBlock m (a + 16 * i) := by
  have hi : i < n / 16 := by simpa using h
  refine Eq.trans (takeBlocks_getElem _ (memRead m a n) i (by simpa using hi)) ?_
  rw [memRead_drop, memRead_take, memBlock]
  congr 2
  omega

/-- The blocks of a memory string of whole blocks. -/
theorem blocksOf_memRead (m : Mem) (a n : Nat) :
    blocksOf (memRead m a n) = (List.range (n / 16)).map fun j => memBlock m (a + 16 * j) := by
  apply List.ext_getElem (by simp)
  intro i h1 h2
  rw [blocksOf_memRead_getElem]
  simp

@[simp] theorem bytesOfBlocks_nil : bytesOfBlocks [] = [] := rfl

@[simp] theorem bytesOfBlocks_cons (x : Block) (xs : List Block) :
    bytesOfBlocks (x :: xs) = bytesOfBlock x ++ bytesOfBlocks xs := rfl

@[simp] theorem bytesOfBlocks_length (xs : List Block) : (bytesOfBlocks xs).length = 16 * xs.length := by
  induction xs with
  | nil => rfl
  | cons x xs ih => simp [ih]; ring

theorem bytesOfBlocks_getElem (xs : List Block) (i : Nat) (h : i < (bytesOfBlocks xs).length) :
    (bytesOfBlocks xs)[i] = blockByte (xs[i / 16]'(by simp at h; omega)) (i % 16) := by
  induction xs generalizing i with
  | nil => simp at h
  | cons x xs ih =>
    simp only [bytesOfBlocks_cons]
    by_cases hi : i < 16
    · rw [List.getElem_append_left (by simpa using hi), bytesOfBlock_getElem]
      simp [Nat.div_eq_of_lt hi, Nat.mod_eq_of_lt hi]
    · rw [List.getElem_append_right (by simpa using hi)]
      simp only [bytesOfBlock_length]
      rw [ih]
      have h1 : i / 16 = (i - 16) / 16 + 1 := by omega
      have h2 : i % 16 = (i - 16) % 16 := by omega
      simp only [h1, List.getElem_cons_succ, h2]

/-! ## Padding -/

theorem pad16_length_mod (s : Bytes) : (pad16 s).length % 16 = 0 := by
  simp [pad16]
  omega

@[simp] theorem pad16_nil : pad16 [] = [] := rfl

end Sys2Proof.Machine
end

