-- ==== Sys2Proof/Laws/Datapath.lean ====
section
/-! SUPPORT. The closed forms of the datapath loops: the chained blocks, the keystream bytes, GHASH and CBC-MAC
(41_cbc.md to 47_ccm.md). -/

namespace Sys2Proof.Machine

/-! ## The feedback modes -/

@[simp] theorem cbcEncLoop_length (enc : Block → Block) (w : Work) (ps : List Block) :
    (cbcEncLoop enc w ps).2.length = ps.length := by
  induction ps generalizing w with
  | nil => rfl
  | cons p ps ih => simp [cbcEncLoop, ih]

@[simp] theorem cbcDecLoop_length (dec : Block → Block) (w : Work) (cs : List Block) :
    (cbcDecLoop dec w cs).2.length = cs.length := by
  induction cs generalizing w with
  | nil => rfl
  | cons p ps ih => simp [cbcDecLoop, ih]

@[simp] theorem cfbEncLoop_length (enc : Block → Block) (w : Work) (ps : List Block) :
    (cfbEncLoop enc w ps).2.length = ps.length := by
  induction ps generalizing w with
  | nil => rfl
  | cons p ps ih => simp [cfbEncLoop, ih]

@[simp] theorem cfbDecLoop_length (enc : Block → Block) (w : Work) (cs : List Block) :
    (cfbDecLoop enc w cs).2.length = cs.length := by
  induction cs generalizing w with
  | nil => rfl
  | cons p ps ih => simp [cfbDecLoop, ih]

@[simp] theorem ofbLoop_length (enc : Block → Block) (w : Work) (xs : List Block) :
    (ofbLoop enc w xs).2.length = xs.length := by
  induction xs generalizing w with
  | nil => rfl
  | cons p ps ih => simp [ofbLoop, ih]

/-- `C_j = E(k, P_j xor C_{j-1})` with `C_{-1}` in `W.FB` (41_cbc.md R150). -/
theorem cbcEncLoop_getElem (enc : Block → Block) (w : Work) (ps : List Block) (j : Nat) (h : j < ps.length) :
    (cbcEncLoop enc w ps).2[j]'(by simpa using h) =
      enc (ps[j] ^^^ if _hj : j = 0 then w.fb else (cbcEncLoop enc w ps).2[j - 1]'(by simp; omega)) := by
  induction ps generalizing w j with
  | nil => simp at h
  | cons p ps ih =>
    cases j with
    | zero => simp [cbcEncLoop]
    | succ j =>
      simp only [List.length_cons] at h
      simp only [cbcEncLoop, List.getElem_cons_succ]
      rw [ih _ j (by omega)]
      cases j with
      | zero => simp
      | succ j => simp

/-- `P_j = D(k, C_j) xor C_{j-1}` with `C_{-1}` in `W.FB` (41_cbc.md R151). -/
theorem cbcDecLoop_getElem (dec : Block → Block) (w : Work) (cs : List Block) (j : Nat) (h : j < cs.length) :
    (cbcDecLoop dec w cs).2[j]'(by simpa using h) =
      dec cs[j] ^^^ if _hj : j = 0 then w.fb else cs[j - 1]'(by omega) := by
  induction cs generalizing w j with
  | nil => simp at h
  | cons p ps ih =>
    cases j with
    | zero => simp [cbcDecLoop]
    | succ j =>
      simp only [List.length_cons] at h
      simp only [cbcDecLoop, List.getElem_cons_succ]
      rw [ih _ j (by omega)]
      cases j with
      | zero => simp
      | succ j => simp

/-- `C_j = P_j xor E(k, C_{j-1})` with `C_{-1}` in `W.FB` (42_cfb.md R160). -/
theorem cfbEncLoop_getElem (enc : Block → Block) (w : Work) (ps : List Block) (j : Nat) (h : j < ps.length) :
    (cfbEncLoop enc w ps).2[j]'(by simpa using h) =
      ps[j] ^^^ enc (if _hj : j = 0 then w.fb else (cfbEncLoop enc w ps).2[j - 1]'(by simp; omega)) := by
  induction ps generalizing w j with
  | nil => simp at h
  | cons p ps ih =>
    cases j with
    | zero => simp [cfbEncLoop]
    | succ j =>
      simp only [List.length_cons] at h
      simp only [cfbEncLoop, List.getElem_cons_succ]
      rw [ih _ j (by omega)]
      cases j with
      | zero => simp
      | succ j => simp

/-- `P_j = C_j xor E(k, C_{j-1})` with `C_{-1}` in `W.FB` (42_cfb.md R161). -/
theorem cfbDecLoop_getElem (enc : Block → Block) (w : Work) (cs : List Block) (j : Nat) (h : j < cs.length) :
    (cfbDecLoop enc w cs).2[j]'(by simpa using h) =
      cs[j] ^^^ enc (if _hj : j = 0 then w.fb else cs[j - 1]'(by omega)) := by
  induction cs generalizing w j with
  | nil => simp at h
  | cons p ps ih =>
    cases j with
    | zero => simp [cfbDecLoop]
    | succ j =>
      simp only [List.length_cons] at h
      simp only [cfbDecLoop, List.getElem_cons_succ]
      rw [ih _ j (by omega)]
      cases j with
      | zero => simp
      | succ j => simp

/-- Keystream block `j` of OFB is the (j+1)-fold encryption of `W.FB` (43_ofb.md R171). -/
theorem ofbLoop_getElem (enc : Block → Block) (w : Work) (xs : List Block) (j : Nat) (h : j < xs.length) :
    (ofbLoop enc w xs).2[j]'(by simpa using h) = xs[j] ^^^ enc^[j + 1] w.fb := by
  induction xs generalizing w j with
  | nil => simp at h
  | cons p ps ih =>
    cases j with
    | zero => simp [ofbLoop]
    | succ j =>
      simp only [List.length_cons] at h
      simp only [ofbLoop, List.getElem_cons_succ]
      rw [ih _ j (by omega), ← Function.iterate_succ_apply]

/-! ## The keystream modes -/

theorem incCounter_toNat (w : Nat) (hw : w ≤ 16) (cb : Block) (i : Nat) :
    (incCounter w cb i).toNat =
      cb.toNat / 2 ^ (8 * w) * 2 ^ (8 * w) + (cb.toNat % 2 ^ (8 * w) + i) % 2 ^ (8 * w) := by
  unfold incCounter
  rw [BitVec.toNat_ofNat, Nat.mod_eq_of_lt]
  have hpos : 0 < 2 ^ (8 * w) := by positivity
  have hlt := cb.isLt
  have hpow : (2 : Nat) ^ 128 = 2 ^ (128 - 8 * w) * 2 ^ (8 * w) := by rw [← pow_add]; congr 1; omega
  have h1 : cb.toNat / 2 ^ (8 * w) < 2 ^ (128 - 8 * w) := by
    rw [Nat.div_lt_iff_lt_mul hpos, ← hpow]
    exact hlt
  have h2 := Nat.mod_lt (cb.toNat % 2 ^ (8 * w) + i) hpos
  rw [hpow]
  nlinarith

/-- Counting up by `i` and then by `j` counts up by `i + j` (40_engine.md R143). -/
theorem incCounter_incCounter (w : Nat) (hw : w ≤ 16) (cb : Block) (i j : Nat) :
    incCounter w (incCounter w cb i) j = incCounter w cb (i + j) := by
  have hpos : 0 < 2 ^ (8 * w) := by positivity
  apply BitVec.eq_of_toNat_eq
  rw [incCounter_toNat w hw, incCounter_toNat w hw, incCounter_toNat w hw]
  have hm := Nat.mod_lt (cb.toNat % 2 ^ (8 * w) + i) hpos
  rw [Nat.add_comm (cb.toNat / 2 ^ (8 * w) * 2 ^ (8 * w)), Nat.add_mul_div_right _ _ hpos, Nat.div_eq_of_lt hm,
    Nat.add_mul_mod_self_right, Nat.mod_mod, Nat.zero_add]
  congr 1
  rw [Nat.mod_add_mod, Nat.add_assoc]

@[simp] theorem keystreamXor_length (enc : Block → Block) (width n : Nat) (w : Work) (s : Bytes) :
    (keystreamXor enc width n w s).2.length = min s.length (16 * n) := by
  induction n generalizing w s with
  | zero => simp [keystreamXor]
  | succ n ih =>
    simp only [keystreamXor, List.length_append, xorBytes_length, List.length_take, bytesOfBlock_length, ih,
      List.length_drop]
    omega

@[simp] theorem keystreamXor_keeps (enc : Block → Block) (width n : Nat) (w : Work) (s : Bytes) :
    (keystreamXor enc width n w s).1.h = w.h ∧ (keystreamXor enc width n w s).1.acc = w.acc ∧
      (keystreamXor enc width n w s).1.j0 = w.j0 ∧ (keystreamXor enc width n w s).1.mac = w.mac ∧
      (keystreamXor enc width n w s).1.tc = w.tc := by
  induction n generalizing w s with
  | zero => simp [keystreamXor]
  | succ n ih => simpa [keystreamXor] using ih { w with ks := enc w.cb, cb := incCounter width w.cb 1 } (s.drop 16)

theorem incCounter_zero (w : Nat) (hw : w ≤ 16) (cb : Block) : incCounter w cb 0 = cb := by
  apply BitVec.eq_of_toNat_eq
  rw [incCounter_toNat w hw, Nat.add_zero, Nat.mod_mod, Nat.div_add_mod']

/-- Byte `j` of the output is input byte `j` xor byte `j mod 16` of `E(k, inc_w(CB, j / 16))` (40_engine.md R144). -/
theorem keystreamXor_getElem (enc : Block → Block) (width : Nat) (hw : width ≤ 16) (n : Nat) (w : Work) (s : Bytes)
    (j : Nat) (h : j < (keystreamXor enc width n w s).2.length) :
    (keystreamXor enc width n w s).2[j] =
      s[j]'(by simp at h; omega) ^^^ blockByte (enc (incCounter width w.cb (j / 16))) (j % 16) := by
  induction n generalizing w s j with
  | zero => simp [keystreamXor] at h
  | succ n ih =>
    have hlen : j < s.length := by simp at h; omega
    simp only [keystreamXor]
    by_cases hj : j < 16
    · rw [List.getElem_append_left (by simp; omega), xorBytes_getElem, List.getElem_take, bytesOfBlock_getElem,
        Nat.div_eq_of_lt hj, Nat.mod_eq_of_lt hj, incCounter_zero width hw]
    · have hfirst : (xorBytes (s.take 16) (bytesOfBlock (enc w.cb))).length = 16 := by simp; omega
      rw [List.getElem_append_right (by omega), ih]
      simp only [hfirst, List.getElem_drop, incCounter_incCounter width hw]
      have e1 : 16 + (j - 16) = j := by omega
      have e2 : 1 + (j - 16) / 16 = j / 16 := by omega
      have e3 : (j - 16) % 16 = j % 16 := by omega
      simp only [e1, e2, e3]

/-! ## GHASH and CBC-MAC -/

theorem ghashFold (h : Block) (w : Work) (hw : w.h = h) (xs : List Block) :
    (xs.foldl (fun w x => { w with acc := gfMul (w.acc ^^^ x) w.h }) w) =
      { w with acc := xs.foldl (fun acc x => gfMul (acc ^^^ x) h) w.acc } := by
  induction xs generalizing w with
  | nil => rfl
  | cons x xs ih =>
    simp only [List.foldl_cons]
    rw [ih { w with acc := gfMul (w.acc ^^^ x) w.h } hw, hw]

/-- The working-register GHASH leaves `GHASH_H(S)` in `W.ACC` and touches nothing else (45_ghash.md R193). -/
theorem ghashRun_eq (w : Work) (s : Bytes) : ghashRun w s = { w with acc := ghashBlocks w.h (blocksOf s) } := by
  unfold ghashRun ghashBlocks
  rw [ghashFold w.h { w with acc := 0 } rfl]

theorem cbcMacFold (enc : Block → Block) (w : Work) (xs : List Block) :
    (xs.foldl (fun w x => { w with mac := enc (w.mac ^^^ x) }) w) =
      { w with mac := xs.foldl (fun acc x => enc (acc ^^^ x)) w.mac } := by
  induction xs generalizing w with
  | nil => rfl
  | cons x xs ih =>
    simp only [List.foldl_cons]
    rw [ih]

/-- The working-register CBC-MAC leaves the MAC in `W.MAC` and touches nothing else (47_ccm.md R225). -/
theorem cbcMacRun_eq (enc : Block → Block) (w : Work) (s : Bytes) :
    cbcMacRun enc w s = { w with mac := (blocksOf s).foldl (fun acc x => enc (acc ^^^ x)) 0 } := by
  unfold cbcMacRun
  rw [cbcMacFold]

end Sys2Proof.Machine
end

