-- ==== Sys2Proof/Laws/Operands.lean ====
section
/-! SUPPORT. What a command that passed validation may rely on (40_engine.md R122 to R128). -/

namespace Sys2Proof.Machine

/-- A command passes validation exactly when it passes every check of R122. -/
theorem validateCommand_ok_iff {i : Instr} {lp : Latch} :
    validateCommand i lp = .ok ↔
      ivOk i lp = true ∧ tagOk i lp = true ∧ lenOk i lp = true ∧ msgLenOk i lp = true ∧ rangesOk i lp = true ∧
        overlapOk i lp = true := by
  unfold validateCommand
  repeat' split
  all_goals simp_all

theorem validateCommand_ne_cmd (i : Instr) (lp : Latch) : validateCommand i lp ≠ .cmd := by
  unfold validateCommand
  repeat' split
  all_goals simp

theorem validateCommand_ne_bus (i : Instr) (lp : Latch) : validateCommand i lp ≠ .bus := by
  unfold validateCommand
  repeat' split
  all_goals simp

/-- `validate` is the decode check followed by the command's own checks (R122). -/
theorem validate_of_decode {lp : Latch} {i : Instr} (h : decode lp.cmd = .command i) :
    validate lp = validateCommand i lp := by simp [validate, h]

theorem validate_ok_iff {lp : Latch} :
    validate lp = .ok ↔ ∃ i, decode lp.cmd = .command i ∧ validateCommand i lp = .ok := by
  unfold validate
  split
  · rename_i i h; simp [h]
  · rename_i h; simp [h]

theorem rangesOk_iff {i : Instr} {lp : Latch} :
    rangesOk i lp = true ↔ ∀ r ∈ usedRanges i lp, r.fits = true := by simp [rangesOk]

theorem writeRanges_fit {i : Instr} {lp : Latch} (h : validateCommand i lp = .ok) :
    (writeRanges i lp).all Range.fits = true := by
  have := rangesOk_iff.mp (validateCommand_ok_iff.mp h).2.2.2.2.1
  simp only [List.all_eq_true]
  intro r hr
  exact this r (by simp [usedRanges, hr])

theorem Range.fits_iff {r : Range} : r.fits = true ↔ r.size = 0 ∨ r.base + r.size ≤ Config.memorySize := by
  simp [Range.fits]

/-- A used range that is not empty lies below the top of memory (R127). -/
theorem usedRange_bound {i : Instr} {lp : Latch} (h : validateCommand i lp = .ok) {r : Range}
    (hr : r ∈ usedRanges i lp) : r.size = 0 ∨ r.base + r.size ≤ Config.memorySize :=
  Range.fits_iff.mp (rangesOk_iff.mp (validateCommand_ok_iff.mp h).2.2.2.2.1 r hr)

/-- Of a command that passed validation a read range meets a write range only in exact in-place operation (R128). -/
theorem overlapOk_pair {i : Instr} {lp : Latch} (h : validateCommand i lp = .ok) {r w : RangeName × Range}
    (hr : r ∈ namedReadRanges i lp) (hw : w ∈ namedWriteRanges i lp) :
    inPlacePair i lp r.1 w.1 = true ∨ r.2.overlaps w.2 = false := by
  have h6 := (validateCommand_ok_iff.mp h).2.2.2.2.2
  unfold overlapOk at h6
  simp only [Bool.and_eq_true, List.all_eq_true] at h6
  simpa using h6.1 r hr w hw

theorem not_overlaps {r q : Range} (h : r.overlaps q = false) {a : Nat} (hr : r.contains a = true)
    (hq : q.contains a = true) : False := by
  rw [Range.contains_iff] at hr hq
  have : r.overlaps q = true := Range.overlaps_iff.mpr ⟨by omega, by omega, by omega, by omega⟩
  simp [h] at this

end Sys2Proof.Machine
end

