-- ==== Sys2Proof/Laws/State.lean ====
section
/-! SUPPORT. One lemma per field per update of the state, each true by unfolding, so that no later proof unfolds a record
update. -/

namespace Sys2Proof.Machine

/-! ## scrub -/
@[simp] theorem scrub_ie (s : State) : (scrub s).ie = s.ie := rfl
@[simp] theorem scrub_status (s : State) : (scrub s).status = s.status := rfl
@[simp] theorem scrub_regs (s : State) : (scrub s).regs = s.regs := rfl
@[simp] theorem scrub_work (s : State) : (scrub s).work = Work.zero := rfl
@[simp] theorem scrub_lp (s : State) : (scrub s).lp = Latch.cleared := rfl
@[simp] theorem scrub_seq (s : State) : (scrub s).seq = none := rfl
@[simp] theorem scrub_mem (s : State) : (scrub s).mem = s.mem := rfl
@[simp] theorem scrub_platform (s : State) : (scrub s).platform = s.platform := rfl
@[simp] theorem scrub_raced (s : State) : (scrub s).raced = false := rfl
@[simp] theorem scrub_draws (s : State) : (scrub s).draws = s.draws := rfl
@[simp] theorem scrub_schedule (s : State) : (scrub s).schedule = s.schedule := rfl
@[simp] theorem scrub_hostSaw (s : State) : (scrub s).hostSaw = s.hostSaw := rfl

/-! ## endCommand -/
@[simp] theorem endCommand_ie (e : Err) (af : Bool) (s : State) : (endCommand e af s).ie = s.ie := rfl
@[simp] theorem endCommand_status (e : Err) (af : Bool) (s : State) : (endCommand e af s).status = statusEnded s.status e af := rfl
@[simp] theorem endCommand_regs (e : Err) (af : Bool) (s : State) : (endCommand e af s).regs = s.regs := rfl
@[simp] theorem endCommand_work (e : Err) (af : Bool) (s : State) : (endCommand e af s).work = Work.zero := rfl
@[simp] theorem endCommand_lp (e : Err) (af : Bool) (s : State) : (endCommand e af s).lp = Latch.cleared := rfl
@[simp] theorem endCommand_seq (e : Err) (af : Bool) (s : State) : (endCommand e af s).seq = none := rfl
@[simp] theorem endCommand_mem (e : Err) (af : Bool) (s : State) : (endCommand e af s).mem = s.mem := rfl
@[simp] theorem endCommand_platform (e : Err) (af : Bool) (s : State) : (endCommand e af s).platform = s.platform := rfl
@[simp] theorem endCommand_raced (e : Err) (af : Bool) (s : State) : (endCommand e af s).raced = false := rfl
@[simp] theorem endCommand_draws (e : Err) (af : Bool) (s : State) : (endCommand e af s).draws = s.draws := rfl
@[simp] theorem endCommand_schedule (e : Err) (af : Bool) (s : State) : (endCommand e af s).schedule = s.schedule := rfl
@[simp] theorem endCommand_hostSaw (e : Err) (af : Bool) (s : State) : (endCommand e af s).hostSaw = s.hostSaw := rfl

/-! ## acceptWord -/
@[simp] theorem acceptWord_ie (v : BitVec 32) (s : State) : (acceptWord v s).ie = s.ie := rfl
@[simp] theorem acceptWord_status (v : BitVec 32) (s : State) : (acceptWord v s).status = statusAccepted s.status := rfl
@[simp] theorem acceptWord_regs (v : BitVec 32) (s : State) : (acceptWord v s).regs = s.regs := rfl
@[simp] theorem acceptWord_work (v : BitVec 32) (s : State) : (acceptWord v s).work = s.work := rfl
@[simp] theorem acceptWord_lp (v : BitVec 32) (s : State) : (acceptWord v s).lp = latch v s := rfl
@[simp] theorem acceptWord_seq (v : BitVec 32) (s : State) : (acceptWord v s).seq = s.seq := rfl
@[simp] theorem acceptWord_mem (v : BitVec 32) (s : State) : (acceptWord v s).mem = s.mem := rfl
@[simp] theorem acceptWord_platform (v : BitVec 32) (s : State) : (acceptWord v s).platform = s.platform := rfl
@[simp] theorem acceptWord_raced (v : BitVec 32) (s : State) : (acceptWord v s).raced = s.raced := rfl
@[simp] theorem acceptWord_draws (v : BitVec 32) (s : State) : (acceptWord v s).draws = s.draws := rfl
@[simp] theorem acceptWord_schedule (v : BitVec 32) (s : State) : (acceptWord v s).schedule = s.schedule := rfl
@[simp] theorem acceptWord_hostSaw (v : BitVec 32) (s : State) : (acceptWord v s).hostSaw = s.hostSaw := rfl

/-! ## startCommand -/
@[simp] theorem startCommand_ie (s : State) : (startCommand s).ie = s.ie := rfl
@[simp] theorem startCommand_status (s : State) : (startCommand s).status = { s.status with busy := true } := rfl
@[simp] theorem startCommand_regs (s : State) : (startCommand s).regs = s.regs := rfl
@[simp] theorem startCommand_work (s : State) : (startCommand s).work = s.work := rfl
@[simp] theorem startCommand_lp (s : State) : (startCommand s).lp = s.lp := rfl
@[simp] theorem startCommand_seq (s : State) : (startCommand s).seq = some ⟨0, 0⟩ := rfl
@[simp] theorem startCommand_mem (s : State) : (startCommand s).mem = s.mem := rfl
@[simp] theorem startCommand_platform (s : State) : (startCommand s).platform = s.platform := rfl
@[simp] theorem startCommand_raced (s : State) : (startCommand s).raced = false := rfl
@[simp] theorem startCommand_draws (s : State) : (startCommand s).draws = s.draws := rfl
@[simp] theorem startCommand_schedule (s : State) : (startCommand s).schedule = s.schedule := rfl
@[simp] theorem startCommand_hostSaw (s : State) : (startCommand s).hostSaw = s.hostSaw := rfl

/-! ## endBusError -/
@[simp] theorem endBusError_ie (i : Instr) (s : State) : (endBusError i s).ie = s.ie := rfl
@[simp] theorem endBusError_status (i : Instr) (s : State) : (endBusError i s).status = statusEnded s.status .bus false := rfl
@[simp] theorem endBusError_regs (i : Instr) (s : State) : (endBusError i s).regs = s.regs := rfl
@[simp] theorem endBusError_work (i : Instr) (s : State) : (endBusError i s).work = Work.zero := rfl
@[simp] theorem endBusError_lp (i : Instr) (s : State) : (endBusError i s).lp = Latch.cleared := rfl
@[simp] theorem endBusError_seq (i : Instr) (s : State) : (endBusError i s).seq = none := rfl
@[simp] theorem endBusError_mem (i : Instr) (s : State) : (endBusError i s).mem = havoc s.mem s.draws (writeRanges i s.lp) := rfl
@[simp] theorem endBusError_platform (i : Instr) (s : State) : (endBusError i s).platform = s.platform := rfl
@[simp] theorem endBusError_raced (i : Instr) (s : State) : (endBusError i s).raced = false := rfl
@[simp] theorem endBusError_draws (i : Instr) (s : State) : (endBusError i s).draws = s.draws + 1 := rfl
@[simp] theorem endBusError_schedule (i : Instr) (s : State) : (endBusError i s).schedule = s.schedule := rfl
@[simp] theorem endBusError_hostSaw (i : Instr) (s : State) : (endBusError i s).hostSaw = s.hostSaw := rfl

/-! ## endUnspecified -/
@[simp] theorem endUnspecified_ie (i : Instr) (s : State) : (endUnspecified i s).ie = s.ie := rfl
@[simp] theorem endUnspecified_status (i : Instr) (s : State) : (endUnspecified i s).status = statusEnded s.status (racedErr i s) (Config.freeBit s.draws) := rfl
@[simp] theorem endUnspecified_regs (i : Instr) (s : State) : (endUnspecified i s).regs = s.regs := rfl
@[simp] theorem endUnspecified_work (i : Instr) (s : State) : (endUnspecified i s).work = Work.zero := rfl
@[simp] theorem endUnspecified_lp (i : Instr) (s : State) : (endUnspecified i s).lp = Latch.cleared := rfl
@[simp] theorem endUnspecified_seq (i : Instr) (s : State) : (endUnspecified i s).seq = none := rfl
@[simp] theorem endUnspecified_mem (i : Instr) (s : State) : (endUnspecified i s).mem = havoc s.mem s.draws (writeRanges i s.lp) := rfl
@[simp] theorem endUnspecified_platform (i : Instr) (s : State) : (endUnspecified i s).platform = s.platform := rfl
@[simp] theorem endUnspecified_raced (i : Instr) (s : State) : (endUnspecified i s).raced = false := rfl
@[simp] theorem endUnspecified_draws (i : Instr) (s : State) : (endUnspecified i s).draws = s.draws + 2 := rfl
@[simp] theorem endUnspecified_schedule (i : Instr) (s : State) : (endUnspecified i s).schedule = s.schedule := rfl
@[simp] theorem endUnspecified_hostSaw (i : Instr) (s : State) : (endUnspecified i s).hostSaw = s.hostSaw := rfl

/-! ## endOdd -/
@[simp] theorem endOdd_ie (i : Instr) (af : Bool) (s : State) : (endOdd i af s).ie = s.ie := by
  unfold endOdd; split_ifs <;> rfl
@[simp] theorem endOdd_regs (i : Instr) (af : Bool) (s : State) : (endOdd i af s).regs = s.regs := by
  unfold endOdd; split_ifs <;> rfl
@[simp] theorem endOdd_work (i : Instr) (af : Bool) (s : State) : (endOdd i af s).work = Work.zero := by
  unfold endOdd; split_ifs <;> rfl
@[simp] theorem endOdd_lp (i : Instr) (af : Bool) (s : State) : (endOdd i af s).lp = Latch.cleared := by
  unfold endOdd; split_ifs <;> rfl
@[simp] theorem endOdd_seq (i : Instr) (af : Bool) (s : State) : (endOdd i af s).seq = none := by
  unfold endOdd; split_ifs <;> rfl
@[simp] theorem endOdd_platform (i : Instr) (af : Bool) (s : State) : (endOdd i af s).platform = s.platform := by
  unfold endOdd; split_ifs <;> rfl
@[simp] theorem endOdd_raced (i : Instr) (af : Bool) (s : State) : (endOdd i af s).raced = false := by
  unfold endOdd; split_ifs <;> rfl
@[simp] theorem endOdd_schedule (i : Instr) (af : Bool) (s : State) : (endOdd i af s).schedule = s.schedule := by
  unfold endOdd; split_ifs <;> rfl
@[simp] theorem endOdd_hostSaw (i : Instr) (af : Bool) (s : State) : (endOdd i af s).hostSaw = s.hostSaw := by
  unfold endOdd; split_ifs <;> rfl

/-! ## engineReset -/
@[simp] theorem engineReset_ie (s : State) : (engineReset s).ie = false := rfl
@[simp] theorem engineReset_status (s : State) : (engineReset s).status = Status.reset := rfl
@[simp] theorem engineReset_regs (s : State) : (engineReset s).regs = ParamRegs.reset := rfl
@[simp] theorem engineReset_work (s : State) : (engineReset s).work = Work.zero := rfl
@[simp] theorem engineReset_lp (s : State) : (engineReset s).lp = Latch.cleared := rfl
@[simp] theorem engineReset_seq (s : State) : (engineReset s).seq = none := rfl
@[simp] theorem engineReset_mem (s : State) : (engineReset s).mem = havoc s.mem s.draws (liveWriteRanges s) := rfl
@[simp] theorem engineReset_platform (s : State) : (engineReset s).platform = s.platform := rfl
@[simp] theorem engineReset_raced (s : State) : (engineReset s).raced = false := rfl
@[simp] theorem engineReset_draws (s : State) : (engineReset s).draws = s.draws + 1 := rfl
@[simp] theorem engineReset_schedule (s : State) : (engineReset s).schedule = s.schedule := rfl
@[simp] theorem engineReset_hostSaw (s : State) : (engineReset s).hostSaw = s.hostSaw := rfl

/-! ## hostWriteByte -/
@[simp] theorem hostWriteByte_ie (a : BitVec 32) (b : BitVec 8) (s : State) : (hostWriteByte a b s).ie = s.ie := rfl
@[simp] theorem hostWriteByte_status (a : BitVec 32) (b : BitVec 8) (s : State) : (hostWriteByte a b s).status = s.status := rfl
@[simp] theorem hostWriteByte_regs (a : BitVec 32) (b : BitVec 8) (s : State) : (hostWriteByte a b s).regs = s.regs := rfl
@[simp] theorem hostWriteByte_work (a : BitVec 32) (b : BitVec 8) (s : State) : (hostWriteByte a b s).work = s.work := rfl
@[simp] theorem hostWriteByte_lp (a : BitVec 32) (b : BitVec 8) (s : State) : (hostWriteByte a b s).lp = s.lp := rfl
@[simp] theorem hostWriteByte_seq (a : BitVec 32) (b : BitVec 8) (s : State) : (hostWriteByte a b s).seq = s.seq := rfl
@[simp] theorem hostWriteByte_mem (a : BitVec 32) (b : BitVec 8) (s : State) : (hostWriteByte a b s).mem = writeByte s.mem a.toNat b := rfl
@[simp] theorem hostWriteByte_platform (a : BitVec 32) (b : BitVec 8) (s : State) : (hostWriteByte a b s).platform = s.platform := rfl
@[simp] theorem hostWriteByte_raced (a : BitVec 32) (b : BitVec 8) (s : State) : (hostWriteByte a b s).raced = (s.raced || inRanges (liveUsedRanges s) a.toNat) := rfl
@[simp] theorem hostWriteByte_draws (a : BitVec 32) (b : BitVec 8) (s : State) : (hostWriteByte a b s).draws = s.draws := rfl
@[simp] theorem hostWriteByte_schedule (a : BitVec 32) (b : BitVec 8) (s : State) : (hostWriteByte a b s).schedule = s.schedule := rfl
@[simp] theorem hostWriteByte_hostSaw (a : BitVec 32) (b : BitVec 8) (s : State) : (hostWriteByte a b s).hostSaw = s.hostSaw := rfl

/-! ## The flags -/

@[simp] theorem statusEnded_busy (st : Status) (e : Err) (af : Bool) : (statusEnded st e af).busy = false := rfl
@[simp] theorem statusEnded_done (st : Status) (e : Err) (af : Bool) : (statusEnded st e af).done = true := rfl
@[simp] theorem statusEnded_authFail (st : Status) (e : Err) (af : Bool) : (statusEnded st e af).authFail = af := rfl
@[simp] theorem statusEnded_err (st : Status) (e : Err) (af : Bool) : (statusEnded st e af).err = e := rfl
@[simp] theorem statusEnded_cmdOvr (st : Status) (e : Err) (af : Bool) : (statusEnded st e af).cmdOvr = st.cmdOvr := rfl
@[simp] theorem statusAccepted_busy (st : Status) : (statusAccepted st).busy = st.busy := rfl
@[simp] theorem statusAccepted_done (st : Status) : (statusAccepted st).done = false := rfl
@[simp] theorem statusAccepted_authFail (st : Status) : (statusAccepted st).authFail = false := rfl
@[simp] theorem statusAccepted_err (st : Status) : (statusAccepted st).err = .ok := rfl
@[simp] theorem statusAccepted_cmdOvr (st : Status) : (statusAccepted st).cmdOvr = st.cmdOvr := rfl
@[simp] theorem statusWrite_busy (st : Status) (v : BitVec 32) : (statusWrite st v).busy = st.busy := rfl
@[simp] theorem statusWrite_authFail (st : Status) (v : BitVec 32) : (statusWrite st v).authFail = st.authFail := rfl
@[simp] theorem statusWrite_err (st : Status) (v : BitVec 32) : (statusWrite st v).err = st.err := rfl

end Sys2Proof.Machine
end

