-- ==== Sys2Proof/Laws/Sequencer.lean ====
section
/-! SUPPORT. What `exec` can do, said once: acceptance or completion, and the ways a completion ends (40_engine.md R120 to
R139). -/

namespace Sys2Proof.Machine

/-- The rule of each command, as its meaning runs it. -/
def ruleOf : Instr → Rule
  | .cbcEnc => ruleCbcEnc
  | .cbcDec => ruleCbcDec
  | .cfbEnc => ruleCfbEnc
  | .cfbDec => ruleCfbDec
  | .ofb => ruleOfb
  | .ctr => ruleCtr 4
  | .ctrC64 => ruleCtr 8
  | .ghash => ruleGhash
  | .ghashHmem => ruleGhashHmem
  | .gcmEnc => ruleGcmEnc
  | .gcmDec => ruleGcmDec
  | .ccmEnc => ruleCcmEnc
  | .ccmDec => ruleCcmDec

/-- Every meaning is the sequencer on the command's own rule. -/
theorem exec_eq (i : Instr) (s : State) : exec i s = runCommand Config.cipherPort i (ruleOf i) s := by
  cases i <;> rfl

/-- If `exec` answers a next state, the command was accepted by an idle engine or completed by a busy one. -/
theorem exec_next_cases {i : Instr} {s t : State} (h : exec i s = .next t) :
    (s.status.busy = false ∧ t = acceptCommand i s) ∨
      (s.status.busy = true ∧ validateCommand i s.lp = .ok ∧
        t = completeCommand Config.cipherPort i (ruleOf i) s) := by
  rw [exec_eq, runCommand] at h
  by_cases hb : s.status.busy = true
  · rw [if_pos hb] at h
    by_cases hv : validateCommand i s.lp = .ok
    · rw [if_pos hv] at h
      exact .inr ⟨hb, hv, (Host.Outcome.next.inj h).symm⟩
    · rw [if_neg hv] at h
      cases h
  · rw [if_neg hb] at h
    exact .inl ⟨by simpa using hb, (Host.Outcome.next.inj h).symm⟩

theorem exec_idle {i : Instr} {s : State} (h : s.status.busy = false) : exec i s = .next (acceptCommand i s) := by
  rw [exec_eq, runCommand, if_neg (by simp [h])]

theorem exec_busy {i : Instr} {s : State} (h : s.status.busy = true) (hv : validateCommand i s.lp = .ok) :
    exec i s = .next (completeCommand Config.cipherPort i (ruleOf i) s) := by
  rw [exec_eq, runCommand, if_pos h, if_pos hv]

/-- Acceptance either starts the command or ends it with its validation error (R122, R129, R130). -/
theorem acceptCommand_ok {i : Instr} {s : State} (h : validateCommand i (latch (encode i) s) = .ok) :
    acceptCommand i s = startCommand (acceptWord (encode i) s) := by
  simp [acceptCommand, h]

theorem acceptCommand_error {i : Instr} {s : State} (h : validateCommand i (latch (encode i) s) ≠ .ok) :
    acceptCommand i s =
      endCommand (validateCommand i (latch (encode i) s)) false (acceptWord (encode i) s) := by
  unfold acceptCommand
  split
  · rename_i h'; exact absurd h' h
  · rfl

/-- The ways a completion ends: unspecified (20_memory.md R88), a bus error at a read byte (R132), with open outputs where a
used byte is not ordinary memory (20_memory.md R79), a tag mismatch (R136), a bus error at a write byte (R132), a finish
with the outputs written (R139). -/
theorem completeCommand_cases (c : Config.CipherPort) (i : Instr) (rule : Rule) (s : State) :
    (s.raced = true ∧ completeCommand c i rule s = endUnspecified i s) ∨
    (s.raced = false ∧ allBytes (readRanges i s.lp) (busOK s.platform) = false ∧
      completeCommand c i rule s = endBusError i s) ∨
    (s.raced = false ∧ allBytes (readRanges i s.lp) (busOK s.platform) = true ∧
      allBytes (usedRanges i s.lp) (ordinaryByte s.platform) = false ∧
      completeCommand c i rule s =
        endOdd i (rule c s.lp s.mem s.work).authFail { s with work := (rule c s.lp s.mem s.work).work }) ∨
    (s.raced = false ∧ allBytes (readRanges i s.lp) (busOK s.platform) = true ∧
      allBytes (usedRanges i s.lp) (ordinaryByte s.platform) = true ∧
      (((rule c s.lp s.mem s.work).authFail = true ∧
          completeCommand c i rule s = endCommand .ok true { s with work := (rule c s.lp s.mem s.work).work }) ∨
       ((rule c s.lp s.mem s.work).authFail = false ∧
          allBytes (writeRanges i s.lp) (busOK s.platform) = false ∧
          completeCommand c i rule s = endBusError i { s with work := (rule c s.lp s.mem s.work).work }) ∨
       ((rule c s.lp s.mem s.work).authFail = false ∧
          allBytes (writeRanges i s.lp) (busOK s.platform) = true ∧
          completeCommand c i rule s =
            endCommand .ok false { s with work := (rule c s.lp s.mem s.work).work,
                                          mem := memWriteAll s.mem (rule c s.lp s.mem s.work).writes }))) := by
  unfold completeCommand
  cases h1 : s.raced
  case true => exact .inl ⟨rfl, by simp⟩
  cases h2 : allBytes (readRanges i s.lp) (busOK s.platform)
  case false => exact .inr (.inl ⟨rfl, rfl, by simp⟩)
  cases h3 : allBytes (usedRanges i s.lp) (ordinaryByte s.platform)
  case false => exact .inr (.inr (.inl ⟨rfl, rfl, rfl, by simp⟩))
  refine .inr (.inr (.inr ⟨rfl, rfl, rfl, ?_⟩))
  cases h4 : (rule c s.lp s.mem s.work).authFail
  case true => exact .inl ⟨rfl, by simp [h4]⟩
  cases h5 : allBytes (writeRanges i s.lp) (busOK s.platform)
  case false => exact .inr (.inl ⟨rfl, rfl, by simp [h4]⟩)
  exact .inr (.inr ⟨rfl, rfl, by simp [h4]⟩)

/-- The ways a command with a used byte that is not ordinary memory ends (20_memory.md R79). -/
theorem endOdd_cases (i : Instr) (af : Bool) (s : State) :
    (oddAuthFail i af s = true ∧ endOdd i af s = endCommand .ok true { s with draws := s.draws + 1 }) ∨
    (oddAuthFail i af s = false ∧ allBytes (writeRanges i s.lp) (busOK s.platform) = false ∧
      endOdd i af s = endBusError i s) ∨
    (oddAuthFail i af s = false ∧ allBytes (writeRanges i s.lp) (busOK s.platform) = true ∧
      endOdd i af s =
        endCommand .ok false { s with mem := havoc s.mem s.draws (writeRanges i s.lp), draws := s.draws + 1 }) := by
  unfold endOdd
  cases oddAuthFail i af s
  case true => exact .inl ⟨rfl, by simp⟩
  cases allBytes (writeRanges i s.lp) (busOK s.platform)
  case false => exact .inr (.inl ⟨rfl, rfl, by simp⟩)
  exact .inr (.inr ⟨rfl, rfl, by simp⟩)

/-- A command that checks no tag never reports a mismatch (10_state.md R48, R60). -/
theorem oddAuthFail_checksTag {i : Instr} {af : Bool} {s : State} (h : oddAuthFail i af s = true) : checksTag i = true := by
  simp only [oddAuthFail, Bool.and_eq_true] at h
  exact h.1

end Sys2Proof.Machine
end

