-- ==== Sys2Proof/Laws/Rules.lean ====
section
/-! SUPPORT. What a command's rule writes, for all commands at once: exactly its write ranges, or nothing on a tag mismatch
(40_engine.md R126, R136), and what a clean run of the command therefore does. -/

namespace Sys2Proof.Machine

theorem tagLen_le {i : Instr} {lp : Latch} (h : validateCommand i lp = .ok)
    (hi : i = .gcmEnc ∨ i = .gcmDec ∨ i = .ccmEnc ∨ i = .ccmDec) : lp.tagLen.toNat ≤ 16 := by
  have ht := (validateCommand_ok_iff.mp h).2.1
  rcases hi with rfl | rfl | rfl | rfl <;> simp [tagOk] at ht <;> omega

theorem ivLen_eq {i : Instr} {lp : Latch} (h : validateCommand i lp = .ok)
    (hi : i = .cbcEnc ∨ i = .cbcDec ∨ i = .cfbEnc ∨ i = .cfbDec ∨ i = .ofb ∨ i = .ctr ∨ i = .ctrC64 ∨ i = .ghashHmem) :
    lp.ivLen.toNat = 16 := by
  have ht := (validateCommand_ok_iff.mp h).1
  rcases hi with rfl | rfl | rfl | rfl | rfl | rfl | rfl | rfl <;> simpa [ivOk] using ht

theorem len_mod {i : Instr} {lp : Latch} (h : validateCommand i lp = .ok)
    (hi : i = .cbcEnc ∨ i = .cbcDec ∨ i = .cfbEnc ∨ i = .cfbDec ∨ i = .ofb ∨ i = .ghash ∨ i = .ghashHmem) :
    lp.len.toNat % 16 = 0 := by
  have ht := (validateCommand_ok_iff.mp h).2.2.1
  rcases hi with rfl | rfl | rfl | rfl | rfl | rfl | rfl <;> simpa [lenOk] using ht

theorem tagBytes_length (w : Work) {t : Nat} (h : t ≤ 16) : (tagBytes w t).length = t := by simp [tagBytes]; omega

theorem blockCount_bound (n : Nat) : n ≤ 16 * blockCount n := by unfold blockCount; omega

@[simp] theorem gcmCtr_length (enc : Block → Block) (w : Work) (s : Bytes) : (gcmCtr enc w s).2.length = s.length := by
  simp [gcmCtr, blockCount_bound]

@[simp] theorem ccmCtr_length (enc : Block → Block) (l : Nat) (w : Work) (s : Bytes) :
    (ccmCtr enc l w s).2.length = s.length := by
  simp [ccmCtr, blockCount_bound]

/-- `openRule` either writes its second pass to OUTR or reports AUTH_FAIL and writes nothing. -/
theorem openRule_cases (lp : Latch) (m : Mem) (w : Work) (p : Work × Bytes) :
    (tagBytes w lp.tagLen.toNat = memRead m lp.tagAddr.toNat lp.tagLen.toNat ∧
      openRule lp m w p = { work := p.1, writes := [(lp.outAddr.toNat, p.2)], authFail := false }) ∨
    (tagBytes w lp.tagLen.toNat ≠ memRead m lp.tagAddr.toNat lp.tagLen.toNat ∧
      openRule lp m w p = { work := w, writes := [], authFail := true }) := by
  by_cases h : tagBytes w lp.tagLen.toNat = memRead m lp.tagAddr.toNat lp.tagLen.toNat
  · exact .inl ⟨h, by simp [openRule, tagEq, h]⟩
  · exact .inr ⟨h, by simp [openRule, tagEq, h]⟩

/-- A rule reports AUTH_FAIL only for a command that checks a tag, and then writes nothing (40_engine.md R136). -/
theorem rule_authFail {i : Instr} {c : Config.CipherPort} {lp : Latch} {m : Mem} {w : Work}
    (h : (ruleOf i c lp m w).authFail = true) : checksTag i = true ∧ (ruleOf i c lp m w).writes = [] := by
  cases i
  case gcmDec =>
    refine ⟨rfl, ?_⟩
    simp only [ruleOf, ruleGcmDec] at h ⊢
    generalize gcmAuth _ _ _ _ = w' at h ⊢
    generalize gcmCtr _ _ _ = p at h ⊢
    rcases openRule_cases lp m w' p with ⟨-, h'⟩ | ⟨-, h'⟩ <;> simp [h'] at h ⊢
  case ccmDec =>
    refine ⟨rfl, ?_⟩
    simp only [ruleOf, ruleCcmDec] at h ⊢
    generalize ccmTag _ _ = w' at h ⊢
    generalize ccmCtr _ _ _ _ = p at h ⊢
    rcases openRule_cases lp m w' p with ⟨-, h'⟩ | ⟨-, h'⟩ <;> simp [h'] at h ⊢
  all_goals exact absurd h (by
    simp [ruleOf, ruleCbcEnc, ruleCbcDec, ruleCfbEnc, ruleCfbDec, ruleOfb, ruleCtr, ruleGhash, ruleGhashHmem, ruleGcmEnc,
      ruleCcmEnc, feedbackRule, ghashFrom])

/-- A rule that does not report AUTH_FAIL writes exactly the command's write ranges (40_engine.md R126, R136). -/
theorem rule_writes {i : Instr} {c : Config.CipherPort} {lp : Latch} {m : Mem} {w : Work}
    (hv : validateCommand i lp = .ok) (h : (ruleOf i c lp m w).authFail = false) :
    (ruleOf i c lp m w).writes.map (fun x => (⟨x.1, x.2.length⟩ : Range)) = writeRanges i lp := by
  have hmod : lp.len.toNat ≤ 16 * blockCount lp.len.toNat := blockCount_bound _
  have hb : ∀ n : Nat, n % 16 = 0 → 16 * (n / 16) = n := by intro n hn; omega
  cases i
  case cbcEnc => simp [ruleOf, ruleCbcEnc, feedbackRule, writeRanges, namedWriteRanges, outRange, hb _ (len_mod hv (by simp))]
  case cbcDec => simp [ruleOf, ruleCbcDec, feedbackRule, writeRanges, namedWriteRanges, outRange, hb _ (len_mod hv (by simp))]
  case cfbEnc => simp [ruleOf, ruleCfbEnc, feedbackRule, writeRanges, namedWriteRanges, outRange, hb _ (len_mod hv (by simp))]
  case cfbDec => simp [ruleOf, ruleCfbDec, feedbackRule, writeRanges, namedWriteRanges, outRange, hb _ (len_mod hv (by simp))]
  case ofb => simp [ruleOf, ruleOfb, feedbackRule, writeRanges, namedWriteRanges, outRange, hb _ (len_mod hv (by simp))]
  case ctr => simpa [ruleOf, ruleCtr, writeRanges, namedWriteRanges, outRange] using hmod
  case ctrC64 => simpa [ruleOf, ruleCtr, writeRanges, namedWriteRanges, outRange] using hmod
  case ghash => simp [ruleOf, ruleGhash, ghashFrom, writeRanges, namedWriteRanges, outBlockRange]
  case ghashHmem => simp [ruleOf, ruleGhashHmem, ghashFrom, writeRanges, namedWriteRanges, outBlockRange]
  case gcmEnc =>
    simp [ruleOf, ruleGcmEnc, writeRanges, namedWriteRanges, outRange, tagRange, tagBytes_length _ (tagLen_le hv (by simp))]
  case gcmDec =>
    simp only [ruleOf, ruleGcmDec] at h ⊢
    have hl := fun w' => gcmCtr_length (c.encrypt lp.keyh) w' (memRead m lp.inAddr.toNat lp.len.toNat)
    generalize gcmAuth _ _ _ _ = w' at h hl ⊢
    rcases openRule_cases lp m w' (gcmCtr (c.encrypt lp.keyh) w' (memRead m lp.inAddr.toNat lp.len.toNat)) with
      ⟨-, h'⟩ | ⟨-, h'⟩ <;> simp [h', writeRanges, namedWriteRanges, outRange] at h ⊢
  case ccmEnc =>
    simp [ruleOf, ruleCcmEnc, writeRanges, namedWriteRanges, outRange, tagRange, tagBytes_length _ (tagLen_le hv (by simp))]
  case ccmDec =>
    simp only [ruleOf, ruleCcmDec] at h ⊢
    generalize ccmTag _ _ = w' at h ⊢
    rcases openRule_cases lp m w' (ccmCtr (c.encrypt lp.keyh) (ccmL lp) w' (memRead m lp.inAddr.toNat lp.len.toNat)) with
      ⟨-, h'⟩ | ⟨-, h'⟩ <;> simp [h', writeRanges, namedWriteRanges, outRange] at h ⊢

/-- Writing byte strings whose ranges are `rs` leaves every byte outside `rs` alone. -/
theorem memWriteAll_outside {m : Mem} {ws : List (Nat × Bytes)} {rs : List Range}
    (h : ws.map (fun x => (⟨x.1, x.2.length⟩ : Range)) = rs) {a : Nat} (ha : inRanges rs a = false) :
    readByte (memWriteAll m ws) a = readByte m a := by
  apply readByte_memWriteAll_other
  intro w hw
  rw [← h, inRanges_false_iff] at ha
  have := ha ⟨w.1, w.2.length⟩ (List.mem_map.mpr ⟨w, hw, rfl⟩)
  simp [Range.contains] at this
  omega

theorem lt_memorySize (a : BitVec 32) : a.toNat < Config.memorySize := a.isLt

theorem writeRange_base_lt {i : Instr} {lp : Latch} {r : Range} (h : r ∈ writeRanges i lp) :
    r.base < Config.memorySize := by
  cases i <;> simp [writeRanges, namedWriteRanges, outRange, outBlockRange, tagRange] at h <;>
    first | (subst h; exact lt_memorySize _) | (rcases h with rfl | rfl <;> exact lt_memorySize _)

/-- Writing byte strings whose ranges are a validated command's write ranges keeps the canonical form. -/
theorem memWriteAll_wf_of_ranges {m : Mem} {ws : List (Nat × Bytes)} {i : Instr} {lp : Latch} (hm : Mem.wf m = true)
    (hv : validateCommand i lp = .ok) (h : ws.map (fun x => (⟨x.1, x.2.length⟩ : Range)) = writeRanges i lp) :
    Mem.wf (memWriteAll m ws) = true := by
  apply memWriteAll_wf hm
  intro w hw
  have hr : (⟨w.1, w.2.length⟩ : Range) ∈ writeRanges i lp := by
    rw [← h]
    exact List.mem_map.mpr ⟨w, hw, rfl⟩
  have h1 := usedRange_bound hv (r := ⟨w.1, w.2.length⟩) (by simp [usedRanges, hr])
  have h2 := writeRange_base_lt hr
  rcases h1 with h1 | h1
  · simp only at h1 h2
    omega
  · exact h1

/-! ## A clean run -/

theorem Undisturbed.ordinary {i : Instr} {s : State} (h : Undisturbed i s) :
    allBytes (usedRanges i s.lp) (ordinaryByte s.platform) = true := allBytes_iff.mpr h.2

theorem ReadsAnswered.all {i : Instr} {s : State} (h : ReadsAnswered i s) :
    allBytes (readRanges i s.lp) (busOK s.platform) = true := allBytes_iff.mpr h

theorem WritesAnswered.all {i : Instr} {s : State} (h : WritesAnswered i s) :
    allBytes (writeRanges i s.lp) (busOK s.platform) = true := allBytes_iff.mpr h

/-- What an undisturbed command whose read bytes answer does: its rule decides (40_engine.md R131, R132, R136, R139). -/
theorem exec_undisturbed {i : Instr} {s : State} (hr : Running i s) (hu : Undisturbed i s) (ha : ReadsAnswered i s) :
    exec i s = .next
      (if (ruleOf i Config.cipherPort s.lp s.mem s.work).authFail then
        endCommand .ok true { s with work := (ruleOf i Config.cipherPort s.lp s.mem s.work).work }
      else if allBytes (writeRanges i s.lp) (busOK s.platform) then
        endCommand .ok false { s with work := (ruleOf i Config.cipherPort s.lp s.mem s.work).work,
                                      mem := memWriteAll s.mem (ruleOf i Config.cipherPort s.lp s.mem s.work).writes }
      else endBusError i { s with work := (ruleOf i Config.cipherPort s.lp s.mem s.work).work }) := by
  rw [exec_busy hr.1 hr.2, completeCommand]
  simp only [hu.1, hu.ordinary, ha.all, Bool.not_true, Bool.false_eq_true, if_false]
  cases allBytes (writeRanges i s.lp) (busOK s.platform) <;> simp

theorem ended_endCommand (e : Err) (af : Bool) (s : State) (w : Work) (m : Mem) :
    Ended s (endCommand e af { s with work := w, mem := m }) e af :=
  ⟨rfl, rfl, rfl, rfl, rfl, rfl, rfl, rfl, rfl, rfl⟩

theorem finished_endCommand (af : Bool) (s : State) (w : Work) (m : Mem) :
    Finished s (endCommand .ok af { s with work := w, mem := m }) af := ⟨ended_endCommand _ _ _ _ _, rfl⟩

/-- A clean run whose rule does not report AUTH_FAIL finishes with the rule's outputs written (40_engine.md R136, R139). -/
theorem exec_clean {i : Instr} {s : State} (h : Clean i s)
    (haf : (ruleOf i Config.cipherPort s.lp s.mem s.work).authFail = false) :
    ∃ t, exec i s = .next t ∧ Finished s t false ∧
      t.mem = memWriteAll s.mem (ruleOf i Config.cipherPort s.lp s.mem s.work).writes ∧
      SameOutside (writeRanges i s.lp) s t := by
  refine ⟨_, exec_undisturbed h.running h.undisturbed h.reads, ?_⟩
  simp only [haf, h.writes.all, if_true, Bool.false_eq_true, if_false]
  exact ⟨finished_endCommand _ _ _ _, rfl, fun a ha => memWriteAll_outside (rule_writes h.running.2 haf) ha⟩

end Sys2Proof.Machine
end

