-- ==== Sys2Proof/Laws/Modes.lean ====
section
/-! SUPPORT. The closed forms of the shared mode operations, and what a command's rule depends on (40_engine.md R131,
46_gcm.md R200 to R204, 47_ccm.md R225 to R228). -/

namespace Sys2Proof.Machine

/-! ## Output buffers -/

/-- Byte `j` of a byte string just written. -/
theorem readByte_memWrite_add {m : Mem} (hm : Mem.wf m = true) (a : Nat) (bs : Bytes) (j : Nat) (hj : j < bs.length)
    (hf : a + bs.length ≤ Config.memorySize) : readByte (memWrite m a bs) (a + j) = bs[j] := by
  rw [readByte_memWrite_same hm _ _ _ (by omega) (by omega) hf]
  congr 1
  omega

/-- Block `j` of a sequence of blocks just written (20_memory.md R74). -/
theorem memBlock_memWrite_blocks {m : Mem} (hm : Mem.wf m = true) (a : Nat) (bs : List Block) (j : Nat)
    (hj : j < bs.length) (hf : a + 16 * bs.length ≤ Config.memorySize) :
    memBlock (memWrite m a (bytesOfBlocks bs)) (a + 16 * j) = bs[j] := by
  apply block_ext
  intro i hi
  rw [blockByte_memBlock _ _ _ hi, readByte_memWrite_same hm _ _ _ (by omega) (by simp; omega) (by simpa using hf),
    bytesOfBlocks_getElem]
  congr 1
  · congr 1
    omega
  · omega

/-! ## GCM and CCM -/

/-- `W.H` and `W.J0` after the start of GCM (46_gcm.md R200, R201). -/
theorem gcmStart_eq (k : Word) (iv : Bytes) (w : Work) :
    (gcmStart (Config.cipherPort.encrypt k) iv w).h = encryptBlock k 0 ∧
      (gcmStart (Config.cipherPort.encrypt k) iv w).j0 = gcmJ0 k iv := by
  unfold gcmStart gcmJ0
  split
  · exact ⟨rfl, rfl⟩
  · simp only [ghashRun_eq]
    exact ⟨rfl, rfl⟩

/-- Byte `j` of GCTR (46_gcm.md R202). -/
theorem gcmCtr_getElem (enc : Block → Block) (w : Work) (s : Bytes) (j : Nat) (h : j < s.length) :
    (gcmCtr enc w s).2[j]'(by simpa using h) =
      s[j] ^^^ blockByte (enc (incCounter 4 (incCounter 4 w.j0 1) (j / 16))) (j % 16) := by
  unfold gcmCtr
  exact keystreamXor_getElem _ _ (by simp) _ _ _ _ _

/-- The authentication value of GCM in `W.TC` (46_gcm.md R203, R204). -/
theorem gcmAuth_tc (k : Word) (iv aad ct : Bytes) (w : Work) (hh : w.h = encryptBlock k 0) (hj : w.j0 = gcmJ0 k iv) :
    (gcmAuth (Config.cipherPort.encrypt k) aad ct w).tc = gcmTagBlock k iv aad ct := by
  simp only [gcmAuth, ghashRun_eq, hh, hj]
  rfl

/-- Byte `j` of CCTR (47_ccm.md R226, R227). -/
theorem ccmCtr_getElem (enc : Block → Block) (l : Nat) (w : Work) (s : Bytes) (j : Nat) (hl : l ≤ 16)
    (h : j < s.length) :
    (ccmCtr enc l w s).2[j]'(by simpa using h) =
      s[j] ^^^ blockByte (enc (incCounter l (incCounter l w.j0 1) (j / 16))) (j % 16) := by
  unfold ccmCtr
  exact keystreamXor_getElem _ _ hl _ _ _ _ _

/-- CCTR depends on the working registers only through `W.J0`. -/
theorem ccmCtr_congr {enc : Block → Block} {l : Nat} {w w' : Work} {s : Bytes} (hl : l ≤ 16) (h : w.j0 = w'.j0) :
    (ccmCtr enc l w s).2 = (ccmCtr enc l w' s).2 := by
  apply List.ext_getElem (by simp)
  intro j h1 h2
  rw [ccmCtr_getElem _ _ _ _ _ hl (by simpa using h1), ccmCtr_getElem _ _ _ _ _ hl (by simpa using h1), h]

/-- The MAC of CCM in `W.MAC` (47_ccm.md R225). -/
theorem ccmMac_eq (k : Word) (nonce aad pt : Bytes) (t : Nat) (w : Work) :
    ccmMac (Config.cipherPort.encrypt k) nonce aad pt t w =
      { w with mac := cbcMacBlocks k
                        (blocksOf (ccmB0 nonce aad.length pt.length t ++ ccmAadBlocks aad ++ pad16 pt)) } := by
  unfold ccmMac
  rw [cbcMacRun_eq]
  rfl

/-- GCM_DEC reports AUTH_FAIL exactly when the supplied tag is not the one it computes (46_gcm.md R206). -/
theorem ruleGcmDec_authFail (lp : Latch) (m : Mem) (w : Work) :
    (ruleGcmDec Config.cipherPort lp m w).authFail = true ↔
      memRead m lp.tagAddr.toNat lp.tagLen.toNat ≠
        (bytesOfBlock (gcmTagBlock lp.keyh (memRead m lp.ivAddr.toNat lp.ivLen.toNat)
          (memRead m lp.aadAddr.toNat lp.aadLen.toNat) (memRead m lp.inAddr.toNat lp.len.toNat))).take
          lp.tagLen.toNat := by
  obtain ⟨hh, hj⟩ := gcmStart_eq lp.keyh (memRead m lp.ivAddr.toNat lp.ivLen.toNat) w
  rw [← gcmAuth_tc lp.keyh _ (memRead m lp.aadAddr.toNat lp.aadLen.toNat) (memRead m lp.inAddr.toNat lp.len.toNat) _ hh hj]
  unfold ruleGcmDec
  simp only
  rcases openRule_cases lp m
      (gcmAuth (Config.cipherPort.encrypt lp.keyh) (memRead m lp.aadAddr.toNat lp.aadLen.toNat)
        (memRead m lp.inAddr.toNat lp.len.toNat)
        (gcmStart (Config.cipherPort.encrypt lp.keyh) (memRead m lp.ivAddr.toNat lp.ivLen.toNat) w))
      (gcmCtr (Config.cipherPort.encrypt lp.keyh)
        (gcmAuth (Config.cipherPort.encrypt lp.keyh) (memRead m lp.aadAddr.toNat lp.aadLen.toNat)
          (memRead m lp.inAddr.toNat lp.len.toNat)
          (gcmStart (Config.cipherPort.encrypt lp.keyh) (memRead m lp.ivAddr.toNat lp.ivLen.toNat) w))
        (memRead m lp.inAddr.toNat lp.len.toNat)) with ⟨h1, h2⟩ | ⟨h1, h2⟩
  · rw [h2]
    simpa [tagBytes] using h1.symm
  · rw [h2]
    simpa [tagBytes] using fun h => h1 h.symm

/-- Every running CCM_DEC opens to some plaintext (47_ccm.md R227). -/
theorem exists_ccmOpensTo (s : State) : ∃ pt, CcmOpensTo s pt :=
  ⟨(List.range s.lp.len.toNat).map fun j => readByte s.mem (s.lp.inAddr.toNat + j) ^^^
      keystreamByte s.lp.keyh (15 - s.lp.ivLen.toNat)
        (incCounter (15 - s.lp.ivLen.toNat) (ccmA0Block (ivBytes s)) 1) j,
    by simp, fun j hj => by simp [hj]⟩

/-- The first pass of CCM_DEC computes the plaintext the command opens to (47_ccm.md R227, R230). -/
theorem CcmOpensTo.eq_ccmCtr {s : State} {pt : Bytes} (h : CcmOpensTo s pt) {w : Work}
    (hj : w.j0 = ccmA0Block (ivBytes s)) :
    (ccmCtr (Config.cipherPort.encrypt s.lp.keyh) (ccmL s.lp) w (inBytes s)).2 = pt := by
  have hlen : (inBytes s).length = s.lp.len.toNat := by simp [inBytes]
  apply List.ext_getElem (by rw [ccmCtr_length, hlen, h.1])
  intro j h1 h2
  have hjl : j < s.lp.len.toNat := h.1 ▸ h2
  rw [ccmCtr_getElem _ _ _ _ _ (by unfold ccmL; omega) (by omega), hj]
  have := h.2 j hjl
  rw [List.getElem?_eq_getElem h2, Option.some.injEq] at this
  rw [this]
  congr 1
  exact memRead_getElem _ _ _ _ _

/-- CCM_DEC reports AUTH_FAIL exactly when the supplied tag is not the one it computes over the plaintext it opens to
(47_ccm.md R230). -/
theorem ruleCcmDec_authFail {s : State} {pt : Bytes} (h : CcmOpensTo s pt) (w : Work) :
    (ruleCcmDec Config.cipherPort s.lp s.mem w).authFail = true ↔ tagBufBytes s ≠ ccmTagFor s pt := by
  have hpt := h.eq_ccmCtr (w := { w with j0 := ccmA0Block (ivBytes s) }) rfl
  have hj0 : (ccmCtr (Config.cipherPort.encrypt s.lp.keyh) (ccmL s.lp) { w with j0 := ccmA0Block (ivBytes s) }
      (inBytes s)).1.j0 = ccmA0Block (ivBytes s) := (keystreamXor_keeps _ _ _ _ _).2.2.1
  unfold ruleCcmDec
  simp only
  rcases openRule_cases s.lp s.mem _ _ with ⟨h1, h2⟩ | ⟨h1, h2⟩ <;> rw [h2] <;>
    simp only [tagBytes, ccmTag, ccmMac_eq] at h1 <;>
    rw [show memRead s.mem s.lp.inAddr.toNat s.lp.len.toNat = inBytes s from rfl,
      show blockOfBytes (ccmA0 (memRead s.mem s.lp.ivAddr.toNat s.lp.ivLen.toNat)) = ccmA0Block (ivBytes s) from rfl,
      hpt, hj0] at h1
  · exact ⟨fun h' => by simp at h', fun h' => absurd h1.symm h'⟩
  · exact ⟨fun _ h' => h1 h'.symm, fun _ => rfl⟩

/-! ## What a rule depends on -/

theorem memRead_of_range {m m' : Mem} {rs : List Range} {a n : Nat}
    (h : ∀ x, inRanges rs x = true → readByte m x = readByte m' x) (hr : (⟨a, n⟩ : Range) ∈ rs) :
    memRead m a n = memRead m' a n :=
  memRead_congr fun i hi => h _ (inRanges_iff.mpr ⟨_, hr, by simp [Range.contains]; omega⟩)

/-- A rule reads memory only in the command's read ranges (40_engine.md R126, R131). -/
theorem rule_memory {i : Instr} {c : Config.CipherPort} {lp : Latch} {m m' : Mem} {w : Work}
    (h : ∀ a, inRanges (readRanges i lp) a = true → readByte m a = readByte m' a) :
    ruleOf i c lp m w = ruleOf i c lp m' w := by
  have hi : inRange lp ∈ readRanges i lp := by cases i <;> simp [readRanges, namedReadRanges]
  have hin : memRead m lp.inAddr.toNat lp.len.toNat = _ := memRead_of_range h hi
  have hiv := fun hr => memRead_of_range (a := lp.ivAddr.toNat) (n := lp.ivLen.toNat) h hr
  have hib := fun hr => memRead_of_range (a := lp.ivAddr.toNat) (n := 16) h hr
  have haad := fun hr => memRead_of_range (a := lp.aadAddr.toNat) (n := lp.aadLen.toNat) h hr
  have htag := fun hr => memRead_of_range (a := lp.tagAddr.toNat) (n := lp.tagLen.toNat) h hr
  cases i <;>
    simp only [readRanges, namedReadRanges, ivRange, ivBlockRange, aadRange, tagRange, List.map_cons, List.map_nil,
      List.mem_cons, true_or, or_true, forall_const, inRange] at hib haad hiv htag <;>
    simp only [ruleOf, ruleCbcEnc, ruleCbcDec, ruleCfbEnc, ruleCfbDec, ruleOfb, ruleCtr, ruleGhash, ruleGhashHmem,
      ruleGcmEnc, ruleGcmDec, ruleCcmEnc, ruleCcmDec, feedbackRule, ghashFrom, openRule, hin, hib, hiv, haad, htag]

theorem keystreamXor_congr (enc : Block → Block) (width n : Nat) (w w' : Work) (s : Bytes) (h : w.cb = w'.cb) :
    (keystreamXor enc width n w s).2 = (keystreamXor enc width n w' s).2 := by
  induction n generalizing w w' s with
  | zero => rfl
  | succ n ih =>
    simp only [keystreamXor]
    rw [h]
    congr 1
    exact ih _ _ _ rfl

/-- The keystream loop's output from counter block `cb`. -/
def keystreamOut (enc : Block → Block) (width n : Nat) (cb : Block) (s : Bytes) : Bytes :=
  (keystreamXor enc width n { Work.zero with cb := cb } s).2

/-- The keystream loop's output depends on the working registers only through `W.CB` (40_engine.md R144). -/
theorem keystreamXor_out (enc : Block → Block) (width n : Nat) (w : Work) (s : Bytes) :
    (keystreamXor enc width n w s).2 = keystreamOut enc width n w.cb s :=
  keystreamXor_congr _ _ _ _ _ _ rfl

/-- The feedback loops' outputs depend on the working registers only through `W.FB` (R150, R151, R160, R161, R170). -/
theorem feedbackLoops_congr (e : Block → Block) (bs : List Block) : ∀ w w' : Work, w.fb = w'.fb →
    (cbcEncLoop e w bs).2 = (cbcEncLoop e w' bs).2 ∧ (cbcDecLoop e w bs).2 = (cbcDecLoop e w' bs).2 ∧
      (cfbEncLoop e w bs).2 = (cfbEncLoop e w' bs).2 ∧ (cfbDecLoop e w bs).2 = (cfbDecLoop e w' bs).2 ∧
      (ofbLoop e w bs).2 = (ofbLoop e w' bs).2 := by
  induction bs with
  | nil => simp [cbcEncLoop, cbcDecLoop, cfbEncLoop, cfbDecLoop, ofbLoop]
  | cons b bs ih =>
    intro w w' h
    simp only [cbcEncLoop, cbcDecLoop, cfbEncLoop, cfbDecLoop, ofbLoop, h]
    refine ⟨congrArg _ (ih _ _ ?_).1, congrArg _ (ih _ _ ?_).2.1, congrArg _ (ih _ _ ?_).2.2.1,
      congrArg _ (ih _ _ ?_).2.2.2.1, congrArg _ (ih _ _ ?_).2.2.2.2⟩ <;> rfl

/-- What a rule writes, and whether it reports AUTH_FAIL, do not depend on the working registers it starts from
(40_engine.md R131). -/
theorem rule_work (i : Instr) (c : Config.CipherPort) (lp : Latch) (m : Mem) (w w' : Work) :
    (ruleOf i c lp m w).writes = (ruleOf i c lp m w').writes ∧
      (ruleOf i c lp m w).authFail = (ruleOf i c lp m w').authFail := by
  have start : ∀ iv, (gcmStart (c.encrypt lp.keyh) iv w).h = (gcmStart (c.encrypt lp.keyh) iv w').h ∧
      (gcmStart (c.encrypt lp.keyh) iv w).j0 = (gcmStart (c.encrypt lp.keyh) iv w').j0 := by
    intro iv
    unfold gcmStart
    split <;> simp [ghashRun_eq]
  have loops := fun e bs x => feedbackLoops_congr e bs { w with fb := x } { w' with fb := x } rfl
  cases i
  case cbcEnc => exact ⟨by simp only [ruleOf, ruleCbcEnc, feedbackRule, (loops (c.encrypt lp.keyh) _ _).1], rfl⟩
  case cbcDec => exact ⟨by simp only [ruleOf, ruleCbcDec, feedbackRule, (loops (c.decrypt lp.keyh) _ _).2.1], rfl⟩
  case cfbEnc => exact ⟨by simp only [ruleOf, ruleCfbEnc, feedbackRule, (loops (c.encrypt lp.keyh) _ _).2.2.1], rfl⟩
  case cfbDec =>
    exact ⟨by simp only [ruleOf, ruleCfbDec, feedbackRule, (loops (c.encrypt lp.keyh) _ _).2.2.2.1], rfl⟩
  case ofb => exact ⟨by simp only [ruleOf, ruleOfb, feedbackRule, (loops (c.encrypt lp.keyh) _ _).2.2.2.2], rfl⟩
  case ctr => exact ⟨by simp only [ruleOf, ruleCtr, keystreamXor_out], rfl⟩
  case ctrC64 => exact ⟨by simp only [ruleOf, ruleCtr, keystreamXor_out], rfl⟩
  case ghash => simp [ruleOf, ruleGhash, ghashFrom, ghashRun_eq]
  case ghashHmem => simp [ruleOf, ruleGhashHmem, ghashFrom, ghashRun_eq]
  case gcmEnc =>
    obtain ⟨hh, hj⟩ := start (memRead m lp.ivAddr.toNat lp.ivLen.toNat)
    exact ⟨by simp only [ruleOf, ruleGcmEnc, gcmCtr, gcmAuth, ghashRun_eq, tagBytes, keystreamXor_keeps, hh, hj,
      keystreamXor_out], rfl⟩
  case gcmDec =>
    obtain ⟨hh, hj⟩ := start (memRead m lp.ivAddr.toNat lp.ivLen.toNat)
    simp only [ruleOf, ruleGcmDec, gcmCtr, gcmAuth, ghashRun_eq, tagBytes, openRule, hh, hj, keystreamXor_out]
    split <;> exact ⟨rfl, rfl⟩
  case ccmEnc =>
    exact ⟨by simp only [ruleOf, ruleCcmEnc, ccmMac, cbcMacRun_eq, ccmCtr, ccmTag, tagBytes, keystreamXor_keeps,
      keystreamXor_out], rfl⟩
  case ccmDec =>
    simp only [ruleOf, ruleCcmDec, ccmMac, cbcMacRun_eq, ccmCtr, ccmTag, tagBytes, keystreamXor_keeps, openRule,
      keystreamXor_out]
    split <;> exact ⟨rfl, rfl⟩

end Sys2Proof.Machine
end

