-- ==== Sys2Proof/Laws/PerInstr.lean ====
section
/-! SUPPORT. The family of facts stated for every instruction, one lemma per constructor. -/

/-- The word of the command table (30_encoding.md R106) passes every check of the decode function (R107). -/
def Sys2Proof.Laws.EncodedWordWellFormed.Statement (i : Sys2Proof.Instr) : Prop :=
  Sys2Proof.wordWellFormed (Sys2Proof.encode i) = true

theorem Sys2Proof.Laws.EncodedWordWellFormed.cbcEnc : Sys2Proof.Laws.EncodedWordWellFormed.Statement .cbcEnc :=
  show Sys2Proof.wordWellFormed (Sys2Proof.encode .cbcEnc) = true from by decide
theorem Sys2Proof.Laws.EncodedWordWellFormed.cbcDec : Sys2Proof.Laws.EncodedWordWellFormed.Statement .cbcDec :=
  show Sys2Proof.wordWellFormed (Sys2Proof.encode .cbcDec) = true from by decide
theorem Sys2Proof.Laws.EncodedWordWellFormed.cfbEnc : Sys2Proof.Laws.EncodedWordWellFormed.Statement .cfbEnc :=
  show Sys2Proof.wordWellFormed (Sys2Proof.encode .cfbEnc) = true from by decide
theorem Sys2Proof.Laws.EncodedWordWellFormed.cfbDec : Sys2Proof.Laws.EncodedWordWellFormed.Statement .cfbDec :=
  show Sys2Proof.wordWellFormed (Sys2Proof.encode .cfbDec) = true from by decide
theorem Sys2Proof.Laws.EncodedWordWellFormed.ofb : Sys2Proof.Laws.EncodedWordWellFormed.Statement .ofb :=
  show Sys2Proof.wordWellFormed (Sys2Proof.encode .ofb) = true from by decide
theorem Sys2Proof.Laws.EncodedWordWellFormed.ctr : Sys2Proof.Laws.EncodedWordWellFormed.Statement .ctr :=
  show Sys2Proof.wordWellFormed (Sys2Proof.encode .ctr) = true from by decide
theorem Sys2Proof.Laws.EncodedWordWellFormed.ctrC64 : Sys2Proof.Laws.EncodedWordWellFormed.Statement .ctrC64 :=
  show Sys2Proof.wordWellFormed (Sys2Proof.encode .ctrC64) = true from by decide
theorem Sys2Proof.Laws.EncodedWordWellFormed.ghash : Sys2Proof.Laws.EncodedWordWellFormed.Statement .ghash :=
  show Sys2Proof.wordWellFormed (Sys2Proof.encode .ghash) = true from by decide
theorem Sys2Proof.Laws.EncodedWordWellFormed.ghashHmem : Sys2Proof.Laws.EncodedWordWellFormed.Statement .ghashHmem :=
  show Sys2Proof.wordWellFormed (Sys2Proof.encode .ghashHmem) = true from by decide
theorem Sys2Proof.Laws.EncodedWordWellFormed.gcmEnc : Sys2Proof.Laws.EncodedWordWellFormed.Statement .gcmEnc :=
  show Sys2Proof.wordWellFormed (Sys2Proof.encode .gcmEnc) = true from by decide
theorem Sys2Proof.Laws.EncodedWordWellFormed.gcmDec : Sys2Proof.Laws.EncodedWordWellFormed.Statement .gcmDec :=
  show Sys2Proof.wordWellFormed (Sys2Proof.encode .gcmDec) = true from by decide
theorem Sys2Proof.Laws.EncodedWordWellFormed.ccmEnc : Sys2Proof.Laws.EncodedWordWellFormed.Statement .ccmEnc :=
  show Sys2Proof.wordWellFormed (Sys2Proof.encode .ccmEnc) = true from by decide
theorem Sys2Proof.Laws.EncodedWordWellFormed.ccmDec : Sys2Proof.Laws.EncodedWordWellFormed.Statement .ccmDec :=
  show Sys2Proof.wordWellFormed (Sys2Proof.encode .ccmDec) = true from by decide
end

