-- ==== Sys2Proof/Laws/Step.lean ====
section
/-! SUPPORT. What one step can do, said once: the next action of the schedule, or the engine's turn (20_memory.md R86, R94). -/

namespace Sys2Proof.Machine

@[simp] theorem carryOut_next (t : State) : carryOut (.next t) = .next t := rfl
@[simp] theorem carryOut_run (i : Instr) (t : State) : carryOut (.run i t) = exec i t := rfl
@[simp] theorem carryOut_stuck (f : Fault) : carryOut (.stuck f) = .fault f := rfl

/-- With an action on the schedule, the step takes it off and performs it. -/
theorem step_cons {s : State} {e : Event} {rest : List Event} (h : s.schedule = e :: rest) :
    step s = carryOut (perform s e { s with schedule := rest }) := by
  rw [step, plan, h]

/-- With an empty schedule it is the engine's turn. -/
theorem step_nil {s : State} (h : s.schedule = []) : step s = carryOut (engineTurn s) := by
  rw [step, plan, h]

theorem run_succ_of_step (M : Host.Core) {s t : M.State} (h : M.step s = .next t) (n : Nat) :
    M.run (n + 1) s = M.run n t := by
  simp [Host.Core.run, h]

/-- A run of one step more is the step and then the run. -/
theorem run_step {s t : State} (h : step s = .next t) (n : Nat) :
    Host.Core.run Sys2Proof.core (n + 1) s = Host.Core.run Sys2Proof.core n t :=
  run_succ_of_step Sys2Proof.core h n

theorem engineTurn_idle {s : State} (h : s.status.busy = false) : engineTurn s = .next s := by simp [engineTurn, h]

theorem engineTurn_busy {s : State} {i : Instr} (h : s.status.busy = true) (hd : decode s.lp.cmd = .command i) :
    engineTurn s = .run i s := by simp [engineTurn, h, hd]

theorem hostStuck_busy {s : State} (h : s.status.busy = true) : hostStuck s = engineTurn s := by simp [hostStuck, h]

theorem hostStuck_idle {s : State} (h : s.status.busy = false) : hostStuck s = .stuck .windowAccessNotAdmitted := by
  simp [hostStuck, h]

theorem writeCmd_busy {s : State} (v : BitVec 32) (h : s.status.busy = true) :
    writeCmd v s = .next { s with status := { s.status with cmdOvr := true } } := by simp [writeCmd, h]

theorem writeCmd_command {s : State} {v : BitVec 32} {i : Instr} (h : s.status.busy = false)
    (hd : decode v = .command i) : writeCmd v s = .run i s := by simp [writeCmd, h, hd]

theorem writeCmd_rejected {s : State} {v : BitVec 32} {why : DecodeError} (h : s.status.busy = false)
    (hd : decode v = .rejected why) : writeCmd v s = .next (endCommand .cmd false (acceptWord v s)) := by
  simp [writeCmd, h, hd]

/-- A register access that is admitted (20_memory.md R76). -/
theorem regOfAccess_some {size : AccessSize} {off : BitVec 6} {r : Reg} (h : regOfAccess size off = some r) :
    size = .word ∧ regAt off = some r := by
  cases size <;> simp [regOfAccess] at h ⊢
  exact h

/-- An access that is not admitted is not a word, or not aligned (20_memory.md R76). -/
theorem regOfAccess_none {size : AccessSize} {off : BitVec 6} (h : regOfAccess size off = none) :
    size ≠ .word ∨ off.toNat % 4 ≠ 0 := by
  cases size
  case word =>
    right
    revert off
    decide
  all_goals exact .inl (by simp)

/-- The latched command of a busy engine is the command in flight (40_engine.md R147). -/
theorem inFlight_busy {s : State} {i : Instr} (h : s.status.busy = true) (hd : decode s.lp.cmd = .command i) :
    inFlight s = some i := by simp [inFlight, h, decodeCommand, hd]

theorem inFlight_idle {s : State} (h : s.status.busy = false) : inFlight s = none := by simp [inFlight, h]

theorem liveWriteRanges_busy {s : State} {i : Instr} (h : s.status.busy = true) (hd : decode s.lp.cmd = .command i) :
    liveWriteRanges s = writeRanges i s.lp := by simp [liveWriteRanges, inFlight_busy h hd]

theorem liveUsedRanges_busy {s : State} {i : Instr} (h : s.status.busy = true) (hd : decode s.lp.cmd = .command i) :
    liveUsedRanges s = usedRanges i s.lp := by simp [liveUsedRanges, inFlight_busy h hd]

theorem liveWriteRanges_idle {s : State} (h : s.status.busy = false) : liveWriteRanges s = [] := by
  simp [liveWriteRanges, inFlight_idle h]

theorem liveUsedRanges_idle {s : State} (h : s.status.busy = false) : liveUsedRanges s = [] := by
  simp [liveUsedRanges, inFlight_idle h]

/-- A register write that is not CMD and no soft reset leaves the running command, memory and the host alone
(10_state.md R59, 40_engine.md R121). -/
theorem writeReg_keeps (r : Reg) (v : BitVec 32) (s : State) (h : r = .ctrl → v.getLsbD 1 = false) :
    ∃ ie st regs, writeReg r v s = { s with ie := ie, status := st, regs := regs } ∧ st.busy = s.status.busy ∧
      st.authFail = s.status.authFail ∧ st.err = s.status.err ∧ (s.status.done = false → st.done = false) ∧
      (1 ≤ s.regs.tagMin.toNat ∧ s.regs.tagMin.toNat ≤ 16 → 1 ≤ regs.tagMin.toNat ∧ regs.tagMin.toNat ≤ 16) := by
  cases r
  case ctrl =>
    refine ⟨v.getLsbD 0, s.status, s.regs, ?_, rfl, rfl, rfl, id, id⟩
    show (if v.getLsbD 1 = true then _ else _) = _
    rw [if_neg (by rw [h rfl]; decide)]
  case status => exact ⟨_, _, _, rfl, rfl, rfl, rfl, fun h => by simp [statusWrite, h], id⟩
  case tagMin =>
    refine ⟨_, _, _, rfl, rfl, rfl, rfl, id, fun h => ?_⟩
    unfold writeTagMin
    split
    · rename_i hv
      simp only [BitVec.toNat_setWidth]
      omega
    · exact h
  all_goals exact ⟨_, _, _, rfl, rfl, rfl, rfl, id, id⟩

end Sys2Proof.Machine
end

