-- ==== Sys2Proof/Tests/Slice0.lean ====
section
/-! SUPPORT. The model's own tests: command words written out from the spec's field table, the vectors of
95_test_vectors.md, and for every statement with hypotheses a state that meets them. -/

namespace Sys2Proof.Tests

set_option Elab.async false

open Sys2Proof.Machine

/-! ## Command words, written bit by bit from 30_encoding.md R101: 31:10 zero, HSRC, CW, 7:6 zero, OP -/

theorem test_decode_cbcEnc : decode 0b00000000000000000000000000000001 = .command .cbcEnc := by decide
theorem test_decode_cbcDec : decode 0b00000000000000000000000000000010 = .command .cbcDec := by decide
theorem test_decode_cfbEnc : decode 0b00000000000000000000000000000011 = .command .cfbEnc := by decide
theorem test_decode_cfbDec : decode 0b00000000000000000000000000000100 = .command .cfbDec := by decide
theorem test_decode_ofb : decode 0b00000000000000000000000000000101 = .command .ofb := by decide
theorem test_decode_ctr : decode 0b00000000000000000000000000000110 = .command .ctr := by decide
theorem test_decode_ctrC64 : decode 0b00000000000000000000000100000110 = .command .ctrC64 := by decide
theorem test_decode_ghash : decode 0b00000000000000000000000000000111 = .command .ghash := by decide
theorem test_decode_ghashHmem : decode 0b00000000000000000000001000000111 = .command .ghashHmem := by decide
theorem test_decode_gcmEnc : decode 0b00000000000000000000000000001000 = .command .gcmEnc := by decide
theorem test_decode_gcmDec : decode 0b00000000000000000000000000001001 = .command .gcmDec := by decide
theorem test_decode_ccmEnc : decode 0b00000000000000000000000000001010 = .command .ccmEnc := by decide
theorem test_decode_ccmDec : decode 0b00000000000000000000000000001011 = .command .ccmDec := by decide

/-- The words of 30_encoding.md R106. -/
theorem test_encode_words :
    [Instr.cbcEnc, .cbcDec, .cfbEnc, .cfbDec, .ofb, .ctr, .ctrC64, .ghash, .ghashHmem, .gcmEnc, .gcmDec, .ccmEnc,
      .ccmDec].map encode =
    [0x00000001, 0x00000002, 0x00000003, 0x00000004, 0x00000005, 0x00000006, 0x00000106, 0x00000007, 0x00000207,
      0x00000008, 0x00000009, 0x0000000A, 0x0000000B] := by decide

/-! ## Well-formedness: for each check an ill-formed word that it refuses, and that the decoder rejects by name -/

theorem test_wellFormed_opcode : wordOpcodeDefined 0x0000000C = false ∧ wordWellFormed 0x0000000C = false ∧
    decode 0x0000000C = .rejected .reservedOpcode := by decide
theorem test_wellFormed_opcode_zero : wordOpcodeDefined 0x00000000 = false ∧ wordWellFormed 0x00000000 = false ∧
    decode 0x00000000 = .rejected .reservedOpcode := by decide
theorem test_wellFormed_reserved : wordReservedZero 0x80000001 = false ∧ wordWellFormed 0x80000001 = false ∧
    decode 0x80000001 = .rejected .reservedBits := by decide
theorem test_wellFormed_reserved_low : wordReservedZero 0x00000041 = false ∧ wordWellFormed 0x00000041 = false ∧
    decode 0x00000041 = .rejected .reservedBits := by decide
theorem test_wellFormed_cw : wordCwOnlyOnCtr 0x00000101 = false ∧ wordWellFormed 0x00000101 = false ∧
    decode 0x00000101 = .rejected .cwNotOnCtr := by decide
theorem test_wellFormed_hsrc : wordHsrcOnlyOnGhash 0x00000201 = false ∧ wordWellFormed 0x00000201 = false ∧
    decode 0x00000201 = .rejected .hsrcNotOnGhash := by decide
theorem test_wellFormed_accepts : wordWellFormed 0x00000106 = true ∧ wordWellFormed 0x00000207 = true := by decide

/-! ## Small states -/

/-- Parameter registers with KEYH 1 and the buffers IV 0x100, AAD 0x200, IN 0x300, OUT 0x400, TAG 0x500. -/
def params (ivLen aadLen len tagLen : Word) : ParamRegs :=
  ⟨1, 0x100, ivLen, 0x200, aadLen, 0x300, 0x400, len, 0x500, tagLen, 4⟩

/-- The state after reset with these registers, this memory and these coming actions. -/
def idle (p : ParamRegs) (m : Mem) (es : List Event) : State :=
  { State.reset with regs := p, mem := m, schedule := es }

/-- The same with command `i` running on these latched parameters. -/
def running (i : Instr) (p : ParamRegs) (m : Mem) : State :=
  { State.reset with
    status := { Status.reset with busy := true }, lp := ⟨p, encode i⟩, seq := some ⟨0, 0⟩, mem := m }

/-- STATUS after `k` steps. -/
def statusAfter (k : Nat) (s : State) : Option Word :=
  match Host.Core.run Sys2Proof.core k s with
  | .next t => some (readReg t .status)
  | .fault _ => none
  | .refused _ => none

/-- STATUS after the word `v` is written to CMD with these registers. -/
def acceptStatus (p : ParamRegs) (v : Word) : Option Word := statusAfter 1 (idle p [] [.regWrite .word 0x08 v])

/-! ## STATUS vectors (95_test_vectors.md V-ERR, V-CBC, V-GH, V-GCM, V-CCM) -/

/-- V-ERR-1 to V-ERR-4, V-GH-6. -/
theorem test_illegal_words :
    [0x00000000, 0x0000000C, 0x00000101, 0x80000001, 0x00000107].map (acceptStatus (params 16 0 32 0)) =
      [some 0x102, some 0x102, some 0x102, some 0x102, some 0x102] := by decide +kernel

/-- V-ERR-5: ERR_IVLEN before ERR_LEN. V-CBC-5. -/
theorem test_cbcEnc_errors : acceptStatus (params 8 0 20 0) 0x01 = some 0x302 ∧
    acceptStatus (params 16 0 20 0) 0x01 = some 0x202 := by decide +kernel

/-- V-ERR-6, V-ERR-7: a range past the top of memory, and one that ends at it; V-CTR-5. -/
theorem test_ctr_range :
    acceptStatus { params 16 0 16 0 with inAddr := 0xFFFFFFF8 } 0x06 = some 0x602 ∧
    acceptStatus { params 16 0 16 0 with inAddr := 0xFFFFFFF0, outAddr := 0xFFFFFFF0 } 0x06 = some 0x001 ∧
    acceptStatus (params 12 0 16 0) 0x06 = some 0x302 := by decide +kernel

/-- V-ERR-8, V-ERR-9: partial overlap, exact in-place, and IVR overlapping OUTR. -/
theorem test_overlap :
    acceptStatus { params 16 0 32 0 with inAddr := 0x1000, outAddr := 0x1010 } 0x01 = some 0x702 ∧
    acceptStatus { params 16 0 32 0 with inAddr := 0x1000, outAddr := 0x1000 } 0x01 = some 0x001 ∧
    acceptStatus { params 16 0 32 0 with outAddr := 0x10F } 0x01 = some 0x702 := by decide +kernel

/-- V-GH-5, V-GH-7, V-GH-8: GHASH has no in-place operation. -/
theorem test_ghash_errors : acceptStatus (params 0 0 8 0) 0x07 = some 0x202 ∧
    acceptStatus (params 12 0 16 0) 0x207 = some 0x302 ∧
    acceptStatus { params 0 0 16 0 with outAddr := 0x300 } 0x07 = some 0x702 := by decide +kernel

/-- V-GCM-11. -/
theorem test_gcm_errors : acceptStatus (params 0 0 16 16) 0x08 = some 0x302 ∧
    acceptStatus (params 12 0 16 3) 0x08 = some 0x402 ∧ acceptStatus (params 12 0 16 17) 0x09 = some 0x402 ∧
    acceptStatus { params 12 0 16 4 with tagMin := 8 } 0x08 = some 0x402 ∧
    acceptStatus { params 12 0 16 16 with tagAddr := 0x40F } 0x08 = some 0x702 := by decide +kernel

/-- V-CCM-10. -/
theorem test_ccm_errors : acceptStatus (params 6 0 16 16) 0x0A = some 0x302 ∧
    acceptStatus (params 14 0 16 16) 0x0B = some 0x302 ∧ acceptStatus (params 13 0 16 5) 0x0A = some 0x402 ∧
    acceptStatus (params 13 0 16 2) 0x0B = some 0x402 ∧
    acceptStatus { params 13 0 65536 16 with outAddr := 0x20000 } 0x0A = some 0x502 ∧
    acceptStatus { params 13 0 65535 16 with outAddr := 0x20000 } 0x0B = some 0x001 ∧
    acceptStatus { params 12 0 16777216 16 with outAddr := 0x2000000 } 0x0A = some 0x502 := by decide +kernel

/-- V-ERR-10: a read byte that does not answer. -/
theorem test_bus_error :
    statusAfter 2 { idle (params 16 0 32 0) [] [.regWrite .word 0x08 0x01] with platform := ⟨[⟨0x31F, 1⟩], []⟩ } =
      some 0x802 := by decide +kernel

/-- V-ERR-11: a CMD write while BUSY = 1 (entry 2: the engine had no turn in between). -/
theorem test_overrun :
    statusAfter 2 (idle (params 16 0 32 0) [] [.regWrite .word 0x08 0x06, .regWrite .word 0x08 0x106]) = some 0x009 := by
  decide +kernel

/-- V-ERR-12: TAGMIN after writes of 0, 17 and 8. -/
theorem test_tagMin : [0, 17, 8].map (fun v => readReg (writeReg .tagMin v State.reset) .tagMin) = [4, 4, 8] := by decide

/-- P5, statements 1 to 5: the interrupt rises with DONE and falls with ACK. -/
theorem test_interrupt :
    (List.range 6).map (fun k =>
      match Host.Core.run Sys2Proof.core k (idle ParamRegs.reset []
        [.regWrite .word 0x00 1, .regWrite .word 0x14 8, .regWrite .word 0x28 20, .regWrite .word 0x08 1,
          .regWrite .word 0x04 0xA]) with
      | .next t => t.irq
      | .fault _ => true
      | .refused _ => true) = [false, false, false, false, true, false] := by decide +kernel

/-- Soft reset: the registers take the values of 10_state.md R63 and IE is 0. -/
theorem test_soft_reset :
    step (idle (params 16 0 32 0) [] [.regWrite .word 0x00 3]) = .next { State.reset with draws := 1 } := by rfl

/-- A byte access to the window has no step (20_memory.md R76). -/
theorem test_window_access : step (idle ParamRegs.reset [] [.regRead .byte 0x04]) = .fault .windowAccessNotAdmitted := by
  rfl

/-- The first step after reset takes a placed command word: CBC_ENC ends with ERR_IVLEN there, since IV_LEN is 0. -/
theorem test_fetch_word : statusAfter 1 (State.reset.withFetchWord 32 0x01) = some 0x302 := by decide +kernel

/-! ## The field and the counter (95_test_vectors.md V-GF; 40_engine.md R143; 47_ccm.md R221, R223) -/

/-- V-GF-2, V-GF-3 and V-GF-4. -/
theorem test_gfMul :
    gfMul 0x40000000000000000000000000000000 0x00000000000000000000000000000001 = 0xE1000000000000000000000000000000 ∧
    gfMul 0x0388dace60b6a392f328c2b971b2fe78 0x66e94bd4ef8a2c3b884cfa59ca342b2e = 0x5e2ec746917062882c85b0685353deb7 ∧
    gfMul 0x00000000000000000000000000000001 0x00000000000000000000000000000001 = 0xe6080000000000000000000000000003 := by
  decide +kernel

/-- The wrap example of 40_engine.md R143. -/
theorem test_incCounter_wraps :
    incCounter 4 0x00112233445566778899aabbffffffff 1 = 0x00112233445566778899aabb00000000 ∧
    incCounter 8 0x00112233445566778899aabbffffffff 1 = 0x00112233445566778899aabc00000000 := by decide

/-- The flags table of 47_ccm.md R221. -/
theorem test_ccmFlags : [ccmFlags 8 8 2, ccmFlags 0 8 2, ccmFlags 0 16 2, ccmFlags 8 4 8, ccmFlags 0 16 8, ccmFlags 1 4 3] =
    [0x59, 0x19, 0x39, 0x4F, 0x3F, 0x4A] := by decide

/-- The examples of 47_ccm.md R223. -/
theorem test_ccmAadLen : [1, 8, 0xFEFF, 0xFF00, 0xFFFFFFFF].map ccmAadLen =
    [[0x00, 0x01], [0x00, 0x08], [0xFE, 0xFF], [0xFF, 0xFE, 0x00, 0x00, 0xFF, 0x00],
      [0xFF, 0xFE, 0xFF, 0xFF, 0xFF, 0xFF]] := by decide

/-! ## Mode vectors. The cipher is AES-128 as a table of the blocks a vector uses: the machine's own cipher port is an
uninterpreted constant. -/

/-- A cipher port from a table of inputs and outputs. -/
def tableCipher (t : List (Block × Block)) : Config.CipherPort where
  encrypt _ x := ((t.find? fun p => p.1 = x).map Prod.snd).getD 0
  decrypt _ y := ((t.find? fun p => p.2 = y).map Prod.fst).getD 0

/-- AES-128 under the key of KEYH 1 (spec/95, section 1), the blocks V-CBC-1 and V-CBC-2 use. -/
def aesCbc : Config.CipherPort := tableCipher [
  (0x6bc0bce12a459991e134741a7f9e1925, 0x7649abac8119b246cee98e9b12e9197d),
  (0xd86421fb9f1a1eda505ee1375746972c, 0x5086cb9b507219ee95db113a917678b2)]

/-- AES-128, the blocks V-CFB-1 and V-CFB-2 use. -/
def aesCfb : Config.CipherPort := tableCipher [
  (0x000102030405060708090a0b0c0d0e0f, 0x50fe67cc996d32b6da0937e99bafec60),
  (0x3b3fd92eb72dad20333449f8e83cfb4a, 0x668bcf60beb005a35354a201dab36bda)]

/-- AES-128, the blocks V-OFB-1 uses. -/
def aesOfb : Config.CipherPort := tableCipher [
  (0x000102030405060708090a0b0c0d0e0f, 0x50fe67cc996d32b6da0937e99bafec60),
  (0x50fe67cc996d32b6da0937e99bafec60, 0xd9a4dada0892239f6b8b3d7680e15674)]

/-- AES-128, the blocks V-CTR-3 uses. -/
def aesCtr : Config.CipherPort := tableCipher [
  (0x000102030405060708090a0bffffffff, 0xbdb7c0ef49717942fc68eeb17692fcf4),
  (0x000102030405060708090a0b00000000, 0x94193f8116eb745cfe7465d70c756236),
  (0x000102030405060708090a0c00000000, 0xeef89e9494c1082ab27d4d9095feff60)]

/-- AES-128 under the all-zero key of KEYH 2, the blocks V-GH-1, V-GCM-2, V-GCM-5 and V-GCM-6 use. -/
def aesGcm : Config.CipherPort := tableCipher [
  (0x00000000000000000000000000000000, 0x66e94bd4ef8a2c3b884cfa59ca342b2e),
  (0x00000000000000000000000000000001, 0x58e2fccefa7e3061367f1d57a4e7455a),
  (0x00000000000000000000000000000002, 0x0388dace60b6a392f328c2b971b2fe78)]

/-- AES-128 under the key of KEYH 3, the blocks V-CCM-1, V-CCM-5 and V-CCM-6 use. -/
def aesCcm : Config.CipherPort := tableCipher [
  (0x5900000003020100a0a1a2a3a4a50017, 0xeb9d5547730955ab231e0a2dfe4b90d6),
  (0xeb955546710a51ae25190a2dfe4b90d6, 0xcdb6411e3cdc9b4f5d9258b69ee7f091),
  (0xc5bf4b1530d195404d834aa58af2e686, 0x9c38405ea03c1bc904b58b40c76ca2eb),
  (0x84215a45bc2105c904b58b40c76ca2eb, 0x2dc697e411ca83a860c2c406ccaa542f),
  (0x0100000003020100a0a1a2a3a4a50000, 0x3a2e46c8ec33a5485620542c022cc07d),
  (0x0100000003020100a0a1a2a3a4a50001, 0x50859d916dcb6ddde077c2d1d4ec9f97),
  (0x0100000003020100a0a1a2a3a4a50002, 0x7546717ac6de9aff640c9c06de6d0d8f)]

/-- What a completion leaves: the `n` bytes at `a` as a big-endian number, and STATUS. -/
def outcome (c : Config.CipherPort) (i : Instr) (rule : Rule) (s : State) (a n : Nat) : Nat × Word :=
  let t := completeCommand c i rule s
  (intBE (memRead t.mem a n), readReg t .status)

/-- Memory with a 16-byte IV and a 32-byte input. -/
def ivAndInput (iv inp : Nat) : Mem := memWriteAll [] [(0x100, beBytes 16 iv), (0x300, beBytes 32 inp)]

/-- V-CBC-1, two blocks. -/
theorem test_cbcEnc_vector :
    outcome aesCbc .cbcEnc ruleCbcEnc (running .cbcEnc (params 16 0 32 0)
      (ivAndInput 0x000102030405060708090a0b0c0d0e0f
        0x6bc1bee22e409f96e93d7e117393172aae2d8a571e03ac9c9eb76fac45af8e51)) 0x400 32 =
      (0x7649abac8119b246cee98e9b12e9197d5086cb9b507219ee95db113a917678b2, 0x002) := by decide +kernel

/-- 20_memory.md R79, 10_state.md R60: an input that is not ordinary memory leaves AUTH_FAIL 0, with and without a bus error. -/
theorem test_odd_input :
    [[], [⟨0x31F, 1⟩]].map (fun dead => readReg (completeCommand aesCbc .cbcEnc ruleCbcEnc
      { running .cbcEnc (params 16 0 32 0) [] with platform := ⟨dead, [⟨0x300, 1⟩]⟩ }) .status) = [0x002, 0x802] := by
  decide +kernel

/-- V-CBC-6: CBC_DEC in place, two blocks. -/
theorem test_cbcDec_vector :
    outcome aesCbc .cbcDec ruleCbcDec (running .cbcDec { params 16 0 32 0 with outAddr := 0x300 }
      (ivAndInput 0x000102030405060708090a0b0c0d0e0f
        0x7649abac8119b246cee98e9b12e9197d5086cb9b507219ee95db113a917678b2)) 0x300 32 =
      (0x6bc1bee22e409f96e93d7e117393172aae2d8a571e03ac9c9eb76fac45af8e51, 0x002) := by decide +kernel

/-- V-CFB-1, two blocks. -/
theorem test_cfbEnc_vector :
    outcome aesCfb .cfbEnc ruleCfbEnc (running .cfbEnc (params 16 0 32 0)
      (ivAndInput 0x000102030405060708090a0b0c0d0e0f
        0x6bc1bee22e409f96e93d7e117393172aae2d8a571e03ac9c9eb76fac45af8e51)) 0x400 32 =
      (0x3b3fd92eb72dad20333449f8e83cfb4ac8a64537a0b3a93fcde3cdad9f1ce58b, 0x002) := by decide +kernel

/-- V-CFB-2, two blocks, in place. -/
theorem test_cfbDec_vector :
    outcome aesCfb .cfbDec ruleCfbDec (running .cfbDec { params 16 0 32 0 with outAddr := 0x300 }
      (ivAndInput 0x000102030405060708090a0b0c0d0e0f
        0x3b3fd92eb72dad20333449f8e83cfb4ac8a64537a0b3a93fcde3cdad9f1ce58b)) 0x300 32 =
      (0x6bc1bee22e409f96e93d7e117393172aae2d8a571e03ac9c9eb76fac45af8e51, 0x002) := by decide +kernel

/-- V-OFB-1, two blocks. -/
theorem test_ofb_vector :
    outcome aesOfb .ofb ruleOfb (running .ofb (params 16 0 32 0)
      (ivAndInput 0x000102030405060708090a0b0c0d0e0f
        0x6bc1bee22e409f96e93d7e117393172aae2d8a571e03ac9c9eb76fac45af8e51)) 0x400 32 =
      (0x3b3fd92eb72dad20333449f8e83cfb4a7789508d16918f03f53c52dac54ed825, 0x002) := by decide +kernel

/-- V-CTR-3 with a 4-byte counter, cut to 20 bytes: a partial last block, and nothing beyond it is written. -/
theorem test_ctr_vector :
    outcome aesCtr .ctr (ruleCtr 4) (running .ctr (params 16 0 20 0)
      (ivAndInput 0x000102030405060708090a0bffffffff 0)) 0x400 32 =
      (0xbdb7c0ef49717942fc68eeb17692fcf494193f81000000000000000000000000, 0x002) := by decide +kernel

/-- V-CTR-3 with an 8-byte counter. -/
theorem test_ctrC64_vector :
    outcome aesCtr .ctrC64 (ruleCtr 8) (running .ctrC64 (params 16 0 32 0)
      (ivAndInput 0x000102030405060708090a0bffffffff 0)) 0x400 32 =
      (0xbdb7c0ef49717942fc68eeb17692fcf4eef89e9494c1082ab27d4d9095feff60, 0x002) := by decide +kernel

/-- V-GH-1. -/
theorem test_ghash_vector :
    outcome aesGcm .ghash ruleGhash (running .ghash (params 0 0 32 0)
      (memWriteAll [] [(0x300, beBytes 32 0x0388dace60b6a392f328c2b971b2fe7800000000000000000000000000000080)])) 0x400 16 =
      (0xf38cbb1ad69223dcc3457ae5b6b0f885, 0x002) := by decide +kernel

/-- V-GH-2, from the CMD write to the end: the whole machine, which calls no cipher here. -/
theorem test_ghashHmem_run :
    (match Host.Core.run Sys2Proof.core 2 (idle (params 16 0 32 0)
        (ivAndInput 0x66e94bd4ef8a2c3b884cfa59ca342b2e
          0x0388dace60b6a392f328c2b971b2fe7800000000000000000000000000000080) [.regWrite .word 0x08 0x207]) with
      | .next t => (intBE (memRead t.mem 0x400 16), readReg t .status)
      | .fault _ => (0, 0)
      | .refused _ => (0, 0)) = (0xf38cbb1ad69223dcc3457ae5b6b0f885, 0x002) := by decide +kernel

/-- V-GCM-2: ciphertext and tag. -/
theorem test_gcmEnc_vector :
    outcome aesGcm .gcmEnc ruleGcmEnc (running .gcmEnc { params 12 0 16 16 with tagAddr := 0x410 } []) 0x400 32 =
      (0x0388dace60b6a392f328c2b971b2fe78ab6e47d42cec13bdf53a67b21257bddf, 0x002) := by decide +kernel

/-- V-GCM-5: the tag matches, and zeros are written over the ciphertext in place. -/
theorem test_gcmDec_match :
    outcome aesGcm .gcmDec ruleGcmDec (running .gcmDec { params 12 0 16 16 with outAddr := 0x300, tagAddr := 0x310 }
      (ivAndInput 0 0x0388dace60b6a392f328c2b971b2fe78ab6e47d42cec13bdf53a67b21257bddf)) 0x300 16 =
      (0, 0x002) := by decide +kernel

/-- V-GCM-6: the last tag byte changed; the ciphertext in place is kept. -/
theorem test_gcmDec_mismatch :
    outcome aesGcm .gcmDec ruleGcmDec (running .gcmDec { params 12 0 16 16 with outAddr := 0x300, tagAddr := 0x310 }
      (ivAndInput 0 0x0388dace60b6a392f328c2b971b2fe78ab6e47d42cec13bdf53a67b21257bdde)) 0x300 16 =
      (0x0388dace60b6a392f328c2b971b2fe78, 0x006) := by decide +kernel

/-- Memory with the nonce and AAD of V-CCM-1 and this input of 23 bytes and tag of 8. -/
def ccmMem (inp tag : Nat) : Mem :=
  memWriteAll [] [(0x100, beBytes 13 0x00000003020100a0a1a2a3a4a5), (0x200, beBytes 8 0x0001020304050607),
    (0x300, beBytes 23 inp), (0x500, beBytes 8 tag)]

/-- V-CCM-1: the ciphertext. -/
theorem test_ccmEnc_ciphertext :
    outcome aesCcm .ccmEnc ruleCcmEnc (running .ccmEnc (params 13 8 23 8)
      (ccmMem 0x08090a0b0c0d0e0f101112131415161718191a1b1c1d1e 0)) 0x400 23 =
      (0x588c979a61c663d2f066d0c2c0f989806d5f6b61dac384, 0x002) := by decide +kernel

/-- V-CCM-1: the tag. -/
theorem test_ccmEnc_tag :
    outcome aesCcm .ccmEnc ruleCcmEnc (running .ccmEnc (params 13 8 23 8)
      (ccmMem 0x08090a0b0c0d0e0f101112131415161718191a1b1c1d1e 0)) 0x500 8 = (0x17e8d12cfdf926e0, 0x002) := by
  decide +kernel

/-- V-CCM-5. -/
theorem test_ccmDec_match :
    outcome aesCcm .ccmDec ruleCcmDec (running .ccmDec (params 13 8 23 8)
      (ccmMem 0x588c979a61c663d2f066d0c2c0f989806d5f6b61dac384 0x17e8d12cfdf926e0)) 0x400 23 =
      (0x08090a0b0c0d0e0f101112131415161718191a1b1c1d1e, 0x002) := by decide +kernel

/-- V-CCM-6: the last tag bit changed; nothing is written. -/
theorem test_ccmDec_mismatch :
    outcome aesCcm .ccmDec ruleCcmDec (running .ccmDec (params 13 8 23 8)
      (ccmMem 0x588c979a61c663d2f066d0c2c0f989806d5f6b61dac384 0x17e8d12cfdf926e1)) 0x400 23 = (0, 0x006) := by
  decide +kernel

/-! ## Witnesses: for every statement with hypotheses, concrete states that meet them all -/

theorem decode_encode (i : Instr) : decode (encode i) = .command i := by cases i <;> decide

/-- Parameters that pass validation, with buffers that lie apart: 32 bytes for the block modes, 20 and 23 for the AEAD
modes. -/
def paramsOf : Instr → ParamRegs
  | .cbcEnc | .cbcDec | .cfbEnc | .cfbDec | .ofb | .ctr | .ctrC64 | .ghash | .ghashHmem => params 16 0 32 0
  | .gcmEnc | .gcmDec => params 12 20 20 16
  | .ccmEnc | .ccmDec => params 13 8 23 16

theorem paramsOf_ok (i : Instr) : validateCommand i ⟨paramsOf i, encode i⟩ = .ok := by cases i <;> decide

/-- Command `i` runs on its parameters over this memory. -/
def job (i : Instr) (m : Mem) : State := running i (paramsOf i) m

/-- A running command on a platform that answers everywhere is a clean run. -/
theorem clean_running {i : Instr} {p : ParamRegs} {m : Mem} (hv : validateCommand i ⟨p, encode i⟩ = .ok)
    (hm : Mem.wf m = true) : Clean i (running i p m) where
  running := ⟨rfl, hv⟩
  undisturbed := ⟨rfl, fun _ _ _ _ => rfl⟩
  reads := fun _ _ _ _ => rfl
  writes := fun _ _ _ _ => rfl
  memWf := hm

theorem clean_job {i : Instr} {m : Mem} (hm : Mem.wf m = true) : Clean i (job i m) := clean_running (paramsOf_ok i) hm

theorem invariant_job {i : Instr} {m : Mem} (hm : Mem.wf m = true) : Invariant (job i m) where
  memWf := hm
  tagMin := by cases i <;> exact ⟨Nat.le_of_ble_eq_true rfl, Nat.le_of_ble_eq_true rfl⟩
  work := rfl
  idle := fun h => by cases h
  busy := fun _ => ⟨validate_ok_iff.mpr ⟨i, decode_encode i, paramsOf_ok i⟩, rfl, rfl, rfl, rfl⟩

/-- A command in flight, and then these actions. -/
def jobThen (i : Instr) (m : Mem) (es : List Event) : State := { job i m with schedule := es }

theorem witness_ResetRestoresResetValues :
    (jobThen .cbcEnc [] [.reset]).schedule = [.reset] ∧ ResetEvent .reset ∧ ResetEvent (.regWrite .word 0x00 2) :=
  ⟨rfl, .inl rfl, .inr ⟨2, rfl, by decide⟩⟩

theorem witness_AbortedCommandLeavesFreeBytes :
    (jobThen .cbcEnc [] [.reset]).schedule = [.reset] ∧ ResetEvent .reset ∧ Running .cbcEnc (jobThen .cbcEnc [] [.reset]) ∧
      decode (jobThen .cbcEnc [] [.reset]).lp.cmd = .command .cbcEnc ∧
      Mem.wf (jobThen .cbcEnc [] [.reset]).mem = true :=
  ⟨rfl, .inl rfl, ⟨rfl, paramsOf_ok .cbcEnc⟩, decode_encode .cbcEnc, rfl⟩

theorem witness_StepRunsWrittenCommandWord :
    (idle (params 16 0 32 0) [] [.regWrite .word 0x08 1]).status.busy = false ∧ decode 1 = .command .cbcEnc ∧
      (idle (params 16 0 32 0) [] [.regWrite .word 0x08 1]).schedule = [.regWrite .word 0x08 1] := by decide

theorem witness_StepCompletesLatchedCommand_busy :
    (job .ofb []).status.busy = true ∧ decode (job .ofb []).lp.cmd = .command .ofb ∧ (job .ofb []).schedule = [] ∧
      (jobThen .ofb [] [.engine]).schedule = [.engine] := by decide

theorem witness_StepCompletesLatchedCommand_idle :
    State.reset.status.busy = false ∧ State.reset.schedule = [] ∧
      (idle ParamRegs.reset [] [.engine]).schedule = [.engine] := by decide

theorem witness_DecodeAndEncodeAgree : Instr.ctrC64.wellFormed = true ∧ decode 0x106 = .command .ctrC64 := by decide

theorem witness_IllegalWordEndsWithErrCmd :
    (idle ParamRegs.reset [] [.regWrite .word 0x08 0x101]).schedule = [.regWrite .word 0x08 0x101] ∧
      (idle ParamRegs.reset [] [.regWrite .word 0x08 0x101]).status.busy = false ∧ wordWellFormed 0x101 = false := by decide

theorem witness_AcceptedCommandStarts :
    (idle (paramsOf .ccmDec) [] []).status.busy = false ∧
      validateCommand .ccmDec ⟨(idle (paramsOf .ccmDec) [] []).regs, encode .ccmDec⟩ = .ok := by decide

theorem witness_RejectedCommandEndsAtAcceptance :
    (idle (params 8 0 20 0) [] []).status.busy = false ∧
      validateCommand .cbcEnc ⟨(idle (params 8 0 20 0) [] []).regs, encode .cbcEnc⟩ = .ivLen ∧ Err.ivLen ≠ .ok := by decide

/-- One latch for each clause: an illegal word, then each check failing after the earlier ones hold, then none. -/
theorem witness_ValidationReportsFirstError :
    decode 0 = .rejected .reservedOpcode ∧
    (∀ i ∈ [Instr.cbcEnc, .gcmEnc, .ccmEnc], decode (encode i) = .command i) ∧
    ivOk .cbcEnc ⟨params 15 0 32 0, 1⟩ = false ∧
    (ivOk .gcmEnc ⟨params 1 0 32 17, 8⟩ = true ∧ tagOk .gcmEnc ⟨params 1 0 32 17, 8⟩ = false) ∧
    (ivOk .cbcEnc ⟨params 16 0 31 0, 1⟩ = true ∧ tagOk .cbcEnc ⟨params 16 0 31 0, 1⟩ = true ∧
      lenOk .cbcEnc ⟨params 16 0 31 0, 1⟩ = false) ∧
    (ivOk .ccmEnc ⟨params 13 0 65536 4, 10⟩ = true ∧ tagOk .ccmEnc ⟨params 13 0 65536 4, 10⟩ = true ∧
      lenOk .ccmEnc ⟨params 13 0 65536 4, 10⟩ = true ∧ msgLenOk .ccmEnc ⟨params 13 0 65536 4, 10⟩ = false) ∧
    (ivOk .cbcEnc ⟨params 16 0 0xFFFFFFF0 0, 1⟩ = true ∧ tagOk .cbcEnc ⟨params 16 0 0xFFFFFFF0 0, 1⟩ = true ∧
      lenOk .cbcEnc ⟨params 16 0 0xFFFFFFF0 0, 1⟩ = true ∧ msgLenOk .cbcEnc ⟨params 16 0 0xFFFFFFF0 0, 1⟩ = true ∧
      rangesOk .cbcEnc ⟨params 16 0 0xFFFFFFF0 0, 1⟩ = false) ∧
    (ivOk .cbcEnc ⟨params 16 0 272 0, 1⟩ = true ∧ tagOk .cbcEnc ⟨params 16 0 272 0, 1⟩ = true ∧
      lenOk .cbcEnc ⟨params 16 0 272 0, 1⟩ = true ∧ msgLenOk .cbcEnc ⟨params 16 0 272 0, 1⟩ = true ∧
      rangesOk .cbcEnc ⟨params 16 0 272 0, 1⟩ = true ∧ overlapOk .cbcEnc ⟨params 16 0 272 0, 1⟩ = false) ∧
    (ivOk .cbcEnc ⟨params 16 0 256 0, 1⟩ = true ∧ tagOk .cbcEnc ⟨params 16 0 256 0, 1⟩ = true ∧
      lenOk .cbcEnc ⟨params 16 0 256 0, 1⟩ = true ∧ msgLenOk .cbcEnc ⟨params 16 0 256 0, 1⟩ = true ∧
      rangesOk .cbcEnc ⟨params 16 0 256 0, 1⟩ = true ∧ overlapOk .cbcEnc ⟨params 16 0 256 0, 1⟩ = true) := by
  decide +kernel

/-- The boundary values of the IV lengths and of the block length, and a latch with `LEN = 0`. -/
theorem witness_IvAndLengthRequirements :
    [15, 16, 17].map (fun n => ivOk .cbcEnc ⟨params n 0 0 0, 1⟩) = [false, true, false] ∧
    [0, 1].map (fun n => ivOk .gcmEnc ⟨params n 0 0 0, 8⟩) = [false, true] ∧
    [6, 7, 13, 14].map (fun n => ivOk .ccmDec ⟨params n 0 0 0, 11⟩) = [false, true, true, false] ∧
    [0, 15, 16, 17].map (fun n => lenOk .ghash ⟨params 0 0 n 0, 7⟩) = [true, false, true, false] ∧
    (⟨params 16 0 0 0, 1⟩ : Latch).len = 0 := by decide

/-- The boundary values of the tag lengths. -/
theorem witness_TagLengthRequirements :
    [3, 4, 16, 17].map (fun n => tagOk .gcmDec ⟨params 12 0 0 n, 9⟩) = [false, true, true, false] ∧
    [2, 4, 5, 16, 18].map (fun n => tagOk .ccmEnc ⟨params 13 0 0 n, 10⟩) = [false, true, false, true, false] := by decide

/-- The boundary values of the message length for L = 2, 3 and 4, each with a legal nonce length. -/
theorem witness_MessageLengthRequirement :
    [13, 12, 11, 7].map (fun n => ivOk .ccmEnc ⟨params n 0 0 0, 10⟩) = [true, true, true, true] ∧
    [65535, 65536].map (fun m => msgLenOk .ccmEnc ⟨params 13 0 m 0, 10⟩) = [true, false] ∧
    [16777215, 16777216].map (fun m => msgLenOk .ccmEnc ⟨params 12 0 m 0, 10⟩) = [true, false] ∧
    msgLenOk .ccmEnc ⟨params 11 0 0xFFFFFFFF 0, 10⟩ = true :=
  ⟨by decide +kernel, by decide +kernel, by decide +kernel, by decide +kernel⟩

/-- A range that ends at the top of memory, and a failing latch that passes the earlier checks. -/
theorem witness_UsedRangesAndTheirCheck :
    (∃ r ∈ usedRanges .ctr ⟨{ params 16 0 16 0 with inAddr := 0xFFFFFFF0 }, 6⟩, 0 < r.size ∧ r.base + r.size = 2 ^ 32) ∧
    ivOk .ctr ⟨{ params 16 0 16 0 with inAddr := 0xFFFFFFF1 }, 6⟩ = true ∧
    tagOk .ctr ⟨{ params 16 0 16 0 with inAddr := 0xFFFFFFF1 }, 6⟩ = true ∧
    lenOk .ctr ⟨{ params 16 0 16 0 with inAddr := 0xFFFFFFF1 }, 6⟩ = true ∧
    msgLenOk .ctr ⟨{ params 16 0 16 0 with inAddr := 0xFFFFFFF1 }, 6⟩ = true ∧
    rangesOk .ctr ⟨{ params 16 0 16 0 with inAddr := 0xFFFFFFF1 }, 6⟩ = false := by
  refine ⟨⟨⟨0xFFFFFFF0, 16⟩, ?_, ?_⟩, ?_⟩ <;> decide

/-- Both values of the overlap check: buffers that touch and that share one byte, in place, in place for GHASH, and OUTR and
TAGR of GCM_ENC; and an accepted command, and one that passes the earlier checks only. -/
theorem witness_OverlapCheckForbidsSharedBytes :
    [0x2E0, 0x2E1, 0x300, 0x31F, 0x320].map (fun a => overlapOk .cbcEnc ⟨{ params 16 0 32 0 with outAddr := a }, 1⟩) =
      [true, false, true, false, true] ∧
    overlapOk .ghash ⟨{ params 0 0 32 0 with outAddr := 0x300 }, 7⟩ = false ∧
    [0x413, 0x414].map (fun a => overlapOk .gcmEnc ⟨{ paramsOf .gcmEnc with tagAddr := a }, 8⟩) = [false, true] ∧
    validateCommand .cbcEnc ⟨{ params 16 0 32 0 with outAddr := 0x300 }, 1⟩ = .ok ∧
    ivOk .cbcEnc ⟨params 16 0 272 0, 1⟩ = true ∧ tagOk .cbcEnc ⟨params 16 0 272 0, 1⟩ = true ∧
    lenOk .cbcEnc ⟨params 16 0 272 0, 1⟩ = true ∧ msgLenOk .cbcEnc ⟨params 16 0 272 0, 1⟩ = true ∧
    rangesOk .cbcEnc ⟨params 16 0 272 0, 1⟩ = true ∧ overlapOk .cbcEnc ⟨params 16 0 272 0, 1⟩ = false := by decide +kernel

/-! ### The commands -/

theorem witness_CbcEncWritesChainedCiphertext :
    Clean .cbcEnc (job .cbcEnc []) ∧ 16 * 0 < (job .cbcEnc []).lp.len.toNat ∧ 16 * 1 < (job .cbcEnc []).lp.len.toNat :=
  ⟨clean_job rfl, by decide, by decide⟩

theorem witness_CbcDecWritesPlaintext :
    Clean .cbcDec (job .cbcDec []) ∧ 16 * 0 < (job .cbcDec []).lp.len.toNat ∧ 16 * 1 < (job .cbcDec []).lp.len.toNat :=
  ⟨clean_job rfl, by decide, by decide⟩

theorem witness_CfbEncWritesFeedbackCiphertext :
    Clean .cfbEnc (job .cfbEnc []) ∧ 16 * 0 < (job .cfbEnc []).lp.len.toNat ∧ 16 * 1 < (job .cfbEnc []).lp.len.toNat :=
  ⟨clean_job rfl, by decide, by decide⟩

theorem witness_CfbDecWritesPlaintext :
    Clean .cfbDec (job .cfbDec []) ∧ 16 * 0 < (job .cfbDec []).lp.len.toNat ∧ 16 * 1 < (job .cfbDec []).lp.len.toNat :=
  ⟨clean_job rfl, by decide, by decide⟩

theorem witness_OfbWritesIteratedKeystream :
    Clean .ofb (job .ofb []) ∧ 16 * 0 < (job .ofb []).lp.len.toNat ∧ 16 * 1 < (job .ofb []).lp.len.toNat :=
  ⟨clean_job rfl, by decide, by decide⟩

theorem witness_CtrWritesCounterKeystream :
    (.ctr, 4) ∈ [(Instr.ctr, 4), (Instr.ctrC64, 8)] ∧ Clean .ctr (job .ctr []) ∧ Clean .ctrC64 (job .ctrC64 []) ∧
      31 < (job .ctr []).lp.len.toNat :=
  ⟨by decide, clean_job rfl, clean_job rfl, by decide⟩

theorem witness_GhashWritesAccumulator : Clean .ghash (job .ghash []) ∧ Clean .ghashHmem (job .ghashHmem []) :=
  ⟨clean_job rfl, clean_job rfl⟩

theorem witness_GcmEncWritesCiphertextAndTag : Clean .gcmEnc (job .gcmEnc []) ∧ 19 < (job .gcmEnc []).lp.len.toNat :=
  ⟨clean_job rfl, by decide⟩

theorem witness_CcmEncWritesCiphertextAndTag : Clean .ccmEnc (job .ccmEnc []) ∧ 22 < (job .ccmEnc []).lp.len.toNat :=
  ⟨clean_job rfl, by decide⟩

/-- Memory that holds the string `t` at the tag address and nothing else. -/
def tagMem (t : Bytes) : Mem := memWrite [] 0x500 t

theorem tagMem_wf {t : Bytes} (h : t.length = 16) : Mem.wf (tagMem t) = true :=
  memWrite_wf rfl (by rw [h]; decide)

theorem tagMem_tag {t : Bytes} (h : t.length = 16) : memRead (tagMem t) 0x500 16 = t := by
  have := memRead_memWrite_same (m := []) rfl 0x500 t (by rw [h]; decide)
  rwa [h] at this

theorem tagMem_below (t : Bytes) {b n : Nat} (h : b + n ≤ 0x500) : memRead (tagMem t) b n = memRead [] b n :=
  memRead_memWrite_other _ _ _ _ _ (.inl h)

/-- There is a string of 16 bytes that differs from any given one. -/
theorem other_tag (x : Bytes) : ∃ t : Bytes, t.length = 16 ∧ t ≠ x := by
  by_cases h : zeroBytes 16 = x
  · exact ⟨List.replicate 16 1, rfl, by rw [← h]; decide⟩
  · exact ⟨zeroBytes 16, rfl, h⟩

/-- The tag GCM_DEC computes for `job .gcmDec`, whatever stands at the tag address. -/
def gcmExpected : Bytes :=
  (bytesOfBlock (gcmTagBlock 1 (memRead [] 0x100 12) (memRead [] 0x200 20) (memRead [] 0x300 20))).take 16

theorem gcmExpected_length : gcmExpected.length = 16 := by simp [gcmExpected]

theorem gcm_expects (t : Bytes) :
    (bytesOfBlock (gcmTagBlock (job .gcmDec (tagMem t)).lp.keyh (ivBytes (job .gcmDec (tagMem t)))
      (aadBytes (job .gcmDec (tagMem t))) (inBytes (job .gcmDec (tagMem t))))).take
        (job .gcmDec (tagMem t)).lp.tagLen.toNat = gcmExpected := by
  show (bytesOfBlock (gcmTagBlock 1 (memRead (tagMem t) 0x100 12) (memRead (tagMem t) 0x200 20)
    (memRead (tagMem t) 0x300 20))).take 16 = _
  rw [tagMem_below t (by decide), tagMem_below t (by decide), tagMem_below t (by decide), gcmExpected]

theorem gcm_supplied {t : Bytes} (h : t.length = 16) : tagBufBytes (job .gcmDec (tagMem t)) = t := tagMem_tag h

/-- Whether the rule of `job .gcmDec` reports a mismatch, for a tag buffer that holds `t`. -/
theorem gcm_rule {t : Bytes} (h : t.length = 16) :
    (ruleOf .gcmDec Config.cipherPort (job .gcmDec (tagMem t)).lp (job .gcmDec (tagMem t)).mem
      (job .gcmDec (tagMem t)).work).authFail = true ↔ t ≠ gcmExpected := by
  have := ruleGcmDec_authFail (job .gcmDec (tagMem t)).lp (job .gcmDec (tagMem t)).mem (job .gcmDec (tagMem t)).work
  refine this.trans ?_
  show tagBufBytes (job .gcmDec (tagMem t)) ≠ _ ↔ _
  rw [gcm_supplied h, ← gcm_expects t]
  rfl

theorem gcm_accepts : ∃ u, exec .gcmDec (job .gcmDec (tagMem gcmExpected)) = .next u ∧ u.status.authFail = false := by
  have haf := (gcm_rule gcmExpected_length).not.mpr (by simp)
  obtain ⟨u, h1, h2, -⟩ := exec_clean (clean_job (i := .gcmDec) (tagMem_wf gcmExpected_length)) (by simpa using haf)
  exact ⟨u, h1, congrArg Status.authFail h2.1.status⟩

theorem gcm_rejects {t : Bytes} (h : t.length = 16) (hne : t ≠ gcmExpected) :
    ∃ u, exec .gcmDec (job .gcmDec (tagMem t)) = .next u ∧ u.status.authFail = true := by
  have c := clean_job (i := .gcmDec) (tagMem_wf h)
  refine ⟨_, exec_undisturbed c.running c.undisturbed c.reads, ?_⟩
  rw [if_pos ((gcm_rule h).mpr hne)]
  rfl

theorem witness_GcmDecOpensOnlyOnTagMatch_match :
    ∃ s : State, Running .gcmDec s ∧ Undisturbed .gcmDec s ∧ ReadsAnswered .gcmDec s ∧ Mem.wf s.mem = true ∧
      tagBufBytes s = (bytesOfBlock (gcmTagBlock s.lp.keyh (ivBytes s) (aadBytes s) (inBytes s))).take s.lp.tagLen.toNat ∧
      WritesAnswered .gcmDec s ∧ 19 < s.lp.len.toNat := by
  have c := clean_job (i := .gcmDec) (tagMem_wf gcmExpected_length)
  refine ⟨_, c.running, c.undisturbed, c.reads, c.memWf, ?_, c.writes, by decide⟩
  rw [gcm_expects, gcm_supplied gcmExpected_length]

theorem witness_GcmDecOpensOnlyOnTagMatch_mismatch :
    ∃ s : State, Running .gcmDec s ∧ Undisturbed .gcmDec s ∧ ReadsAnswered .gcmDec s ∧ Mem.wf s.mem = true ∧
      tagBufBytes s ≠
        (bytesOfBlock (gcmTagBlock s.lp.keyh (ivBytes s) (aadBytes s) (inBytes s))).take s.lp.tagLen.toNat := by
  obtain ⟨t, ht, hne⟩ := other_tag gcmExpected
  have c := clean_job (i := .gcmDec) (tagMem_wf ht)
  refine ⟨_, c.running, c.undisturbed, c.reads, c.memWf, ?_⟩
  rw [gcm_expects, gcm_supplied ht]
  exact hne

/-- The plaintext of `job .ccmDec`. -/
def ccmPlain : Bytes :=
  (List.range 23).map fun j => readByte [] (0x300 + j) ^^^
    keystreamByte 1 2 (incCounter 2 (ccmA0Block (memRead [] 0x100 13)) 1) j

/-- The tag CCM_DEC computes for `job .ccmDec`. -/
def ccmExpected : Bytes :=
  (bytesOfBlock (ccmTagBlock 1 (memRead [] 0x100 13) (memRead [] 0x200 8) ccmPlain 16)).take 16

theorem ccmExpected_length : ccmExpected.length = 16 := by simp [ccmExpected]

theorem ccm_plain (t : Bytes) : ccmPlain.length = (job .ccmDec (tagMem t)).lp.len.toNat ∧
    ∀ j, j < (job .ccmDec (tagMem t)).lp.len.toNat →
      ccmPlain[j]? = some (readByte (job .ccmDec (tagMem t)).mem ((job .ccmDec (tagMem t)).lp.inAddr.toNat + j) ^^^
        keystreamByte (job .ccmDec (tagMem t)).lp.keyh (15 - (job .ccmDec (tagMem t)).lp.ivLen.toNat)
          (incCounter (15 - (job .ccmDec (tagMem t)).lp.ivLen.toNat) (ccmA0Block (ivBytes (job .ccmDec (tagMem t)))) 1) j) := by
  refine ⟨by simp [ccmPlain]; rfl, fun j hj => ?_⟩
  have hj' : j < 23 := hj
  show _ = some (readByte (tagMem t) (0x300 + j) ^^^
    keystreamByte 1 2 (incCounter 2 (ccmA0Block (memRead (tagMem t) 0x100 13)) 1) j)
  rw [tagMem_below t (by decide), tagMem, readByte_memWrite_other _ _ _ _ (.inl (by omega))]
  simp [ccmPlain, hj']

theorem ccm_expects (t : Bytes) :
    (bytesOfBlock (ccmTagBlock (job .ccmDec (tagMem t)).lp.keyh (ivBytes (job .ccmDec (tagMem t)))
      (aadBytes (job .ccmDec (tagMem t))) ccmPlain (job .ccmDec (tagMem t)).lp.tagLen.toNat)).take
        (job .ccmDec (tagMem t)).lp.tagLen.toNat = ccmExpected := by
  show (bytesOfBlock (ccmTagBlock 1 (memRead (tagMem t) 0x100 13) (memRead (tagMem t) 0x200 8) ccmPlain 16)).take 16 = _
  rw [tagMem_below t (by decide), tagMem_below t (by decide), ccmExpected]

theorem ccm_supplied {t : Bytes} (h : t.length = 16) : tagBufBytes (job .ccmDec (tagMem t)) = t := tagMem_tag h

theorem witness_CcmDecOpensOnlyOnTagMatch_match :
    ∃ (s : State) (pt : Bytes), Running .ccmDec s ∧ Undisturbed .ccmDec s ∧ ReadsAnswered .ccmDec s ∧
      Mem.wf s.mem = true ∧ pt.length = s.lp.len.toNat ∧
      (∀ j, j < s.lp.len.toNat → pt[j]? = some (readByte s.mem (s.lp.inAddr.toNat + j) ^^^
        keystreamByte s.lp.keyh (15 - s.lp.ivLen.toNat)
          (incCounter (15 - s.lp.ivLen.toNat) (ccmA0Block (ivBytes s)) 1) j)) ∧
      tagBufBytes s = (bytesOfBlock (ccmTagBlock s.lp.keyh (ivBytes s) (aadBytes s) pt s.lp.tagLen.toNat)).take
        s.lp.tagLen.toNat ∧ WritesAnswered .ccmDec s := by
  have c := clean_job (i := .ccmDec) (tagMem_wf ccmExpected_length)
  refine ⟨_, ccmPlain, c.running, c.undisturbed, c.reads, c.memWf, (ccm_plain _).1, (ccm_plain _).2, ?_, c.writes⟩
  rw [ccm_expects, ccm_supplied ccmExpected_length]

theorem witness_CcmDecOpensOnlyOnTagMatch_mismatch :
    ∃ (s : State) (pt : Bytes), Running .ccmDec s ∧ Undisturbed .ccmDec s ∧ ReadsAnswered .ccmDec s ∧
      Mem.wf s.mem = true ∧ pt.length = s.lp.len.toNat ∧
      (∀ j, j < s.lp.len.toNat → pt[j]? = some (readByte s.mem (s.lp.inAddr.toNat + j) ^^^
        keystreamByte s.lp.keyh (15 - s.lp.ivLen.toNat)
          (incCounter (15 - s.lp.ivLen.toNat) (ccmA0Block (ivBytes s)) 1) j)) ∧
      tagBufBytes s ≠ (bytesOfBlock (ccmTagBlock s.lp.keyh (ivBytes s) (aadBytes s) pt s.lp.tagLen.toNat)).take
        s.lp.tagLen.toNat := by
  obtain ⟨t, ht, hne⟩ := other_tag ccmExpected
  have c := clean_job (i := .ccmDec) (tagMem_wf ht)
  refine ⟨_, ccmPlain, c.running, c.undisturbed, c.reads, c.memWf, (ccm_plain _).1, (ccm_plain _).2, ?_⟩
  rw [ccm_expects, ccm_supplied ht]
  exact hne

/-! ### Bus errors and races -/

theorem witness_UnansweredByteEndsWithErrBus_read :
    ∃ s : State, Running .cbcEnc s ∧ Undisturbed .cbcEnc s ∧ Mem.wf s.mem = true ∧ ¬ ReadsAnswered .cbcEnc s := by
  refine ⟨{ job .cbcEnc [] with platform := ⟨[⟨0x31F, 1⟩], []⟩ }, ⟨rfl, paramsOf_ok .cbcEnc⟩, ⟨rfl, fun _ _ _ _ => rfl⟩, rfl,
    fun h => ?_⟩
  have := h ⟨0x300, 32⟩ (by decide) 0x31F (by decide)
  revert this
  decide

theorem witness_UnansweredByteEndsWithErrBus_write :
    ∃ s u : State, Running .cbcEnc s ∧ Undisturbed .cbcEnc s ∧ Mem.wf s.mem = true ∧ ReadsAnswered .cbcEnc s ∧
      exec .cbcEnc { s with platform := ⟨[], s.platform.odd⟩ } = .next u ∧ u.status.authFail = false ∧
      ¬ WritesAnswered .cbcEnc s := by
  obtain ⟨u, h1, h2, -⟩ := exec_clean (clean_job (i := .cbcEnc) (m := []) rfl) rfl
  refine ⟨{ job .cbcEnc [] with platform := ⟨[⟨0x41F, 1⟩], []⟩ }, u, ⟨rfl, paramsOf_ok .cbcEnc⟩,
    ⟨rfl, fun _ _ _ _ => rfl⟩, rfl, ?_, h1, congrArg Status.authFail h2.1.status, fun h => ?_⟩
  · rw [ReadsAnswered, ← allBytes_iff]
    decide
  · have := h ⟨0x400, 32⟩ (by decide) 0x41F (by decide)
    revert this
    decide

theorem witness_UnansweredByteEndsWithErrBus_mismatch :
    ∃ s u : State, Running .gcmDec s ∧ Undisturbed .gcmDec s ∧ Mem.wf s.mem = true ∧ ReadsAnswered .gcmDec s ∧
      exec .gcmDec { s with platform := ⟨[], s.platform.odd⟩ } = .next u ∧ u.status.authFail = true ∧
      ¬ WritesAnswered .gcmDec s := by
  obtain ⟨t, ht, hne⟩ := other_tag gcmExpected
  have c := clean_job (i := .gcmDec) (tagMem_wf ht)
  have haf : (ruleOf .gcmDec Config.cipherPort (job .gcmDec (tagMem t)).lp (job .gcmDec (tagMem t)).mem
      (job .gcmDec (tagMem t)).work).authFail = true := by
    refine (ruleGcmDec_authFail _ _ _).mpr fun h => hne ?_
    rw [← gcm_supplied ht, ← gcm_expects t]
    exact h
  refine ⟨{ job .gcmDec (tagMem t) with platform := ⟨[⟨0x400, 1⟩], []⟩ }, _, c.running, ⟨rfl, fun _ _ _ _ => rfl⟩, c.memWf,
    ?_, exec_undisturbed c.running c.undisturbed c.reads, ?_, fun h => ?_⟩
  · rw [ReadsAnswered, ← allBytes_iff]
    show allBytes (readRanges .gcmDec ⟨paramsOf .gcmDec, encode .gcmDec⟩) (busOK ⟨[⟨0x400, 1⟩], []⟩) = true
    decide
  · rw [if_pos haf]
    rfl
  · have := h ⟨0x400, 20⟩ (by
      show (⟨0x400, 20⟩ : Range) ∈ writeRanges .gcmDec ⟨paramsOf .gcmDec, encode .gcmDec⟩
      decide) 0x400 (by decide)
    revert this
    show busOK ⟨[⟨0x400, 1⟩], []⟩ 0x400 = true → False
    decide

theorem witness_DisturbedCommandEndsUnspecified_raced :
    Running .ctr { job .ctr [] with raced := true } ∧ Mem.wf (job .ctr []).mem = true ∧
      ({ job .ctr [] with raced := true } : State).raced = true :=
  ⟨⟨rfl, paramsOf_ok .ctr⟩, rfl, rfl⟩

/-- A raced command that checks no tag, whose read bytes all answer and whose last output byte does not. -/
theorem witness_DisturbedCommandEndsUnspecified_racedWrite :
    Running .ctr { job .ctr [] with raced := true, platform := ⟨[⟨0x41F, 1⟩], []⟩ } ∧ checksTag .ctr = false ∧
      ReadsAnswered .ctr { job .ctr [] with raced := true, platform := ⟨[⟨0x41F, 1⟩], []⟩ } ∧
      ¬ WritesAnswered .ctr { job .ctr [] with raced := true, platform := ⟨[⟨0x41F, 1⟩], []⟩ } := by
  refine ⟨⟨rfl, paramsOf_ok .ctr⟩, rfl, ?_, ?_⟩
  · rw [ReadsAnswered, ← allBytes_iff]
    decide
  · rw [WritesAnswered, ← allBytes_iff]
    decide

/-- The input is not ordinary memory, and a read byte does not answer. -/
theorem witness_DisturbedCommandEndsUnspecified_read :
    Running .ctr { job .ctr [] with platform := ⟨[⟨0x31F, 1⟩], [⟨0x300, 1⟩]⟩ } ∧ (job .ctr []).raced = false ∧
      OddByte (usedRanges .ctr (job .ctr []).lp) { job .ctr [] with platform := ⟨[⟨0x31F, 1⟩], [⟨0x300, 1⟩]⟩ } ∧
      ¬ ReadsAnswered .ctr { job .ctr [] with platform := ⟨[⟨0x31F, 1⟩], [⟨0x300, 1⟩]⟩ } := by
  refine ⟨⟨rfl, paramsOf_ok .ctr⟩, rfl, ⟨⟨0x300, 32⟩, by decide, 0x300, by decide, by decide⟩, fun h => ?_⟩
  have := h ⟨0x300, 32⟩ (by decide) 0x31F (by decide)
  revert this
  decide

/-- The input is not ordinary memory, every read byte answers, and the command checks no tag: with every write byte
answering, and with one that does not. -/
theorem witness_DisturbedCommandEndsUnspecified_plain :
    checksTag .ctr = false ∧ (∃ u, exec .ctr { job .ctr [] with platform := ⟨[], []⟩ } = .next u) ∧
      ∀ dead ∈ [[], [(⟨0x41F, 1⟩ : Range)]],
        Running .ctr { job .ctr [] with platform := ⟨dead, [⟨0x300, 1⟩]⟩ } ∧
        OddByte (usedRanges .ctr (job .ctr []).lp) { job .ctr [] with platform := ⟨dead, [⟨0x300, 1⟩]⟩ } ∧
        ReadsAnswered .ctr { job .ctr [] with platform := ⟨dead, [⟨0x300, 1⟩]⟩ } ∧
        (WritesAnswered .ctr { job .ctr [] with platform := ⟨dead, [⟨0x300, 1⟩]⟩ } ↔ dead = []) := by
  refine ⟨rfl, ⟨_, exec_busy rfl (paramsOf_ok .ctr)⟩, fun dead hd => ⟨⟨rfl, paramsOf_ok .ctr⟩,
    ⟨⟨0x300, 32⟩, by decide, 0x300, by decide, ?_⟩, ?_, ?_⟩⟩
  · show ordinaryByte ⟨dead, [⟨0x300, 1⟩]⟩ 0x300 = false
    rfl
  · rw [ReadsAnswered, ← allBytes_iff]
    simp only [List.mem_cons, List.not_mem_nil, or_false] at hd
    rcases hd with rfl | rfl <;> decide
  · rw [WritesAnswered, ← allBytes_iff]
    simp only [List.mem_cons, List.not_mem_nil, or_false] at hd
    rcases hd with rfl | rfl <;> decide

/-- A command that checks a tag, with a tag buffer that is not ordinary memory. -/
theorem witness_DisturbedCommandEndsUnspecified_tag :
    Running .gcmDec { job .gcmDec [] with platform := ⟨[], [⟨0x500, 1⟩]⟩ } ∧ checksTag .gcmDec = true ∧
      OddByte (readRanges .gcmDec (job .gcmDec []).lp) { job .gcmDec [] with platform := ⟨[], [⟨0x500, 1⟩]⟩ } ∧
      OddByte (usedRanges .gcmDec (job .gcmDec []).lp) { job .gcmDec [] with platform := ⟨[], [⟨0x500, 1⟩]⟩ } ∧
      ReadsAnswered .gcmDec { job .gcmDec [] with platform := ⟨[], [⟨0x500, 1⟩]⟩ } ∧
      ∃ u, exec .gcmDec { job .gcmDec [] with platform := ⟨[], []⟩ } = .next u :=
  ⟨⟨rfl, paramsOf_ok .gcmDec⟩, rfl, ⟨⟨0x500, 16⟩, by decide, 0x500, by decide, by decide⟩,
    ⟨⟨0x500, 16⟩, by decide, 0x500, by decide, by decide⟩, fun _ _ _ _ => rfl, _, exec_busy rfl (paramsOf_ok .gcmDec)⟩

/-- A command that checks a tag, with only its output buffer not ordinary memory: a tag that matches and one that does not. -/
theorem witness_DisturbedCommandEndsUnspecified_output :
    ∀ af, ∃ s u : State, Running .gcmDec s ∧ Mem.wf s.mem = true ∧ s.raced = false ∧ OddByte (usedRanges .gcmDec s.lp) s ∧
      ReadsAnswered .gcmDec s ∧ ¬ OddByte (readRanges .gcmDec s.lp) s ∧
      exec .gcmDec { s with platform := ⟨[], []⟩ } = .next u ∧ u.status.authFail = af := by
  have key : ∀ (t : Bytes) (af : Bool), t.length = 16 →
      (∃ u, exec .gcmDec (job .gcmDec (tagMem t)) = .next u ∧ u.status.authFail = af) →
      ∃ s u : State, Running .gcmDec s ∧ Mem.wf s.mem = true ∧ s.raced = false ∧ OddByte (usedRanges .gcmDec s.lp) s ∧
        ReadsAnswered .gcmDec s ∧ ¬ OddByte (readRanges .gcmDec s.lp) s ∧
        exec .gcmDec { s with platform := ⟨[], []⟩ } = .next u ∧ u.status.authFail = af := by
    rintro t af ht ⟨u, h1, h2⟩
    refine ⟨{ job .gcmDec (tagMem t) with platform := ⟨[], [⟨0x400, 1⟩]⟩ }, u, ⟨rfl, paramsOf_ok .gcmDec⟩, tagMem_wf ht, rfl,
      ⟨⟨0x400, 20⟩, ?_, 0x400, by decide, rfl⟩, fun _ _ _ _ => rfl, ?_, h1, h2⟩
    · show (⟨0x400, 20⟩ : Range) ∈ usedRanges .gcmDec ⟨paramsOf .gcmDec, encode .gcmDec⟩
      decide
    · rintro ⟨r, hr, a, ha, ho⟩
      have hall : allBytes (readRanges .gcmDec ⟨paramsOf .gcmDec, encode .gcmDec⟩) (ordinaryByte ⟨[], [⟨0x400, 1⟩]⟩) = true := by
        decide
      exact absurd (allBytes_iff.mp hall r hr a ha) (by rw [show ordinaryByte ⟨[], [⟨0x400, 1⟩]⟩ a = false from ho]; decide)
  rintro (_ | _)
  · exact key _ _ gcmExpected_length gcm_accepts
  · obtain ⟨t, ht, hne⟩ := other_tag gcmExpected
    exact key _ _ ht (gcm_rejects ht hne)

/-- Both ways `exec` answers a next state: an idle engine and a busy one. -/
theorem witness_EngineWritesOnlyWriteRanges :
    (∃ t, exec .cfbEnc (idle (paramsOf .cfbEnc) [] []) = .next t) ∧ (idle (paramsOf .cfbEnc) [] []).status.busy = false ∧
      (∃ t, exec .cfbEnc (job .cfbEnc []) = .next t) ∧ (job .cfbEnc []).status.busy = true :=
  ⟨⟨_, exec_idle rfl⟩, rfl, ⟨_, exec_busy rfl (paramsOf_ok .cfbEnc)⟩, rfl⟩

theorem witness_CommandsLeaveRegistersAlone : ∃ t, exec .ghash (job .ghash []) = .next t :=
  ⟨_, exec_busy rfl (paramsOf_ok .ghash)⟩

theorem witness_EveryEndScrubsAndRaisesDone :
    (∃ t, exec .ofb (job .ofb []) = .next t) ∧ (job .ofb []).status.busy = true ∧
      ∃ t, exec .cbcEnc (idle (params 8 0 20 0) [] []) = .next t ∧ t.status.busy = false :=
  ⟨⟨_, exec_busy rfl (paramsOf_ok .ofb)⟩, rfl, _, exec_idle rfl, by decide⟩

theorem witness_AuthFailMeansMismatchAndNothingWritten :
    (∃ t, Running .ccmDec (job .ccmDec []) ∧ (job .ccmDec []).raced = false ∧ exec .ccmDec (job .ccmDec []) = .next t ∧
      ¬ OddByte (readRanges .ccmDec (job .ccmDec []).lp) (job .ccmDec []) ∧ ∃ pt, CcmOpensTo (job .ccmDec (tagMem [])) pt) ∧
    ∃ (s t : State), Running .gcmDec s ∧ s.raced = false ∧ exec .gcmDec s = .next t ∧ t.status.authFail = true := by
  refine ⟨⟨_, (clean_job rfl).running, rfl, exec_busy rfl (paramsOf_ok .ccmDec), ?_, ccmPlain, ccm_plain []⟩, ?_⟩
  · rintro ⟨r, hr, a, ha, ho⟩
    cases ho
  · obtain ⟨t, ht, hne⟩ := other_tag gcmExpected
    obtain ⟨u, h1, h2⟩ := gcm_rejects ht hne
    exact ⟨_, u, (clean_job (tagMem_wf ht)).running, rfl, h1, h2⟩

/-- Two machines that differ in a byte outside the command's read ranges. -/
theorem witness_ResultDependsOnlyOnOperands :
    ∃ t₁ t₂, Clean .cbcEnc (job .cbcEnc []) ∧ Clean .cbcEnc (job .cbcEnc [(0x400, 7)]) ∧
      (job .cbcEnc []).lp = (job .cbcEnc [(0x400, 7)]).lp ∧
      (∀ a, inRanges (readRanges .cbcEnc (job .cbcEnc []).lp) a = true →
        readByte (job .cbcEnc []).mem a = readByte (job .cbcEnc [(0x400, 7)]).mem a) ∧
      exec .cbcEnc (job .cbcEnc []) = .next t₁ ∧ exec .cbcEnc (job .cbcEnc [(0x400, 7)]) = .next t₂ ∧
      t₁.status.authFail = false := by
  obtain ⟨u, h1, h2, -⟩ := exec_clean (clean_job (i := .cbcEnc) (m := []) rfl) rfl
  refine ⟨u, _, clean_job rfl, clean_job rfl, rfl, fun a ha => ?_, h1, exec_busy rfl (paramsOf_ok .cbcEnc),
    congrArg Status.authFail h2.1.status⟩
  have hne : a ≠ 0x400 := by
    rintro rfl
    exact absurd ha (by decide)
  show readByte [] a = readByte [(0x400, 7)] a
  simp [readByte, hne.symm]

/-- A host that reads and writes registers and its own bytes while the command runs. -/
theorem witness_CompletionIsOneAtomicTransition :
    ∃ s u : State, ∃ es : List Event, Running .cbcEnc s ∧ decode s.lp.cmd = .command .cbcEnc ∧ Mem.wf s.mem = true ∧
      s.schedule = es ++ .engine :: [] ∧ (∀ e ∈ es, QuietEvent .cbcEnc s.lp e) ∧ exec .cbcEnc s = .next u ∧ es.length = 5 := by
  refine ⟨jobThen .cbcEnc [] [.regWrite .word 0x0C 9, .regWrite .word 0x00 1, .regRead .word 0x04, .memWrite 0x9000 1,
    .memRead 0x300, .engine], _, [.regWrite .word 0x0C 9, .regWrite .word 0x00 1, .regRead .word 0x04, .memWrite 0x9000 1,
    .memRead 0x300], ⟨rfl, paramsOf_ok .cbcEnc⟩, decode_encode .cbcEnc, rfl, rfl, ?_,
    exec_busy rfl (paramsOf_ok .cbcEnc), rfl⟩
  intro e he
  simp only [List.mem_cons, List.not_mem_nil, or_false] at he
  rcases he with rfl | rfl | rfl | rfl | rfl
  · exact ⟨.keyh, rfl, fun h => by cases h⟩
  · exact ⟨.ctrl, rfl, fun _ => by decide⟩
  · exact ⟨.status, rfl⟩
  · show inRanges _ _ = false
    decide
  · show inRanges _ _ = false
    decide

theorem witness_EveryAcceptedCommandEnds :
    Invariant (jobThen .gcmEnc [] [.memRead 0x400]) ∧ (jobThen .gcmEnc [] [.memRead 0x400]).status.busy = true :=
  ⟨⟨rfl, (invariant_job (i := .gcmEnc) (m := []) rfl).tagMin, rfl, fun h => Bool.noConfusion h,
    (invariant_job (i := .gcmEnc) (m := []) rfl).busy⟩, rfl⟩

theorem witness_EveryStepKeepsInvariant : ∃ t, Invariant (job .cbcEnc []) ∧ step (job .cbcEnc []) = .next t := by
  have h : step (job .cbcEnc []) = exec .cbcEnc (job .cbcEnc []) := by
    rw [step_nil rfl, engineTurn_busy (s := job .cbcEnc []) rfl (decode_encode .cbcEnc), carryOut_run]
  exact ⟨_, invariant_job rfl, h.trans (exec_busy rfl (paramsOf_ok .cbcEnc))⟩

/-- An idle and a busy engine, a byte read and a misaligned write. -/
theorem witness_StopsExactlyAtAccessesNotAdmitted :
    WindowAccessNext (idle ParamRegs.reset [] [.regRead .byte 0x04]) .byte 0x04 [] ∧
      (idle ParamRegs.reset [] [.regRead .byte 0x04]).status.busy = false ∧
      WindowAccessNext (jobThen .ctr [] [.regWrite .word 0x06 1]) .word 0x06 [] ∧ (0x06 : BitVec 6).toNat % 4 ≠ 0 ∧
      (jobThen .ctr [] [.regWrite .word 0x06 1]).status.busy = true ∧
      decode (jobThen .ctr [] [.regWrite .word 0x06 1]).lp.cmd = .command .ctr ∧
      Invariant (idle ParamRegs.reset [] [.regRead .byte 0x04]) ∧
      step (idle ParamRegs.reset [] [.regRead .byte 0x04]) = .fault .windowAccessNotAdmitted :=
  ⟨.inr rfl, rfl, .inl ⟨1, rfl⟩, by decide, rfl, decode_encode .ctr,
    ⟨rfl, by decide, rfl, fun _ => ⟨rfl, rfl, rfl⟩, fun h => by cases h⟩, rfl⟩

/-! ### The host's accesses -/

theorem witness_CommandWriteWhileBusyIsDropped :
    (jobThen .ctr [] [.regWrite .word 0x08 0x106]).schedule = [.regWrite .word 0x08 0x106] ∧
      (jobThen .ctr [] [.regWrite .word 0x08 0x106]).status.busy = true := ⟨rfl, rfl⟩

theorem witness_RegisterAccessTakesEffectAtOnce :
    ((0x3C : BitVec 6), Reg.reserved3C) ∈ windowRegisters ∧ ((0x00 : BitVec 6), Reg.ctrl) ∈ windowRegisters ∧
      (jobThen .ctr [] [.regRead .word 0x3C]).schedule = [.regRead .word 0x3C] ∧
      ((0x0C : BitVec 6), Reg.keyh) ∈ [((0x0C : BitVec 6), Reg.keyh), (0x10, .ivAddr), (0x14, .ivLen), (0x18, .aadAddr),
        (0x1C, .aadLen), (0x20, .inAddr), (0x24, .outAddr), (0x28, .len), (0x2C, .tagAddr), (0x30, .tagLen)] ∧
      (jobThen .ctr [] [.regWrite .word 0x0C 9]).schedule = [.regWrite .word 0x0C 9] := by decide

/-- The boundary values 0, 1, 16 and 17. -/
theorem witness_TagMinTakesOnlyLegalValues :
    (∀ v : Word, (idle ParamRegs.reset [] [.regWrite .word 0x34 v]).schedule = [.regWrite .word 0x34 v]) ∧
      [0, 1, 16, 17].map (fun v : Word => decide (1 ≤ v.toNat ∧ v.toNat ≤ 16)) = [false, true, true, false] ∧
      (1 ≤ ParamRegs.reset.tagMin.toNat ∧ ParamRegs.reset.tagMin.toNat ≤ 16) :=
  ⟨fun _ => rfl, by decide, by decide⟩

theorem witness_StatusWriteClearsByOnes :
    (idle ParamRegs.reset [] [.regWrite .word 0x04 0xA]).schedule = [.regWrite .word 0x04 0xA] ∧
      (idle ParamRegs.reset [] [.regRead .word 0x04]).schedule = [.regRead .word 0x04] := ⟨rfl, rfl⟩

theorem witness_ReservedPlacesReadZero :
    (idle ParamRegs.reset [] [.regRead .word 0x38]).schedule = [.regRead .word 0x38] ∧
      (idle ParamRegs.reset [] [.regWrite .word 0x3C 5]).schedule = [.regWrite .word 0x3C 5] ∧
      (5 : Word).extractLsb' 0 2 = (1 : Word).extractLsb' 0 2 ∧
      (idle ParamRegs.reset [] [.regWrite .word 0x00 5]).schedule = [.regWrite .word 0x00 5] ∧
      (0x1A : Word).extractLsb' 0 4 = (0xA : Word).extractLsb' 0 4 ∧
      (0x1A : Word).extractLsb' 8 4 = (0xA : Word).extractLsb' 8 4 ∧
      (idle ParamRegs.reset [] [.regWrite .word 0x04 0x1A]).schedule = [.regWrite .word 0x04 0x1A] := by decide

theorem witness_InterruptLineFollowsEnableAndDone :
    (idle ParamRegs.reset [] [.regWrite .word 0x00 1]).schedule = [.regWrite .word 0x00 1] ∧
      (1 : Word).getLsbD 1 = false := by decide

/-- A used byte and a byte beside it are written; a write-range byte and another are read. -/
theorem witness_HostMemoryAccess :
    (jobThen .ctr [] [.memWrite 0x31F 1]).schedule = [.memWrite 0x31F 1] ∧ Mem.wf (job .ctr []).mem = true ∧
      inRanges (liveUsedRanges (job .ctr [])) 0x31F = true ∧ inRanges (liveUsedRanges (job .ctr [])) 0x320 = false ∧
      (job .ctr []).status.busy = true ∧ decode (job .ctr []).lp.cmd = .command .ctr ∧ State.reset.status.busy = false ∧
      (jobThen .ctr [] [.memRead 0x41F]).schedule = [.memRead 0x41F] ∧
      inRanges (liveWriteRanges (job .ctr [])) 0x41F = true ∧ inRanges (liveWriteRanges (job .ctr [])) 0x420 = false := by
  decide

/-! ### Functions and properties -/

theorem witness_CounterIncrementLaws : (1 ≤ 1 ∧ 1 ≤ 16 ∧ 14 < 16 - 1) ∧ (1 ≤ 16 ∧ 16 ≤ 16) := by decide

theorem witness_GhashIsLinearAndPolynomial : (zeroBytes 32).length = (List.replicate 32 (1 : Byte)).length ∧
    (zeroBytes 32).length % 16 = 0 := by decide

/-- Two strings that agree but in one byte. -/
theorem differ_at (xs : Bytes) (x y : Byte) (ys : Bytes) (h : x ≠ y) :
    DifferOnlyAt (xs ++ x :: ys) (xs ++ y :: ys) xs.length := by
  refine ⟨by simp, by simp, by simpa using h, fun i hi => ?_⟩
  rcases Nat.lt_or_ge i xs.length with hlt | hge
  · rw [List.getElem?_append_left hlt, List.getElem?_append_left hlt]
  · rw [List.getElem?_append_right hge, List.getElem?_append_right hge]
    obtain ⟨n, hn⟩ : ∃ n, i - xs.length = n + 1 := ⟨i - xs.length - 1, by omega⟩
    simp [hn]

/-- Memory that holds the tag of `job .gcmDec` and one byte more. -/
def tamperedMem (a : Nat) : Mem := memWrite [(a, 1)] 0x500 gcmExpected

theorem tamperedMem_wf {a : Nat} (h : Mem.wf [(a, 1)] = true) : Mem.wf (tamperedMem a) = true :=
  memWrite_wf h (by rw [gcmExpected_length]; decide)

theorem tamperedMem_below (a : Nat) {b n : Nat} (h : b + n ≤ 0x500) : memRead (tamperedMem a) b n = memRead [(a, 1)] b n :=
  memRead_memWrite_other _ _ _ _ _ (.inl h)

theorem tamperedMem_tag {a : Nat} (h : Mem.wf [(a, 1)] = true) : memRead (tamperedMem a) 0x500 16 = gcmExpected := by
  have := memRead_memWrite_same h 0x500 gcmExpected (by rw [gcmExpected_length]; decide)
  rwa [gcmExpected_length] at this

theorem gcm_iv (m : Mem) : ivBytes (job .gcmDec m) = memRead m 0x100 12 := rfl
theorem gcm_aad (m : Mem) : aadBytes (job .gcmDec m) = memRead m 0x200 20 := rfl
theorem gcm_in (m : Mem) : inBytes (job .gcmDec m) = memRead m 0x300 20 := rfl
theorem gcm_tag (m : Mem) : tagBufBytes (job .gcmDec m) = memRead m 0x500 16 := rfl

/-- A GCM_DEC that differs from the accepted one in one byte below the tag. -/
theorem tampered (a : Nat) (hw : Mem.wf [(a, 1)] = true) (hiv : memRead [(a, 1)] 0x100 12 = memRead [] 0x100 12) :
    ∃ s₁ s₂ t₁ t₂ : State, Clean .gcmDec s₁ ∧ Clean .gcmDec s₂ ∧ s₂.lp.keyh = s₁.lp.keyh ∧ s₂.lp.tagLen = s₁.lp.tagLen ∧
      s₁.lp.tagLen = 16 ∧ ivBytes s₂ = ivBytes s₁ ∧ tagBufBytes s₂ = tagBufBytes s₁ ∧
      aadBytes s₁ = memRead [] 0x200 20 ∧ aadBytes s₂ = memRead [(a, 1)] 0x200 20 ∧
      inBytes s₁ = memRead [] 0x300 20 ∧ inBytes s₂ = memRead [(a, 1)] 0x300 20 ∧
      exec .gcmDec s₁ = .next t₁ ∧ exec .gcmDec s₂ = .next t₂ ∧ t₁.status.authFail = false := by
  obtain ⟨t₁, h1, h2⟩ := gcm_accepts
  refine ⟨job .gcmDec (tagMem gcmExpected), job .gcmDec (tamperedMem a), t₁, _, clean_job (tagMem_wf gcmExpected_length),
    clean_job (tamperedMem_wf hw), rfl, rfl, rfl, ?_, ?_, ?_, ?_, ?_, ?_, h1, exec_busy rfl (paramsOf_ok .gcmDec), h2⟩
  · rw [gcm_iv, gcm_iv, tamperedMem_below _ (by decide), tagMem_below _ (by decide), hiv]
  · rw [gcm_tag, gcm_tag, tamperedMem_tag hw, tagMem_tag gcmExpected_length]
  · rw [gcm_aad, tagMem_below _ (by decide)]
  · rw [gcm_aad, tamperedMem_below _ (by decide)]
  · rw [gcm_in, tagMem_below _ (by decide)]
  · rw [gcm_in, tamperedMem_below _ (by decide)]

theorem witness_TamperingShiftsGcmTag_string : DifferOnlyAt [1, 2] [1, 3] 1 := differ_at [1] 2 3 [] (by decide)

/-- The last ciphertext byte changed. -/
theorem witness_TamperingShiftsGcmTag_ciphertext :
    ∃ s₁ s₂ t₁ t₂ : State, Clean .gcmDec s₁ ∧ Clean .gcmDec s₂ ∧ s₂.lp.keyh = s₁.lp.keyh ∧ s₂.lp.tagLen = s₁.lp.tagLen ∧
      s₁.lp.tagLen = 16 ∧ ivBytes s₂ = ivBytes s₁ ∧ tagBufBytes s₂ = tagBufBytes s₁ ∧ aadBytes s₂ = aadBytes s₁ ∧
      DifferOnlyAt (inBytes s₁) (inBytes s₂) 19 ∧ exec .gcmDec s₁ = .next t₁ ∧ exec .gcmDec s₂ = .next t₂ ∧
      t₁.status.authFail = false := by
  obtain ⟨s₁, s₂, t₁, t₂, h1, h2, h3, h4, h5, h6, h7, a1, a2, c1, c2, h8, h9, h10⟩ := tampered 0x313 (by decide) (by decide)
  refine ⟨s₁, s₂, t₁, t₂, h1, h2, h3, h4, h5, h6, h7, ?_, ?_, h8, h9, h10⟩
  · rw [a1, a2]
    decide
  · rw [c1, c2]
    exact differ_at (zeroBytes 19) 0 1 [] (by decide)

/-- The first AAD byte changed. -/
theorem witness_TamperingShiftsGcmTag_aad :
    ∃ s₁ s₂ t₁ t₂ : State, Clean .gcmDec s₁ ∧ Clean .gcmDec s₂ ∧ s₂.lp.keyh = s₁.lp.keyh ∧ s₂.lp.tagLen = s₁.lp.tagLen ∧
      s₁.lp.tagLen = 16 ∧ ivBytes s₂ = ivBytes s₁ ∧ tagBufBytes s₂ = tagBufBytes s₁ ∧ inBytes s₂ = inBytes s₁ ∧
      DifferOnlyAt (aadBytes s₁) (aadBytes s₂) 0 ∧ exec .gcmDec s₁ = .next t₁ ∧ exec .gcmDec s₂ = .next t₂ ∧
      t₁.status.authFail = false := by
  obtain ⟨s₁, s₂, t₁, t₂, h1, h2, h3, h4, h5, h6, h7, a1, a2, c1, c2, h8, h9, h10⟩ := tampered 0x200 (by decide) (by decide)
  refine ⟨s₁, s₂, t₁, t₂, h1, h2, h3, h4, h5, h6, h7, ?_, ?_, h8, h9, h10⟩
  · rw [c1, c2]
    decide
  · rw [a1, a2]
    exact differ_at [] 0 1 (zeroBytes 19) (by decide)

/-- A write that ends at the top of memory, its first and last byte, and the bytes beside it. -/
theorem witness_MemoryReadsBackWrites :
    Mem.wf [] = true ∧ 0xFFFFFFFE + ([1, 2] : Bytes).length ≤ 2 ^ 32 ∧ 0 < ([1, 2] : Bytes).length ∧
      1 < ([1, 2] : Bytes).length ∧ 0xFFFFFFFD < 0xFFFFFFFE ∧ (0 : Nat) < (memRead [] 0 1).length := by decide

/-- A string of two whole blocks, its second block, one block, and two strings of one length. -/
theorem witness_ByteStringConversions :
    (zeroBytes 32).length % 16 = 0 ∧ 1 < (zeroBytes 32).length / 16 ∧ (zeroBytes 16).length = 16 ∧
      ([1, 2] : Bytes).length = ([3, 4] : Bytes).length ∧ 1 < ([1, 2] : Bytes).length := by decide

/-- The shortest and the longest nonce, each with its largest counter value for a small message, and with the shortest and
the longest tag; AAD lengths on both sides of each bound; and an AAD of one byte. -/
theorem witness_CcmBlockFormats :
    (7 ≤ (zeroBytes 7).length ∧ (zeroBytes 7).length ≤ 13 ∧ 17 < 2 ^ (8 * (15 - (zeroBytes 7).length)) ∧
      2 ≤ blockCount 17) ∧
    (7 ≤ (zeroBytes 13).length ∧ (zeroBytes 13).length ≤ 13 ∧ 65535 < 2 ^ (8 * (15 - (zeroBytes 13).length)) ∧
      4096 ≤ blockCount 65535) ∧
    4 ∈ [4, 6, 8, 10, 12, 14, 16] ∧ 16 ∈ [4, 6, 8, 10, 12, 14, 16] ∧
    (0 < 1 ∧ 0xFEFF < 0xFF00) ∧ (0xFF00 ≤ 0xFF00 ∧ 0xFFFFFFFF < 2 ^ 32) ∧ 2 ^ 32 ≤ 0x100000000 ∧
    0 < ([1] : Bytes).length := by decide

/-- The run that undoes another: the first run's output is the second's input, on the same IV. -/
def undo (i : Instr) (m : Mem) : State := running i { paramsOf i with inAddr := 0x400, outAddr := 0x600 } m

theorem undo_clean {i : Instr} {m : Mem} (hm : Mem.wf m = true) : Clean i (undo i m) :=
  clean_running (by cases i <;> decide) hm

/-- A clean run of a command without a tag check: its end, and that memory stays canonical and keeps the low bytes. -/
theorem job_ends {i : Instr} {m : Mem} (hm : Mem.wf m = true) (hi : checksTag i = false) :
    ∃ t, exec i (job i m) = .next t ∧ Mem.wf t.mem = true ∧ ∀ b n, b + n ≤ 0x400 → memRead t.mem b n = memRead m b n := by
  have haf : (ruleOf i Config.cipherPort (job i m).lp (job i m).mem (job i m).work).authFail = false := by
    by_contra h
    have := (rule_authFail (by simpa using h)).1
    rw [hi] at this
    cases this
  obtain ⟨t, h1, -, h3, h4⟩ := exec_clean (clean_job hm) haf
  refine ⟨t, h1, ?_, fun b n h => memRead_congr fun k hk => h4 _ ?_⟩
  · rw [h3]
    exact memWriteAll_wf_of_ranges hm (paramsOf_ok i) (rule_writes (paramsOf_ok i) haf)
  · rw [inRanges_false_iff]
    intro r hr
    have hb : 0x400 ≤ r.base := by
      revert r
      show ∀ r ∈ writeRanges i ⟨paramsOf i, encode i⟩, 0x400 ≤ r.base
      cases i <;> decide
    simp [Range.contains]
    omega

theorem witness_ConfidentialityModesRoundTrip :
    ∀ p ∈ undoing, ∃ s₁ s₂ t₁ : State, Clean p.1 s₁ ∧ Clean p.2 s₂ ∧ s₂.lp.keyh = s₁.lp.keyh ∧ ivBytes s₂ = ivBytes s₁ ∧
      s₂.lp.len = s₁.lp.len ∧ exec p.1 s₁ = .next t₁ ∧
      inBytes s₂ = memRead t₁.mem s₁.lp.outAddr.toNat s₁.lp.len.toNat ∧ 0 < s₁.lp.len.toNat := by
  have key : ∀ i j : Instr, checksTag i = false → paramsOf i = params 16 0 32 0 → paramsOf j = params 16 0 32 0 →
      ∃ s₁ s₂ t₁ : State, Clean i s₁ ∧ Clean j s₂ ∧ s₂.lp.keyh = s₁.lp.keyh ∧ ivBytes s₂ = ivBytes s₁ ∧
        s₂.lp.len = s₁.lp.len ∧ exec i s₁ = .next t₁ ∧
        inBytes s₂ = memRead t₁.mem s₁.lp.outAddr.toNat s₁.lp.len.toNat ∧ 0 < s₁.lp.len.toNat := by
    intro i j hi pi pj
    obtain ⟨t, h1, h2, h3⟩ := job_ends (i := i) (m := []) rfl hi
    refine ⟨job i [], undo j t.mem, t, clean_job rfl, undo_clean h2, ?_, ?_, ?_, h1, ?_, ?_⟩ <;>
      simp only [job, undo, running, pi, pj, ivBytes, inBytes]
    · exact h3 0x100 16 (by decide)
    · rfl
    · decide
  intro p hp
  simp only [undoing, List.mem_cons, List.not_mem_nil, or_false] at hp
  rcases hp with rfl | rfl | rfl | rfl | rfl <;> exact key _ _ rfl rfl rfl

theorem witness_GcmRoundTrip :
    ∃ s₁ s₂ t₁ : State, Clean .gcmEnc s₁ ∧ Clean .gcmDec s₂ ∧ s₂.lp.keyh = s₁.lp.keyh ∧ ivBytes s₂ = ivBytes s₁ ∧
      aadBytes s₂ = aadBytes s₁ ∧ s₂.lp.len = s₁.lp.len ∧ s₂.lp.tagLen = s₁.lp.tagLen ∧ exec .gcmEnc s₁ = .next t₁ ∧
      inBytes s₂ = memRead t₁.mem s₁.lp.outAddr.toNat s₁.lp.len.toNat ∧
      tagBufBytes s₂ = memRead t₁.mem s₁.lp.tagAddr.toNat s₁.lp.tagLen.toNat := by
  obtain ⟨t, h1, h2, h3⟩ := job_ends (i := .gcmEnc) (m := []) rfl rfl
  exact ⟨job .gcmEnc [], undo .gcmDec t.mem, t, clean_job rfl, undo_clean h2, rfl, h3 0x100 12 (by decide),
    h3 0x200 20 (by decide), rfl, rfl, h1, rfl, rfl⟩

theorem witness_CcmRoundTrip :
    ∃ s₁ s₂ t₁ : State, Clean .ccmEnc s₁ ∧ Clean .ccmDec s₂ ∧ s₂.lp.keyh = s₁.lp.keyh ∧ ivBytes s₂ = ivBytes s₁ ∧
      aadBytes s₂ = aadBytes s₁ ∧ s₂.lp.len = s₁.lp.len ∧ s₂.lp.tagLen = s₁.lp.tagLen ∧ exec .ccmEnc s₁ = .next t₁ ∧
      inBytes s₂ = memRead t₁.mem s₁.lp.outAddr.toNat s₁.lp.len.toNat ∧
      tagBufBytes s₂ = memRead t₁.mem s₁.lp.tagAddr.toNat s₁.lp.tagLen.toNat := by
  obtain ⟨t, h1, h2, h3⟩ := job_ends (i := .ccmEnc) (m := []) rfl rfl
  exact ⟨job .ccmEnc [], undo .ccmDec t.mem, t, clean_job rfl, undo_clean h2, rfl, h3 0x100 13 (by decide),
    h3 0x200 8 (by decide), rfl, rfl, h1, rfl, rfl⟩

theorem witness_CbcIvChangesEveryBlock :
    ∃ t₁ t₂, Clean .cbcEnc (job .cbcEnc []) ∧ Clean .cbcEnc (job .cbcEnc [(0x100, 1)]) ∧
      (job .cbcEnc [(0x100, 1)]).lp.keyh = (job .cbcEnc []).lp.keyh ∧
      (job .cbcEnc [(0x100, 1)]).lp.len = (job .cbcEnc []).lp.len ∧
      inBytes (job .cbcEnc [(0x100, 1)]) = inBytes (job .cbcEnc []) ∧
      ivBytes (job .cbcEnc [(0x100, 1)]) ≠ ivBytes (job .cbcEnc []) ∧
      exec .cbcEnc (job .cbcEnc []) = .next t₁ ∧ exec .cbcEnc (job .cbcEnc [(0x100, 1)]) = .next t₂ ∧
      16 * 1 < (job .cbcEnc []).lp.len.toNat :=
  ⟨_, _, clean_job rfl, clean_job rfl, rfl, rfl, by decide, by decide, exec_busy rfl (paramsOf_ok .cbcEnc),
    exec_busy rfl (paramsOf_ok .cbcEnc), by decide⟩

theorem witness_SameIvGivesSameKeystream_ctr :
    ∃ t₁ t₂, Clean .ctr (job .ctr []) ∧ Clean .ctr (job .ctr [(0x300, 1)]) ∧
      (job .ctr [(0x300, 1)]).lp.keyh = (job .ctr []).lp.keyh ∧ ivBytes (job .ctr [(0x300, 1)]) = ivBytes (job .ctr []) ∧
      (job .ctr [(0x300, 1)]).lp.len = (job .ctr []).lp.len ∧ exec .ctr (job .ctr []) = .next t₁ ∧
      exec .ctr (job .ctr [(0x300, 1)]) = .next t₂ :=
  ⟨_, _, clean_job rfl, clean_job rfl, rfl, by decide, rfl, exec_busy rfl (paramsOf_ok .ctr),
    exec_busy rfl (paramsOf_ok .ctr)⟩

theorem witness_SameIvGivesSameKeystream_cfb :
    ∃ t₁ t₂, Clean .cfbEnc (job .cfbEnc []) ∧ Clean .ofb (job .ofb []) ∧
      (job .ofb []).lp.keyh = (job .cfbEnc []).lp.keyh ∧ ivBytes (job .ofb []) = ivBytes (job .cfbEnc []) ∧
      16 ≤ (job .cfbEnc []).lp.len.toNat ∧ 16 ≤ (job .ofb []).lp.len.toNat ∧
      memBlock (job .ofb []).mem (job .ofb []).lp.inAddr.toNat =
        memBlock (job .cfbEnc []).mem (job .cfbEnc []).lp.inAddr.toNat ∧
      exec .cfbEnc (job .cfbEnc []) = .next t₁ ∧ exec .ofb (job .ofb []) = .next t₂ :=
  ⟨_, _, clean_job rfl, clean_job rfl, rfl, rfl, by decide, by decide, rfl, exec_busy rfl (paramsOf_ok .cfbEnc),
    exec_busy rfl (paramsOf_ok .ofb)⟩

theorem witness_ChangedTagIsRejected :
    ∀ i ∈ [Instr.gcmDec, .ccmDec], ∃ s₁ s₂ t₁ t₂ : State, Clean i s₁ ∧ Clean i s₂ ∧ s₂.lp.keyh = s₁.lp.keyh ∧
      s₂.lp.len = s₁.lp.len ∧ s₂.lp.tagLen = s₁.lp.tagLen ∧ ivBytes s₂ = ivBytes s₁ ∧ aadBytes s₂ = aadBytes s₁ ∧
      inBytes s₂ = inBytes s₁ ∧ tagBufBytes s₂ ≠ tagBufBytes s₁ ∧ exec i s₁ = .next t₁ ∧ exec i s₂ = .next t₂ := by
  intro i hi
  refine ⟨job i [], job i [(0x500, 1)], _, _, clean_job rfl, clean_job rfl, rfl, rfl, rfl, ?_, ?_, ?_, ?_,
    exec_busy rfl (paramsOf_ok i), exec_busy rfl (paramsOf_ok i)⟩ <;>
    (simp only [List.mem_cons, List.not_mem_nil, or_false] at hi; rcases hi with rfl | rfl <;> decide)

/-- Two full-tag decryptions that differ in the first ciphertext byte. -/
theorem witness_TamperingChangesCcmMac_fullTag :
    ∃ t₁ t₂, Clean .ccmDec (job .ccmDec []) ∧ Clean .ccmDec (job .ccmDec [(0x300, 1)]) ∧
      (job .ccmDec [(0x300, 1)]).lp.keyh = (job .ccmDec []).lp.keyh ∧ (job .ccmDec []).lp.tagLen = 16 ∧
      (job .ccmDec [(0x300, 1)]).lp.tagLen = (job .ccmDec []).lp.tagLen ∧
      ivBytes (job .ccmDec [(0x300, 1)]) = ivBytes (job .ccmDec []) ∧
      tagBufBytes (job .ccmDec [(0x300, 1)]) = tagBufBytes (job .ccmDec []) ∧
      aadBytes (job .ccmDec [(0x300, 1)]) = aadBytes (job .ccmDec []) ∧
      DifferOnlyAt (inBytes (job .ccmDec [])) (inBytes (job .ccmDec [(0x300, 1)])) 0 ∧
      exec .ccmDec (job .ccmDec []) = .next t₁ ∧ exec .ccmDec (job .ccmDec [(0x300, 1)]) = .next t₂ :=
  ⟨_, _, clean_job rfl, clean_job rfl, rfl, rfl, rfl, by decide, by decide, by decide,
    differ_at [] 0 1 (zeroBytes 22) (by decide), exec_busy rfl (paramsOf_ok .ccmDec),
    exec_busy rfl (paramsOf_ok .ccmDec)⟩

/-- CCM_DEC with an 8-byte tag. -/
def shortTag (m : Mem) : State := running .ccmDec (params 13 8 23 8) m

theorem shortTag_clean {m : Mem} (hm : Mem.wf m = true) : Clean .ccmDec (shortTag m) := clean_running (by decide) hm

theorem shortTag_iv (m : Mem) : ivBytes (shortTag m) = memRead m 0x100 13 := rfl
theorem shortTag_aad (m : Mem) : aadBytes (shortTag m) = memRead m 0x200 8 := rfl
theorem shortTag_in (m : Mem) : inBytes (shortTag m) = memRead m 0x300 23 := rfl
theorem shortTag_supplied (m : Mem) : tagBufBytes (shortTag m) = memRead m 0x500 8 := rfl

/-- What `shortTag` opens to depends only on the bytes below the tag. -/
theorem shortTag_opens {m m' : Mem} {pt : Bytes} (h : ∀ a, a < 0x500 → readByte m a = readByte m' a)
    (ho : CcmOpensTo (shortTag m) pt) : CcmOpensTo (shortTag m') pt := by
  refine ⟨ho.1, fun j hj => ?_⟩
  have hj' : j < 23 := hj
  have hiv : ivBytes (shortTag m') = ivBytes (shortTag m) := by
    rw [shortTag_iv, shortTag_iv]
    exact memRead_congr fun k hk => (h _ (by omega)).symm
  have hin : readByte (shortTag m').mem ((shortTag m').lp.inAddr.toNat + j) =
      readByte (shortTag m).mem ((shortTag m).lp.inAddr.toNat + j) := (h (0x300 + j) (by omega)).symm
  rw [hiv, hin]
  exact ho.2 j hj

/-- The tag `shortTag` expects depends only on the nonce and the AAD. -/
theorem shortTag_expects {m m' : Mem} (pt : Bytes) (hiv : ivBytes (shortTag m') = ivBytes (shortTag m))
    (haad : aadBytes (shortTag m') = aadBytes (shortTag m)) :
    ccmTagFor (shortTag m') pt = ccmTagFor (shortTag m) pt := by
  unfold ccmTagFor
  rw [hiv, haad]
  rfl

/-- An accepted CCM_DEC with an 8-byte tag, and one that differs from it in one byte below the tag and outside the nonce. -/
theorem shortTag_tampered (a : Nat) (hw : Mem.wf [(a, 1)] = true)
    (hiv : memRead [(a, 1)] 0x100 13 = memRead [] 0x100 13) :
    ∃ (s₁ s₂ t₁ t₂ : State) (pt₁ pt₂ : Bytes), Clean .ccmDec s₁ ∧ Clean .ccmDec s₂ ∧ s₂.lp.keyh = s₁.lp.keyh ∧
      s₂.lp.tagLen = s₁.lp.tagLen ∧ s₁.lp.tagLen = 8 ∧ ivBytes s₂ = ivBytes s₁ ∧ tagBufBytes s₂ = tagBufBytes s₁ ∧
      aadBytes s₁ = memRead [] 0x200 8 ∧ aadBytes s₂ = memRead [(a, 1)] 0x200 8 ∧
      inBytes s₁ = memRead [] 0x300 23 ∧ inBytes s₂ = memRead [(a, 1)] 0x300 23 ∧
      CcmOpensTo s₁ pt₁ ∧ CcmOpensTo s₂ pt₂ ∧ exec .ccmDec s₁ = .next t₁ ∧ exec .ccmDec s₂ = .next t₂ ∧
      t₁.status.authFail = false := by
  obtain ⟨pt, hpt⟩ := exists_ccmOpensTo (shortTag [])
  obtain ⟨tag, htag⟩ : ∃ tag, tag = ccmTagFor (shortTag []) pt := ⟨_, rfl⟩
  have hlen : tag.length = 8 := by
    rw [htag, ccmTagFor, List.length_take, bytesOfBlock_length]
    rfl
  have hfit : 0x500 + tag.length ≤ Config.memorySize := by rw [hlen]; decide
  have hwf : ∀ {m : Mem}, Mem.wf m = true → Mem.wf (memWrite m 0x500 tag) = true := fun h => memWrite_wf h hfit
  have hbelow : ∀ (m : Mem) {b n : Nat}, b + n ≤ 0x500 → memRead (memWrite m 0x500 tag) b n = memRead m b n :=
    fun m _ _ h => memRead_memWrite_other _ _ _ _ _ (.inl h)
  have hback : ∀ {m : Mem}, Mem.wf m = true → memRead (memWrite m 0x500 tag) 0x500 8 = tag := fun h =>
    hlen ▸ memRead_memWrite_same h 0x500 tag hfit
  have hopen : CcmOpensTo (shortTag (memWrite [] 0x500 tag)) pt :=
    shortTag_opens (fun b hb => (readByte_memWrite_other _ _ _ _ (.inl hb)).symm) hpt
  have hexpect : ccmTagFor (shortTag (memWrite [] 0x500 tag)) pt = tag :=
    (shortTag_expects pt (hbelow [] (b := 0x100) (n := 13) (by decide))
      (hbelow [] (b := 0x200) (n := 8) (by decide))).trans htag.symm
  have c := shortTag_clean (hwf (m := []) rfl)
  have haf := (ruleCcmDec_authFail hopen (shortTag (memWrite [] 0x500 tag)).work).not.mpr
    (by rw [hexpect, shortTag_supplied, hback rfl]; simp)
  obtain ⟨t₁, h1, h2, -⟩ := exec_clean c (Bool.eq_false_iff.mpr haf)
  obtain ⟨pt₂, hpt₂⟩ := exists_ccmOpensTo (shortTag (memWrite [(a, 1)] 0x500 tag))
  have c₂ := shortTag_clean (hwf hw)
  refine ⟨_, _, t₁, _, pt, pt₂, c, c₂, rfl, rfl, rfl, ?_, ?_, ?_, ?_, ?_, ?_, hopen, hpt₂, h1,
    exec_busy c₂.running.1 c₂.running.2, congrArg Status.authFail h2.1.status⟩
  · rw [shortTag_iv, shortTag_iv, hbelow _ (by decide), hbelow _ (by decide), hiv]
  · rw [shortTag_supplied, shortTag_supplied, hback hw, hback rfl]
  · rw [shortTag_aad, hbelow _ (by decide)]
  · rw [shortTag_aad, hbelow _ (by decide)]
  · rw [shortTag_in, hbelow _ (by decide)]
  · rw [shortTag_in, hbelow _ (by decide)]

/-- An 8-byte tag, the first accepted, the last ciphertext byte changed. -/
theorem witness_TamperingChangesCcmMac_ciphertext :
    ∃ (s₁ s₂ t₁ t₂ : State) (pt₁ pt₂ : Bytes), Clean .ccmDec s₁ ∧ Clean .ccmDec s₂ ∧ s₂.lp.keyh = s₁.lp.keyh ∧
      s₂.lp.tagLen = s₁.lp.tagLen ∧ s₁.lp.tagLen = 8 ∧ ivBytes s₂ = ivBytes s₁ ∧ tagBufBytes s₂ = tagBufBytes s₁ ∧
      aadBytes s₂ = aadBytes s₁ ∧ DifferOnlyAt (inBytes s₁) (inBytes s₂) 22 ∧ CcmOpensTo s₁ pt₁ ∧ CcmOpensTo s₂ pt₂ ∧
      exec .ccmDec s₁ = .next t₁ ∧ exec .ccmDec s₂ = .next t₂ ∧ t₁.status.authFail = false := by
  obtain ⟨s₁, s₂, t₁, t₂, p₁, p₂, h1, h2, h3, h4, h5, h6, h7, a1, a2, c1, c2, h⟩ :=
    shortTag_tampered 0x316 (by decide) (by decide)
  refine ⟨s₁, s₂, t₁, t₂, p₁, p₂, h1, h2, h3, h4, h5, h6, h7, ?_, ?_, h⟩
  · rw [a1, a2]
    decide
  · rw [c1, c2]
    exact differ_at (zeroBytes 22) 0 1 [] (by decide)

/-- An 8-byte tag, the first accepted, the first AAD byte changed. -/
theorem witness_TamperingChangesCcmMac_aad :
    ∃ (s₁ s₂ t₁ t₂ : State) (pt₁ pt₂ : Bytes), Clean .ccmDec s₁ ∧ Clean .ccmDec s₂ ∧ s₂.lp.keyh = s₁.lp.keyh ∧
      s₂.lp.tagLen = s₁.lp.tagLen ∧ s₁.lp.tagLen = 8 ∧ ivBytes s₂ = ivBytes s₁ ∧ tagBufBytes s₂ = tagBufBytes s₁ ∧
      inBytes s₂ = inBytes s₁ ∧ DifferOnlyAt (aadBytes s₁) (aadBytes s₂) 0 ∧ CcmOpensTo s₁ pt₁ ∧ CcmOpensTo s₂ pt₂ ∧
      exec .ccmDec s₁ = .next t₁ ∧ exec .ccmDec s₂ = .next t₂ ∧ t₁.status.authFail = false := by
  obtain ⟨s₁, s₂, t₁, t₂, p₁, p₂, h1, h2, h3, h4, h5, h6, h7, a1, a2, c1, c2, h⟩ :=
    shortTag_tampered 0x200 (by decide) (by decide)
  refine ⟨s₁, s₂, t₁, t₂, p₁, p₂, h1, h2, h3, h4, h5, h6, h7, ?_, ?_, h⟩
  · rw [c1, c2]
    decide
  · rw [a1, a2]
    exact differ_at [] 0 1 (zeroBytes 7) (by decide)

end Sys2Proof.Tests
end

section
/-! SUPPORT. The conversions between integers, byte strings and blocks (00_scope.md R11, R12), assembled from the laws of
byte strings. -/

namespace Sys2Proof.Machine

/-! ## `int_BE` as a sum -/

/-- The sum that R12 gives for `int_BE(S)`: byte `i` weighs `2^(8(len(S)-1-i))`. -/
def weightedSum (s : Bytes) : Nat :=
  ((List.range s.length).map fun i => (s.getD i 0).toNat * 2 ^ (8 * (s.length - 1 - i))).sum

theorem weightedSum_append_one (s : Bytes) (b : Byte) : weightedSum (s ++ [b]) = weightedSum s * 256 + b.toNat := by
  have hinit : ∀ i ∈ List.range s.length,
      ((s ++ [b]).getD i 0).toNat * 2 ^ (8 * (s.length + 1 - 1 - i)) =
        (s.getD i 0).toNat * 2 ^ (8 * (s.length - 1 - i)) * 256 := by
    intro i hi
    have hi : i < s.length := List.mem_range.mp hi
    rw [List.getD_append _ _ _ _ hi, show 8 * (s.length + 1 - 1 - i) = 8 * (s.length - 1 - i) + 8 by omega, pow_add,
      mul_assoc, show 2 ^ 8 = 256 from rfl]
  simp only [weightedSum, List.length_append, List.length_singleton, List.range_succ, List.map_append, List.sum_append]
  rw [List.map_congr_left hinit, List.sum_map_mul_right]
  simp

theorem intBE_eq_weightedSum (s : Bytes) : intBE s = weightedSum s := by
  induction s using List.reverseRecOn with
  | nil => rfl
  | append_singleton s b ih => rw [intBE_append_one, weightedSum_append_one, ih]

/-! ## Elements by position -/

theorem beBytes_getElem? {n v i : Nat} (h : i < n) :
    (beBytes n v)[i]? = some (BitVec.ofNat 8 (v / 2 ^ (8 * (n - 1 - i)))) := by
  rw [List.getElem?_eq_getElem (by simpa using h), beBytes_getElem]

theorem blocksOf_getElem? {s : Bytes} {j : Nat} (h : j < s.length / 16) :
    (blocksOf s)[j]? = some (blockOfBytes ((s.drop (16 * j)).take 16)) := by
  rw [List.getElem?_eq_getElem (by simpa using h)]
  exact congrArg some (takeBlocks_getElem _ s j (by simpa using h))

theorem getElem?_eq_blockByte {s : Bytes} (hs : s.length = 16) {i : Nat} (hi : i < 16) :
    s[i]? = some (blockByte (blockOfBytes s) i) := by
  rw [blockByte_blockOfBytes hs hi, List.getElem?_eq_getElem]

theorem xorBytes_getElem? {a b : Bytes} (hab : a.length = b.length) {i : Nat} (hi : i < a.length) :
    (xorBytes a b)[i]? = some (a.getD i 0 ^^^ b.getD i 0) := by
  have hb : i < b.length := hab ▸ hi
  rw [List.getElem?_eq_getElem (by simp [hi, hb]), xorBytes_getElem, List.getD_eq_getElem _ _ hi,
    List.getD_eq_getElem _ _ hb]

/-! ## Padding -/

theorem pad16_eq_append_zeros (s : Bytes) : ∃ n, n < 16 ∧ pad16 s = s ++ List.replicate n 0 :=
  ⟨(16 - s.length % 16) % 16, Nat.mod_lt _ (by decide), rfl⟩

/-- Settles O51: each clause is a law of byte strings; the sum of R12 is `int_BE` by induction on the last byte. -/
theorem byteStringConversions : Obligations.ByteStringConversions := by
  refine ⟨fun n v => ⟨beBytes_length n v, ?_, fun i => beBytes_getElem?⟩,
    fun s => ⟨beBytes_intBE s, intBE_eq_weightedSum s⟩,
    fun s => ⟨pad16_length_mod s, pad16_eq_append_zeros s⟩,
    fun s _ => ⟨blocksOf_length s, fun j => blocksOf_getElem?⟩,
    fun s hs => ⟨bytesOfBlock_blockOfBytes hs, fun i => getElem?_eq_blockByte hs⟩,
    fun a b hab => ⟨?_, fun i => xorBytes_getElem? hab⟩⟩
  · rw [intBE_beBytes, pow_mul, show 2 ^ 8 = 256 from rfl]
  · rw [xorBytes_length, ← hab, min_self]

end Sys2Proof.Machine
end

section
/-! SUPPORT. Every completion of a command is an end, what that end may change, and the statements about one command: what it
leaves alone and what AUTH_FAIL = 1 means (40_engine.md R132, R136, R139, 10_state.md R48, R65). -/

namespace Sys2Proof.Machine

/-! ## A completion is an end -/

/-- What a completion of command `i` with rule output `out` may leave in memory: what stood there, free write ranges, or the
outputs of a rule that reports no mismatch (20_memory.md R80, R88, 40_engine.md R132, R136, R139). -/
def CompletionMem (i : Instr) (s : State) (out : RuleOut) (m : Mem) : Prop :=
  m = s.mem ∨ m = havoc s.mem s.draws (writeRanges i s.lp) ∨ (out.authFail = false ∧ m = memWriteAll s.mem out.writes)

/-- Every completion is an `endCommand` of the state it began in, with other memory and another draw count: what the rule
leaves in the working registers is scrubbed. -/
theorem completeCommand_eq_endCommand (c : Config.CipherPort) (i : Instr) (rule : Rule) (s : State) :
    ∃ e af m d, completeCommand c i rule s = endCommand e af { s with mem := m, draws := d } ∧
      CompletionMem i s (rule c s.lp s.mem s.work) m := by
  rcases completeCommand_cases c i rule s with
    ⟨-, h⟩ | ⟨-, -, h⟩ | ⟨-, -, -, h⟩ | ⟨-, -, -, ⟨-, h⟩ | ⟨-, -, h⟩ | ⟨haf, -, h⟩⟩
  · exact ⟨_, _, _, _, h, .inr (.inl rfl)⟩
  · exact ⟨_, _, _, _, h, .inr (.inl rfl)⟩
  · rcases endOdd_cases i (rule c s.lp s.mem s.work).authFail { s with work := (rule c s.lp s.mem s.work).work } with
      ⟨-, h'⟩ | ⟨-, -, h'⟩ | ⟨-, -, h'⟩
    · exact ⟨_, _, _, _, h.trans h', .inl rfl⟩
    · exact ⟨_, _, _, _, h.trans h', .inr (.inl rfl)⟩
    · exact ⟨_, _, _, _, h.trans h', .inr (.inl rfl)⟩
  · exact ⟨_, _, _, _, h, .inl rfl⟩
  · exact ⟨_, _, _, _, h, .inr (.inl rfl)⟩
  · exact ⟨_, _, _, _, h, .inr (.inr ⟨haf, rfl⟩)⟩

/-- The completion of a validated command keeps memory canonical (20_memory.md R70, 40_engine.md R127). -/
theorem CompletionMem.wf {c : Config.CipherPort} {i : Instr} {s : State} {m : Mem}
    (h : CompletionMem i s (ruleOf i c s.lp s.mem s.work) m) (hv : validateCommand i s.lp = .ok)
    (hm : Mem.wf s.mem = true) : Mem.wf m = true := by
  rcases h with rfl | rfl | ⟨haf, rfl⟩
  · exact hm
  · exact havoc_wf hm (writeRanges_fit hv)
  · exact memWriteAll_wf_of_ranges hm hv (rule_writes hv haf)

/-- Settles O30: an acceptance and every completion is a start or an `endCommand`, and neither touches these fields. -/
theorem commandsLeaveRegistersAlone : Obligations.CommandsLeaveRegistersAlone := by
  intro i s t h
  rcases exec_next_cases h with ⟨-, rfl⟩ | ⟨-, -, rfl⟩
  · by_cases hv : validateCommand i (latch (encode i) s) = .ok
    · simp [acceptCommand_ok hv]
    · simp [acceptCommand_error hv]
  · obtain ⟨e, af, m, d, hc, -⟩ := completeCommand_eq_endCommand Config.cipherPort i (ruleOf i) s
    simp [hc]

/-! ## An end with AUTH_FAIL = 1 -/

/-- The tag supplied to the running command `i` is not the one it computes (46_gcm.md R206, 47_ccm.md R230). -/
def TagMismatch (i : Instr) (s : State) : Prop :=
  (i = .gcmDec → tagBufBytes s ≠ gcmTag s) ∧ (i = .ccmDec → ∀ pt, CcmOpensTo s pt → tagBufBytes s ≠ ccmTagFor s pt)

theorem checksTag_iff {i : Instr} : checksTag i = true ↔ i = .gcmDec ∨ i = .ccmDec := by cases i <;> decide

theorem tagMismatch_of_rule_authFail {i : Instr} {s : State} {w : Work}
    (h : (ruleOf i Config.cipherPort s.lp s.mem w).authFail = true) : TagMismatch i s := by
  constructor
  · rintro rfl
    exact (ruleGcmDec_authFail s.lp s.mem w).mp h
  · rintro rfl pt hpt
    exact (ruleCcmDec_authFail hpt w).mp h

theorem allBytes_ordinary_of_not_oddByte {rs : List Range} {s : State} (h : ¬ OddByte rs s) :
    allBytes rs (ordinaryByte s.platform) = true :=
  allBytes_iff.mpr fun r hr a ha => by
    by_contra hodd
    exact h ⟨r, hr, a, ha, by simpa using hodd⟩

/-- Where every read byte is ordinary memory, AUTH_FAIL = 1 is what the rule reports (entry 12). -/
theorem oddAuthFail_ordinary {i : Instr} {af : Bool} {s : State} (h : oddAuthFail i af s = true)
    (hr : allBytes (readRanges i s.lp) (ordinaryByte s.platform) = true) : af = true := by
  simpa [oddAuthFail, hr, oddAuthFail_checksTag h] using h

/-- The completion of a command that is not raced, by AUTH_FAIL: it is 0, or the command checks a tag, ends with ERR = 0 and
leaves memory alone, and, where every read byte is ordinary memory, its rule found a mismatch (40_engine.md R136). -/
theorem completeCommand_authFail {i : Instr} {s t : State} (hraced : s.raced = false)
    (ht : t = completeCommand Config.cipherPort i (ruleOf i) s) :
    t.status.authFail = false ∨
      (checksTag i = true ∧ t.status.err = .ok ∧ t.mem = s.mem ∧
        (allBytes (readRanges i s.lp) (ordinaryByte s.platform) = true →
          (ruleOf i Config.cipherPort s.lp s.mem s.work).authFail = true)) := by
  rcases completeCommand_cases Config.cipherPort i (ruleOf i) s with
    ⟨h, -⟩ | ⟨-, -, h⟩ | ⟨-, -, -, h⟩ | ⟨-, -, -, ⟨haf, h⟩ | ⟨-, -, h⟩ | ⟨-, -, h⟩⟩
  · simp [hraced] at h
  · exact .inl (by simp [ht, h])
  · rcases endOdd_cases i (ruleOf i Config.cipherPort s.lp s.mem s.work).authFail
        { s with work := (ruleOf i Config.cipherPort s.lp s.mem s.work).work } with
      ⟨hodd, h'⟩ | ⟨-, -, h'⟩ | ⟨-, -, h'⟩
    · exact .inr ⟨oddAuthFail_checksTag hodd, by simp [ht, h, h'], by simp [ht, h, h'], oddAuthFail_ordinary hodd⟩
    · exact .inl (by simp [ht, h, h'])
    · exact .inl (by simp [ht, h, h'])
  · exact .inr ⟨(rule_authFail haf).1, by simp [ht, h], by simp [ht, h], fun _ => haf⟩
  · exact .inl (by simp [ht, h])
  · exact .inl (by simp [ht, h])

/-- Settles O32: only a tag mismatch, or a device byte among those read, lets an undisturbed end report AUTH_FAIL = 1. -/
theorem authFailMeansMismatchAndNothingWritten : Obligations.AuthFailMeansMismatchAndNothingWritten := by
  intro i s t hrun hraced h
  rw [exec_busy hrun.1 hrun.2] at h
  rcases completeCommand_authFail hraced (Host.Outcome.next.inj h).symm with hf | ⟨hi, herr, hmem, hrule⟩
  · exact .inl hf
  · exact .inr ⟨checksTag_iff.mp hi, herr, hmem, fun hodd =>
      tagMismatch_of_rule_authFail (hrule (allBytes_ordinary_of_not_oddByte hodd))⟩

end Sys2Proof.Machine
end

section
/-! SUPPORT. The register window: what a word access at each offset does, the effect of each register write, and the bits of
CTRL and STATUS (10_state.md R42 to R63). -/

namespace Sys2Proof.Machine

/-! ## Word accesses -/

/-- An admitted write to any register but CMD is that register's write (20_memory.md R76, R94). -/
theorem step_regWrite {s : State} {off : BitVec 6} {r : Reg} {v : Word} {rest : List Event}
    (h : s.schedule = .regWrite .word off v :: rest) (hoff : regAt off = some r) (hr : r ≠ .cmd) :
    step s = .next (writeReg r v { s with schedule := rest }) := by
  rw [step_cons h]
  simp only [perform, regOfAccess, hoff, carryOut_next]

/-- An admitted read shows the host the register's value and changes nothing else (10_state.md R45, 20_memory.md R76). -/
theorem step_regRead {s : State} {off : BitVec 6} {r : Reg} {rest : List Event}
    (h : s.schedule = .regRead .word off :: rest) (hoff : regAt off = some r) :
    step s = .next { s with schedule := rest, hostSaw := some (.word (readReg s r)) } := by
  rw [step_cons h]
  simp only [perform, regOfAccess, hoff, carryOut_next]
  rfl

theorem regAt_of_mem_windowRegisters {off : BitVec 6} {r : Reg} (h : (off, r) ∈ windowRegisters) :
    regAt off = some r := by
  have table : ∀ p ∈ windowRegisters, regAt p.1 = some p.2 := by decide
  exact table _ h

/-! ## Register writes -/

theorem writeReg_status (v : Word) (s : State) :
    writeReg .status v s = { s with status := statusWrite s.status v } := rfl

theorem writeReg_ctrl_softReset {v : Word} (s : State) (hv : v.getLsbD 1 = true) :
    writeReg .ctrl v s = engineReset { s with ie := v.getLsbD 0 } := if_pos hv

theorem writeReg_ctrl_enable {v : Word} (s : State) (hv : v.getLsbD 1 = false) :
    writeReg .ctrl v s = { s with ie := v.getLsbD 0 } := if_neg (by rw [hv]; decide)

/-- The ten parameter registers that hold 32 bits (R52 to R56), each at its offset. -/
def wideParamRegisters : List (BitVec 6 × Reg) :=
  [(0x0C, .keyh), (0x10, .ivAddr), (0x14, .ivLen), (0x18, .aadAddr), (0x1C, .aadLen), (0x20, .inAddr), (0x24, .outAddr),
    (0x28, .len), (0x2C, .tagAddr), (0x30, .tagLen)]

theorem wideParamRegisters_subset : ∀ p ∈ wideParamRegisters, p ∈ windowRegisters ∧ p.2 ≠ .cmd := by decide

/-- A 32-bit parameter register reads back what was written, and the write reaches no other register and nothing else
(R59). -/
theorem writeReg_wideParam {off : BitVec 6} {r : Reg} (h : (off, r) ∈ wideParamRegisters) (v : Word) (s : State) :
    readReg (writeReg r v s) r = v ∧ (∀ q, q ≠ r → readReg (writeReg r v s) q = readReg s q) ∧
      writeReg r v s = { s with regs := (writeReg r v s).regs } := by
  simp only [wideParamRegisters, List.mem_cons, Prod.mk.injEq, List.not_mem_nil, or_false] at h
  rcases h with ⟨-, rfl⟩ | ⟨-, rfl⟩ | ⟨-, rfl⟩ | ⟨-, rfl⟩ | ⟨-, rfl⟩ | ⟨-, rfl⟩ | ⟨-, rfl⟩ | ⟨-, rfl⟩ | ⟨-, rfl⟩ | ⟨-, rfl⟩
  all_goals
    refine ⟨rfl, fun q hq => ?_, rfl⟩
    cases q <;> trivial

/-- Settles O40: the window's table gives the register, whose access is `step_regRead` or `step_regWrite`. -/
theorem registerAccessTakesEffectAtOnce : Obligations.RegisterAccessTakesEffectAtOnce := by
  refine ⟨fun s off r rest hoff h => step_regRead h (regAt_of_mem_windowRegisters hoff), fun s v off rest r hoff h => ?_⟩
  obtain ⟨hwin, hcmd⟩ := wideParamRegisters_subset (off, r) hoff
  obtain ⟨hsame, hother, hframe⟩ := writeReg_wideParam hoff v { s with schedule := rest }
  exact ⟨_, step_regWrite h (regAt_of_mem_windowRegisters hwin) hcmd, hsame, hother, hframe⟩

/-! ## TAGMIN -/

theorem writeTagMin_legal {v : Word} (r : ParamRegs) (h : 1 ≤ v.toNat ∧ v.toNat ≤ 16) :
    writeTagMin v r = { r with tagMin := v.setWidth 5 } := if_pos h

theorem writeTagMin_ignored {v : Word} (r : ParamRegs) (h : ¬ (1 ≤ v.toNat ∧ v.toNat ≤ 16)) : writeTagMin v r = r :=
  if_neg h

theorem setWidth_tagMin_roundTrip {v : Word} (h : v.toNat ≤ 16) : (v.setWidth 5).setWidth 32 = v := by bv_omega

theorem setWidth_tagMin_highBits (t : BitVec 5) : (t.setWidth 32 : Word) >>> 5 = 0 := by
  have := t.isLt
  bv_omega

/-- Settles O41: by the two cases of `writeTagMin`. -/
theorem tagMinTakesOnlyLegalValues : Obligations.TagMinTakesOnlyLegalValues := by
  refine ⟨rfl, fun s v rest h => ⟨_, step_regWrite h rfl (by decide), ?_⟩⟩
  by_cases hv : 1 ≤ v.toNat ∧ v.toNat ≤ 16
  · simp only [writeReg, writeTagMin_legal _ hv]
    refine ⟨trivial, fun _ => setWidth_tagMin_roundTrip hv.2, fun hn => absurd hv hn, fun _ => ?_,
      setWidth_tagMin_highBits _⟩
    simp only [BitVec.toNat_setWidth]
    omega
  · simp only [writeReg, writeTagMin_ignored _ hv]
    exact ⟨trivial, fun hl => absurd hl hv, fun _ => rfl, id, setWidth_tagMin_highBits _⟩

/-! ## STATUS and CTRL -/

theorem statusWrite_eq (st : Status) (v : Word) :
    statusWrite st v = { st with
      done := if v.getLsbD 1 then false else st.done
      cmdOvr := if v.getLsbD 3 then false else st.cmdOvr } := by
  unfold statusWrite
  cases v.getLsbD 1 <;> cases v.getLsbD 3 <;> simp

/-- Settles O42: a STATUS write is `statusWrite`, and a read shows the register. -/
theorem statusWriteClearsByOnes : Obligations.StatusWriteClearsByOnes := by
  refine ⟨fun s v rest h => ?_, fun s rest h => step_regRead h rfl⟩
  rw [step_regWrite h rfl (by decide), writeReg_status, statusWrite_eq]

/-- Every bit of the value read from STATUS (10_state.md R44, R58). -/
theorem statusWord_getLsbD (st : Status) {j : Nat} (hj : j < 32) :
    (statusWord st).getLsbD j =
      (decide (j = 0) && st.busy || decide (j = 1) && st.done || decide (j = 2) && st.authFail ||
        decide (j = 3) && st.cmdOvr || decide (8 ≤ j) && (errCode st.err).getLsbD (j - 8)) := by
  simp only [statusWord, BitVec.truncate_eq_setWidth, BitVec.getLsbD_or, BitVec.getLsbD_shiftLeft, BitVec.getLsbD_setWidth,
    BitVec.getLsbD_ofBool]
  grind

theorem readReg_ctrl_highBits (s : State) : readReg s .ctrl >>> 1 = 0 := by
  cases h : s.ie <;> simp [readReg, h]

/-- ERR stands in bits 11:8 (R44). -/
theorem statusWord_err (st : Status) : (statusWord st).extractLsb' 8 4 = errCode st.err := by
  apply BitVec.eq_of_getLsbD_eq
  intro j hj
  rw [BitVec.getLsbD_extractLsb', statusWord_getLsbD st (by omega)]
  grind

/-- Bits 7:4 are reserved (R58). -/
theorem statusWord_reservedMiddle (st : Status) : (statusWord st).extractLsb' 4 4 = 0 := by
  apply BitVec.eq_of_getLsbD_eq
  intro j hj
  rw [BitVec.getLsbD_extractLsb', statusWord_getLsbD st (by omega)]
  grind

/-- Bits 31:12 are reserved (R58). -/
theorem statusWord_reservedHigh (st : Status) : statusWord st >>> 12 = 0 := by
  apply BitVec.eq_of_getLsbD_eq
  intro j hj
  rw [BitVec.getLsbD_ushiftRight]
  by_cases h : 12 + j < 32
  · rw [statusWord_getLsbD st h]
    grind
  · grind

/-- Words that agree on a field agree on each of its bits. -/
theorem getLsbD_eq_of_extractLsb' {v w : Word} {lo n : Nat} (h : v.extractLsb' lo n = w.extractLsb' lo n) {j : Nat}
    (hj : j < n) : v.getLsbD (lo + j) = w.getLsbD (lo + j) := by
  simpa [hj] using congrArg (·.getLsbD j) h

theorem writeReg_ctrl_congr {v w : Word} (s : State) (h0 : v.getLsbD 0 = w.getLsbD 0) (h1 : v.getLsbD 1 = w.getLsbD 1) :
    writeReg .ctrl v s = writeReg .ctrl w s := by
  simp only [writeReg, writeCtrl, h0, h1]

/-- Settles O43: reads show reserved places as 0, and CTRL and STATUS writes look at bits 0, 1 and 1, 3 alone. -/
theorem reservedPlacesReadZero : Obligations.ReservedPlacesReadZero := by
  intro s
  refine ⟨fun off hoff rest h => ?_, fun off hoff v rest h => ?_, readReg_ctrl_highBits s,
    statusWord_reservedMiddle s.status, statusWord_reservedHigh s.status, fun v w hvw rest h => ?_,
    fun v w hvw _ rest h => ?_⟩
  · simp only [List.mem_cons, List.not_mem_nil, or_false] at hoff
    rcases hoff with rfl | rfl | rfl <;> exact step_regRead h rfl
  · simp only [List.mem_cons, List.not_mem_nil, or_false] at hoff
    rcases hoff with rfl | rfl <;> exact step_regWrite h rfl (by decide)
  · rw [step_regWrite h rfl (by decide), step_regWrite (v := w) rfl rfl (by decide),
      writeReg_ctrl_congr _ (getLsbD_eq_of_extractLsb' hvw (j := 0) (by decide))
        (getLsbD_eq_of_extractLsb' hvw (j := 1) (by decide))]
  · rw [step_regWrite h rfl (by decide), step_regWrite (v := w) rfl rfl (by decide)]
    have h1 := getLsbD_eq_of_extractLsb' hvw (j := 1) (by decide)
    have h3 := getLsbD_eq_of_extractLsb' hvw (j := 3) (by decide)
    simp only [Nat.zero_add] at h1 h3
    simp only [writeReg_status, statusWrite, h1, h3]

theorem errCode_le (e : Err) : (errCode e).toNat ≤ 8 := by cases e <;> decide

/-- Settles O44: each flag is a bit of `statusWord`, and ERR is its bits 11:8. -/
theorem statusFieldsStandInTheirBits : Obligations.StatusFieldsStandInTheirBits := by
  refine ⟨rfl, fun s => ⟨errCode_le _, ?_, ?_, ?_, ?_, statusWord_err s.status⟩⟩ <;>
    rw [show readReg s .status = statusWord s.status from rfl, statusWord_getLsbD _ (by decide)] <;> simp

theorem readReg_ctrl_ie (s : State) : (readReg s .ctrl).getLsbD 0 = s.ie := by
  simp [readReg]

/-- Settles O45: IRQ is by definition IE AND DONE, and a CTRL write without SRST sets IE alone. -/
theorem interruptLineFollowsEnableAndDone : Obligations.InterruptLineFollowsEnableAndDone := by
  refine ⟨fun s => ⟨by simp [State.irq], readReg_ctrl_ie s⟩, fun s v rest h hv => ?_⟩
  refine ⟨{ s with schedule := rest, ie := v.getLsbD 0 }, ?_, rfl, rfl, readReg_ctrl_ie _⟩
  rw [step_regWrite h rfl (by decide), writeReg_ctrl_enable _ hv]

/-! ## Reset -/

/-- Both ways of reset are one operation (70_reset_and_hazards.md R280, R283): IE, which a CTRL write sets first, is cleared
again. -/
theorem step_resetEvent {s : State} {e : Event} {rest : List Event} (h : s.schedule = e :: rest) (he : ResetEvent e) :
    step s = .next (engineReset { s with schedule := rest }) := by
  rcases he with rfl | ⟨v, rfl, hv⟩
  · rw [step_cons h]
    rfl
  · rw [step_regWrite h rfl (by decide), writeReg_ctrl_softReset _ hv]
    rfl

/-- The table of R63. -/
theorem atResetValues_engineReset (s : State) : AtResetValues (engineReset s) := by
  constructor
  case status => exact (by decide : statusWord Status.reset = 0)
  all_goals rfl

/-- Settles O1: both events are `engineReset`, whose only effect on memory is in the live write ranges. -/
theorem resetRestoresResetValues : Obligations.ResetRestoresResetValues := by
  intro s e rest h he
  refine ⟨?_, _, step_resetEvent h he, atResetValues_engineReset _, rfl, rfl, rfl, fun a ha => ?_⟩
  · simp [readReg]
  · exact readByte_havoc_other s.mem s.draws (liveWriteRanges s) a ha

end Sys2Proof.Machine
end

section
/-! SUPPORT. What one step can do, as one inductive relation, and the invariant of the machine: it holds at reset and every
step keeps it (10_state.md R30, R57, R63, 40_engine.md R120, R130, R141). -/

namespace Sys2Proof.Machine

/-! ## The moves of the machine -/

/-- What a step can do, once the action it takes is off the schedule: a turn of the engine, a CMD write, or another access or
a reset by the host (20_memory.md R76, R86, R87, R88, 40_engine.md R120, R147, 70_reset_and_hazards.md R280). -/
inductive Move (s : State) : State → Prop
  | idle (hb : s.status.busy = false) : Move s s
  | complete (i : Instr) (hb : s.status.busy = true) (hd : decode s.lp.cmd = .command i)
      (hv : validateCommand i s.lp = .ok) : Move s (completeCommand Config.cipherPort i (ruleOf i) s)
  | accept (i : Instr) (hb : s.status.busy = false) : Move s (acceptCommand i s)
  | reject (v : Word) (why : DecodeError) (hb : s.status.busy = false) (hd : decode v = .rejected why) :
      Move s (endCommand .cmd false (acceptWord v s))
  | overrun (hb : s.status.busy = true) : Move s { s with status := { s.status with cmdOvr := true } }
  | regWrite (r : Reg) (v : Word) (hr : r ≠ .cmd) : Move s (writeReg r v s)
  | regRead (r : Reg) : Move s { s with hostSaw := some (.word (readReg s r)) }
  | memWrite (a : Word) (b : Byte) : Move s (hostWriteByte a b s)
  | memRead (a : Word) : Move s (hostReadByte a s)
  | reset : Move s (engineReset s)

/-- `exec` is called with the latched command on a busy engine, and with a written one on an idle engine (entry 4). -/
theorem move_of_exec {i : Instr} {s t : State} (hd : s.status.busy = true → decode s.lp.cmd = .command i)
    (h : exec i s = .next t) : Move s t := by
  rcases exec_next_cases h with ⟨hb, rfl⟩ | ⟨hb, hv, rfl⟩
  · exact .accept i hb
  · exact .complete i hb (hd hb) hv

theorem move_of_engineTurn {s t : State} (h : carryOut (engineTurn s) = .next t) : Move s t := by
  cases hb : s.status.busy
  case false =>
    rw [engineTurn_idle hb] at h
    obtain rfl := Host.Outcome.next.inj h
    exact .idle hb
  case true =>
    cases hd : decode s.lp.cmd with
    | command i =>
      rw [engineTurn_busy hb hd] at h
      exact move_of_exec (fun _ => hd) h
    | rejected why => simp [engineTurn, hb, hd] at h

theorem move_of_hostStuck {s t : State} (h : carryOut (hostStuck s) = .next t) : Move s t := by
  cases hb : s.status.busy
  case false => simp [hostStuck_idle hb] at h
  case true => exact move_of_engineTurn (hostStuck_busy hb ▸ h)

theorem move_of_writeCmd {v : Word} {s t : State} (h : carryOut (writeCmd v s) = .next t) : Move s t := by
  cases hb : s.status.busy
  case true =>
    rw [writeCmd_busy v hb] at h
    obtain rfl := Host.Outcome.next.inj h
    exact .overrun hb
  case false =>
    cases hd : decode v with
    | command i =>
      rw [writeCmd_command hb hd] at h
      exact move_of_exec (fun hb' => absurd hb' (by simp [hb])) h
    | rejected why =>
      rw [writeCmd_rejected hb hd] at h
      obtain rfl := Host.Outcome.next.inj h
      exact .reject v why hb hd

/-- An action of the schedule is a move of the state it was taken off, or, where the host is stuck, the engine's move of the
state that still holds it. -/
theorem move_of_perform {e : Event} {s₀ s t : State} (h : carryOut (perform s₀ e s) = .next t) :
    Move s t ∨ Move s₀ t := by
  cases e with
  | engine => exact .inl (move_of_engineTurn h)
  | regWrite size off v =>
    simp only [perform] at h
    split at h
    · exact .inl (move_of_writeCmd h)
    · rename_i r hcmd _
      obtain rfl := Host.Outcome.next.inj h
      exact .inl (.regWrite r v hcmd)
    · exact .inr (move_of_hostStuck h)
  | regRead size off =>
    simp only [perform] at h
    split at h
    · obtain rfl := Host.Outcome.next.inj h
      exact .inl (.regRead _)
    · exact .inr (move_of_hostStuck h)
  | memWrite a b =>
    obtain rfl := Host.Outcome.next.inj h
    exact .inl (.memWrite a b)
  | memRead a =>
    obtain rfl := Host.Outcome.next.inj h
    exact .inl (.memRead a)
  | reset =>
    obtain rfl := Host.Outcome.next.inj h
    exact .inl .reset

/-- Every step is a move, with the action it takes off the schedule or the schedule as it stood. -/
theorem move_of_step {s t : State} (h : step s = .next t) : ∃ es, Move { s with schedule := es } t := by
  cases hs : s.schedule with
  | nil => exact ⟨s.schedule, move_of_engineTurn (step_nil hs ▸ h)⟩
  | cons e rest =>
    rcases move_of_perform (step_cons hs ▸ h) with h' | h'
    · exact ⟨rest, h'⟩
    · exact ⟨s.schedule, h'⟩

/-! ## The invariant -/

theorem decode_encode (i : Instr) : decode (encode i) = .command i := by cases i <;> decide

namespace Invariant

/-- The write ranges of the command in flight lie in memory (40_engine.md R127). -/
theorem liveWriteRanges_fit {s : State} (h : Invariant s) : (liveWriteRanges s).all Range.fits = true := by
  cases hb : s.status.busy
  case false => simp [liveWriteRanges_idle hb]
  case true =>
    obtain ⟨i, hd, hv⟩ := validate_ok_iff.mp (h.busy hb).1
    rw [liveWriteRanges_busy hb hd]
    exact writeRanges_fit hv

theorem setSchedule {s : State} (h : Invariant s) (es : List Event) : Invariant { s with schedule := es } :=
  ⟨h.memWf, h.tagMin, h.work, h.idle, h.busy⟩

/-- An end scrubs whatever came before it (40_engine.md R141). -/
theorem endCommand {e : Err} {af : Bool} {s : State} (hm : Mem.wf s.mem = true)
    (ht : 1 ≤ s.regs.tagMin.toNat ∧ s.regs.tagMin.toNat ≤ 16) : Invariant (Machine.endCommand e af s) where
  memWf := hm
  tagMin := ht
  work := rfl
  idle _ := ⟨rfl, rfl, rfl⟩
  busy h := by simp at h

theorem completeCommand {i : Instr} {s : State} (h : Invariant s) (hv : validateCommand i s.lp = .ok) :
    Invariant (Machine.completeCommand Config.cipherPort i (ruleOf i) s) := by
  obtain ⟨e, af, m, d, hc, hm⟩ := completeCommand_eq_endCommand Config.cipherPort i (ruleOf i) s
  rw [hc]
  exact endCommand (hm.wf hv h.memWf) h.tagMin

/-- A started command is validated, and its acceptance cleared DONE, AUTH_FAIL and ERR (40_engine.md R120, R130). -/
theorem acceptCommand {i : Instr} {s : State} (h : Invariant s) : Invariant (Machine.acceptCommand i s) := by
  by_cases hv : validateCommand i (latch (encode i) s) = .ok
  · rw [acceptCommand_ok hv]
    exact {
      memWf := h.memWf
      tagMin := h.tagMin
      work := h.work
      idle := fun hb => by simp at hb
      busy := fun _ => ⟨validate_ok_iff.mpr ⟨i, decode_encode i, hv⟩, rfl, rfl, rfl, rfl⟩ }
  · rw [acceptCommand_error hv]
    exact endCommand h.memWf h.tagMin

/-- Reset from a state whose live write ranges lie in memory (10_state.md R63, 70_reset_and_hazards.md R284). -/
theorem engineReset {s : State} (hm : Mem.wf s.mem = true) (hfit : (liveWriteRanges s).all Range.fits = true) :
    Invariant (Machine.engineReset s) where
  memWf := havoc_wf hm hfit
  tagMin := by simp [ParamRegs.reset]
  work := rfl
  idle _ := ⟨rfl, rfl, rfl⟩
  busy h := by simp [Status.reset] at h

theorem writeReg {s : State} (h : Invariant s) (r : Reg) (v : Word) : Invariant (Machine.writeReg r v s) := by
  by_cases hreset : r = .ctrl ∧ v.getLsbD 1 = true
  · obtain ⟨rfl, hv⟩ := hreset
    rw [writeReg_ctrl_softReset s hv]
    exact engineReset h.memWf h.liveWriteRanges_fit
  · obtain ⟨ie, st, regs, hw, hbusy, haf, herr, hdone, htag⟩ :=
      writeReg_keeps r v s fun hr => by simpa [hr] using hreset
    rw [hw]
    refine ⟨h.memWf, htag h.tagMin, h.work, fun hb => h.idle (hbusy ▸ hb), fun hb => ?_⟩
    obtain ⟨hval, hseq, hd, ha, he⟩ := h.busy (hbusy ▸ hb)
    exact ⟨hval, hseq, hdone hd, haf.trans ha, herr.trans he⟩

/-- A host write of a byte races nothing while the engine is idle, and keeps memory canonical (20_memory.md R70, R88). -/
theorem hostWriteByte {s : State} (h : Invariant s) (a : Word) (b : Byte) :
    Invariant (Machine.hostWriteByte a b s) where
  memWf := writeByte_wf h.memWf (lt_memorySize a)
  tagMin := h.tagMin
  work := h.work
  idle hb := by
    have hb : s.status.busy = false := hb
    obtain ⟨hlp, hseq, hraced⟩ := h.idle hb
    exact ⟨hlp, hseq, by simp [hraced, liveUsedRanges_idle hb, inRanges]⟩
  busy := h.busy

theorem hostReadByte {s : State} (h : Invariant s) (a : Word) : Invariant (Machine.hostReadByte a s) := by
  unfold Machine.hostReadByte
  split <;> exact ⟨h.memWf, h.tagMin, h.work, h.idle, h.busy⟩

theorem move {s t : State} (h : Invariant s) (hm : Move s t) : Invariant t := by
  cases hm with
  | idle hb => exact h
  | complete i hb hd hv => exact h.completeCommand hv
  | accept i hb => exact h.acceptCommand
  | reject v why hb hd => exact endCommand h.memWf h.tagMin
  | overrun hb => exact ⟨h.memWf, h.tagMin, h.work, h.idle, h.busy⟩
  | regWrite r v hr => exact h.writeReg r v
  | regRead r => exact ⟨h.memWf, h.tagMin, h.work, h.idle, h.busy⟩
  | memWrite a b => exact h.hostWriteByte a b
  | memRead a => exact h.hostReadByte a
  | reset => exact engineReset h.memWf h.liveWriteRanges_fit

end Invariant

/-- Settles O37: every step is a move, and every move keeps the invariant. -/
theorem everyStepKeepsInvariant : Obligations.EveryStepKeepsInvariant := by
  intro s t h hstep
  obtain ⟨es, hm⟩ := move_of_step hstep
  exact (h.setSchedule es).move hm

/-- Settles O36: reset leaves empty memory, TAGMIN 4 and an idle engine, all cleared. -/
theorem resetStateSatisfiesInvariant : Obligations.ResetStateSatisfiesInvariant where
  memWf := rfl
  tagMin := by decide
  work := rfl
  idle _ := ⟨rfl, rfl, rfl⟩
  busy h := by simp [State.reset, Status.reset] at h

end Sys2Proof.Machine
end

section
/-! SUPPORT. System memory as the engine and the host use it: what a write reads back as, what a completion leaves alone,
what a host access returns and spoils, and where a step stops (20_memory.md R70 to R88, 70_reset_and_hazards.md R290). -/

namespace Sys2Proof.Machine

/-! ## Byte strings and blocks in memory -/

/-- Settles O52: each clause is a law of memory, for the byte string, the block, or the write. -/
theorem memoryReadsBackWrites : Obligations.MemoryReadsBackWrites := by
  refine ⟨fun m a n => ⟨memRead_length m a n, memRead_getElem? m a n⟩, blockByte_memBlock,
    fun m a bs hm hfit => ⟨memWrite_wf hm hfit, fun i hi => ?_, fun c => readByte_memWrite_other m a bs c, rfl⟩⟩
  rw [readByte_memWrite_add hm a bs i hi hfit, List.getElem?_eq_getElem]

/-! ## What the engine writes -/

/-- A completion leaves every byte outside the write ranges alone (R80). -/
theorem CompletionMem.outside {c : Config.CipherPort} {i : Instr} {s : State} {m : Mem}
    (h : CompletionMem i s (ruleOf i c s.lp s.mem s.work) m) (hv : validateCommand i s.lp = .ok) {a : Nat}
    (ha : inRanges (writeRanges i s.lp) a = false) : readByte m a = readByte s.mem a := by
  rcases h with rfl | rfl | ⟨haf, rfl⟩
  · rfl
  · exact readByte_havoc_other _ _ _ _ ha
  · exact memWriteAll_outside (rule_writes hv haf) ha

/-- Acceptance reads and writes no memory (R81). -/
theorem acceptCommand_mem (i : Instr) (s : State) : (acceptCommand i s).mem = s.mem := by
  by_cases hv : validateCommand i (latch (encode i) s) = .ok
  · simp [acceptCommand_ok hv]
  · simp [acceptCommand_error hv]

/-- Settles O29: an acceptance writes nothing, and a completion leaves what `CompletionMem` says. -/
theorem engineWritesOnlyWriteRanges : Obligations.EngineWritesOnlyWriteRanges := by
  intro i s t h
  rcases exec_next_cases h with ⟨hb, rfl⟩ | ⟨hb, hv, rfl⟩
  · exact ⟨fun hb' => absurd hb' (by simp [hb]), fun _ => acceptCommand_mem i s⟩
  · refine ⟨fun _ a ha => ?_, fun hb' => absurd hb' (by simp [hb])⟩
    obtain ⟨e, af, m, d, hc, hm⟩ := completeCommand_eq_endCommand Config.cipherPort i (ruleOf i) s
    rw [hc]
    exact hm.outside hv ha

/-! ## The engine's turn -/

theorem step_engine {s : State} {rest : List Event} (h : s.schedule = .engine :: rest) :
    step s = carryOut (engineTurn { s with schedule := rest }) := step_cons h

theorem carryOut_engineTurn_busy {s : State} {i : Instr} (hb : s.status.busy = true)
    (hd : decode s.lp.cmd = .command i) : carryOut (engineTurn s) = exec i s := by
  rw [engineTurn_busy hb hd, carryOut_run]

theorem carryOut_engineTurn_idle {s : State} (hb : s.status.busy = false) : carryOut (engineTurn s) = .next s := by
  rw [engineTurn_idle hb, carryOut_next]

/-- Settles O4: both ways to the engine's turn are `engineTurn`, which is `exec` of the latched command, or nothing. -/
theorem stepCompletesLatchedCommand : Obligations.StepCompletesLatchedCommand := by
  intro s
  refine ⟨fun i hb hd => ⟨fun h => ?_, fun rest h => ?_⟩, fun hb => ⟨fun h => ?_, fun rest h => ?_⟩⟩
  · exact (step_nil h).trans (carryOut_engineTurn_busy hb hd)
  · exact (step_engine h).trans (carryOut_engineTurn_busy (s := { s with schedule := rest }) hb hd)
  · exact (step_nil h).trans (carryOut_engineTurn_idle hb)
  · exact (step_engine h).trans (carryOut_engineTurn_idle (s := { s with schedule := rest }) hb)

/-! ## The host's memory accesses -/

theorem step_memWrite {s : State} {a : Word} {b : Byte} {rest : List Event} (h : s.schedule = .memWrite a b :: rest) :
    step s = .next (hostWriteByte a b { s with schedule := rest }) := step_cons h

theorem step_memRead {s : State} {a : Word} {rest : List Event} (h : s.schedule = .memRead a :: rest) :
    step s = .next (hostReadByte a { s with schedule := rest }) := step_cons h

/-- A host read of a write-range byte of the running command is a free value (R87). -/
theorem hostReadByte_live {a : Word} {s : State} (h : inRanges (liveWriteRanges s) a.toNat = true) :
    hostReadByte a s =
      { s with hostSaw := some (.byte (Config.freeByte s.draws a.toNat)), draws := s.draws + 1 } := if_pos h

/-- Any other host read returns the byte and draws nothing (R87). -/
theorem hostReadByte_settled {a : Word} {s : State} (h : inRanges (liveWriteRanges s) a.toNat = false) :
    hostReadByte a s = { s with hostSaw := some (.byte (readByte s.mem a.toNat)) } := if_neg (by simp [h])

/-- Settles O46: a write is `hostWriteByte`, and a read is free or settled by the live write ranges. -/
theorem hostMemoryAccess : Obligations.HostMemoryAccess := by
  refine ⟨fun s => ⟨fun i hb hd => ⟨liveUsedRanges_busy hb hd, liveWriteRanges_busy hb hd⟩,
    fun hb => ⟨liveUsedRanges_idle hb, liveWriteRanges_idle hb⟩⟩, fun s a b rest h hm => ?_, fun s a rest h => ?_⟩
  · exact ⟨_, step_memWrite h, readByte_writeByte_same hm _ b, fun c hc => readByte_writeByte_other _ _ c b hc, rfl⟩
  · cases hlive : inRanges (liveWriteRanges s) a.toNat
    case true =>
      refine ⟨_, Config.freeByte s.draws a.toNat, step_memRead h, ?_, fun _ => rfl, fun hf => by simp at hf⟩
      rw [hostReadByte_live (s := { s with schedule := rest }) hlive]
    case false =>
      refine ⟨_, readByte s.mem a.toNat, step_memRead h, ?_, fun hf => by simp at hf, fun _ => rfl⟩
      rw [hostReadByte_settled (s := { s with schedule := rest }) hlive]

/-! ## Where a step stops -/

theorem exec_ne_refused (i : Instr) (s : State) (r : Refusal) : exec i s ≠ .refused r := by
  rw [exec_eq, runCommand]
  split_ifs <;> simp

theorem carryOut_ne_refused (p : Plan) (r : Refusal) : carryOut p ≠ .refused r := by
  cases p with
  | next t => simp
  | run i t => exact exec_ne_refused i t r
  | stuck f => simp

/-- An access that is not a word, or not aligned, reaches no register (R76). -/
theorem regOfAccess_eq_none {size : AccessSize} {off : BitVec 6} (h : size ≠ .word ∨ off.toNat % 4 ≠ 0) :
    regOfAccess size off = none := by
  cases size
  case word =>
    have aligned : ∀ off : BitVec 6, off.toNat % 4 ≠ 0 → regAt off = none := by decide
    exact aligned off (h.resolve_left (by simp))
  all_goals rfl

/-- At an access that is not admitted the host is stuck, the access left on the schedule (R76). -/
theorem step_windowAccess_notAdmitted {s : State} {size : AccessSize} {off : BitVec 6} {rest : List Event}
    (h : WindowAccessNext s size off rest) (hoff : regOfAccess size off = none) :
    step s = carryOut (hostStuck s) := by
  rcases h with ⟨v, h⟩ | h
  all_goals
    rw [step_cons h]
    simp only [perform, hoff]

/-- An idle engine accepts any command, and a busy one completes the one that passed validation. -/
theorem exec_ne_fault {i : Instr} {s : State} (h : s.status.busy = true → validateCommand i s.lp = .ok) (f : Fault) :
    exec i s ≠ .fault f := by
  cases hb : s.status.busy
  case false => simp [exec_idle hb]
  case true => simp [exec_busy hb (h hb)]

/-- From a state of the invariant the engine's turn never stops the machine (40_engine.md R130). -/
theorem Invariant.engineTurn_ne_fault {s : State} (h : Invariant s) (f : Fault) :
    carryOut (engineTurn s) ≠ .fault f := by
  cases hb : s.status.busy
  case false => simp [carryOut_engineTurn_idle hb]
  case true =>
    obtain ⟨i, hd, hv⟩ := validate_ok_iff.mp (h.busy hb).1
    rw [carryOut_engineTurn_busy hb hd]
    exact exec_ne_fault (fun _ => hv) f

theorem Invariant.hostStuck_fault {s : State} (h : Invariant s) {f : Fault}
    (hf : carryOut (hostStuck s) = .fault f) : f = .windowAccessNotAdmitted ∧ s.status.busy = false := by
  cases hb : s.status.busy
  case false =>
    rw [hostStuck_idle hb, carryOut_stuck] at hf
    exact ⟨(Host.Outcome.fault.inj hf).symm, rfl⟩
  case true => exact absurd (hostStuck_busy hb ▸ hf) (h.engineTurn_ne_fault f)

/-- A CMD write never stops the machine (40_engine.md R120, R147). -/
theorem writeCmd_ne_fault (v : Word) (s : State) (f : Fault) : carryOut (writeCmd v s) ≠ .fault f := by
  cases hb : s.status.busy
  case true => simp [writeCmd_busy v hb]
  case false =>
    cases hd : decode v with
    | command i =>
      rw [writeCmd_command hb hd]
      exact exec_ne_fault (fun hb' => absurd hb' (by simp [hb])) f
    | rejected why => simp [writeCmd_rejected hb hd]

/-- From a state of the invariant an action stops the machine only where it is a window access that is not admitted. -/
theorem Invariant.perform_fault {s : State} (h : Invariant s) {e : Event} {rest : List Event}
    (hs : s.schedule = e :: rest) {f : Fault}
    (hf : carryOut (perform s e { s with schedule := rest }) = .fault f) :
    carryOut (hostStuck s) = .fault f ∧
      ∃ size off, WindowAccessNext s size off rest ∧ regOfAccess size off = none := by
  cases e with
  | engine => exact absurd hf ((h.setSchedule rest).engineTurn_ne_fault f)
  | regWrite size off v =>
    simp only [perform] at hf
    split at hf
    · exact absurd hf (writeCmd_ne_fault v _ f)
    · simp at hf
    · rename_i hoff
      exact ⟨hf, size, off, .inl ⟨v, hs⟩, hoff⟩
  | regRead size off =>
    simp only [perform] at hf
    split at hf
    · simp at hf
    · rename_i hoff
      exact ⟨hf, size, off, .inr hs, hoff⟩
  | memWrite a b => simp [perform] at hf
  | memRead a => simp [perform] at hf
  | reset => simp [perform] at hf

/-- Settles O38: such an access is `hostStuck`, and no other action of an invariant state, nor the engine, stops. -/
theorem stopsExactlyAtAccessesNotAdmitted : Obligations.StopsExactlyAtAccessesNotAdmitted := by
  refine ⟨fun s size off rest hnext hoff => ?_, fun s f h hf => ?_, fun s r => carryOut_ne_refused _ r⟩
  · rw [step_windowAccess_notAdmitted hnext (regOfAccess_eq_none hoff)]
    refine ⟨fun hb => ?_, fun i hb hd => ?_⟩
    · rw [hostStuck_idle hb, carryOut_stuck]
    · rw [hostStuck_busy hb, carryOut_engineTurn_busy hb hd]
  · cases hs : s.schedule with
    | nil => exact absurd (step_nil hs ▸ hf) (h.engineTurn_ne_fault f)
    | cons e rest =>
      obtain ⟨hstuck, size, off, hnext, hoff⟩ := h.perform_fault hs (step_cons hs ▸ hf)
      obtain ⟨hfault, hb⟩ := h.hostStuck_fault hstuck
      exact ⟨hfault, hb, size, off, rest, hnext, regOfAccess_none hoff⟩

end Sys2Proof.Machine
end

section
/-! SUPPORT. How a disturbed command ends: raced by the host, or with a used byte that is not ordinary memory
(20_memory.md R79, R88, 40_engine.md R132). -/

namespace Sys2Proof.Machine

/-! ## Which end a running command comes to -/

theorem readsAnswered_iff {i : Instr} {s : State} :
    ReadsAnswered i s ↔ allBytes (readRanges i s.lp) (busOK s.platform) = true := allBytes_iff.symm

theorem writesAnswered_iff {i : Instr} {s : State} :
    WritesAnswered i s ↔ allBytes (writeRanges i s.lp) (busOK s.platform) = true := allBytes_iff.symm

theorem oddByte_iff {rs : List Range} {s : State} :
    OddByte rs s ↔ allBytes rs (ordinaryByte s.platform) = false := by
  refine ⟨fun ⟨r, hr, a, ha, hodd⟩ => ?_, fun h => ?_⟩
  · by_contra hall
    exact absurd (allBytes_iff.mp (by simpa using hall) r hr a ha) (by simp [hodd])
  · by_contra hodd
    exact absurd (allBytes_ordinary_of_not_oddByte hodd) (by simp [h])

theorem exec_raced {i : Instr} {s : State} (hr : Running i s) (hraced : s.raced = true) :
    exec i s = .next (endUnspecified i s) := by
  rw [exec_busy hr.1 hr.2, completeCommand, if_pos hraced]

theorem exec_readUnanswered {i : Instr} {s : State} (hr : Running i s) (hraced : s.raced = false)
    (hreads : ¬ ReadsAnswered i s) : exec i s = .next (endBusError i s) := by
  rw [readsAnswered_iff] at hreads
  rw [exec_busy hr.1 hr.2, completeCommand, if_neg (by simp [hraced]), if_pos (by simpa using hreads)]

/-- A command with a used byte that is not ordinary memory runs its rule and ends with open outputs (R79). -/
theorem exec_odd {i : Instr} {s : State} (hr : Running i s) (hraced : s.raced = false) (hreads : ReadsAnswered i s)
    (hodd : OddByte (usedRanges i s.lp) s) :
    exec i s = .next (endOdd i (ruleOf i Config.cipherPort s.lp s.mem s.work).authFail
      { s with work := (ruleOf i Config.cipherPort s.lp s.mem s.work).work }) := by
  rw [exec_busy hr.1 hr.2, completeCommand, if_neg (by simp [hraced]), if_neg (by simp [hreads.all])]
  simp only [oddByte_iff.mp hodd, Bool.not_false, if_true]

/-- Where every byte answers and is ordinary memory, AUTH_FAIL is what the rule reports (40_engine.md R136). -/
theorem authFail_ordinaryPlatform {i : Instr} {s u : State} (hr : Running i s) (hraced : s.raced = false)
    (hu : exec i { s with platform := ⟨[], []⟩ } = .next u) :
    u.status.authFail = (ruleOf i Config.cipherPort s.lp s.mem s.work).authFail := by
  have hrun : Running i { s with platform := ⟨[], []⟩ } := hr
  have hundisturbed : Undisturbed i { s with platform := ⟨[], []⟩ } := ⟨hraced, fun _ _ _ _ => rfl⟩
  have hreads : ReadsAnswered i { s with platform := ⟨[], []⟩ } := fun _ _ _ _ => rfl
  have hwrites : WritesAnswered i { s with platform := ⟨[], []⟩ } := fun _ _ _ _ => rfl
  rw [exec_undisturbed hrun hundisturbed hreads, if_pos hwrites.all] at hu
  obtain rfl := Host.Outcome.next.inj hu
  cases haf : (ruleOf i Config.cipherPort s.lp s.mem s.work).authFail <;> simp

/-! ## The ends in free values -/

/-- The write ranges of a validated command hold free values, and no other byte has changed, where memory is that of a free
draw (R88, 40_engine.md R132). -/
theorem havoc_free {i : Instr} {s t : State} (hr : Running i s) (hm : Mem.wf s.mem = true)
    (ht : t.mem = havoc s.mem s.draws (writeRanges i s.lp)) :
    FreeInside (writeRanges i s.lp) s.draws t ∧ SameOutside (writeRanges i s.lp) s t :=
  ⟨fun a ha => by rw [ht, readByte_havoc_inside hm (writeRanges_fit hr.2) ha],
    fun a ha => by rw [ht, readByte_havoc_other _ _ _ _ ha]⟩

/-- An end of a state that differs only in working registers, memory and draws is an end of the state itself. -/
theorem ended_of_draws (e : Err) (af : Bool) (s : State) (w : Work) (m : Mem) (d : Nat) :
    Ended s (endCommand e af { s with work := w, mem := m, draws := d }) e af :=
  ⟨rfl, rfl, rfl, rfl, rfl, rfl, rfl, rfl, rfl, rfl⟩

theorem racedErr_ok_or_bus (i : Instr) (s : State) : racedErr i s = .ok ∨ racedErr i s = .bus := by
  unfold racedErr
  split_ifs <;> simp

theorem racedErr_answered {i : Instr} {s : State} (hreads : ReadsAnswered i s) (hwrites : WritesAnswered i s) :
    racedErr i s = .ok := by
  simp [racedErr, hreads.all, hwrites.all]

theorem racedErr_readUnanswered {i : Instr} {s : State} (hreads : ¬ ReadsAnswered i s) : racedErr i s = .bus := by
  rw [readsAnswered_iff] at hreads
  simp [racedErr, hreads]

theorem racedErr_writeUnanswered {i : Instr} {s : State} (htag : checksTag i = false) (hwrites : ¬ WritesAnswered i s) :
    racedErr i s = .bus := by
  rw [writesAnswered_iff] at hwrites
  simp [racedErr, htag, hwrites]

/-! ## AUTH_FAIL where a used byte is not ordinary memory -/

/-- The three cases of AUTH_FAIL at such an end (entry 12), given what the rule reports. -/
theorem eq_oddAuthFail {i : Instr} {s : State} {af out : Bool} (hnone : checksTag i = false → af = false)
    (hfree : checksTag i = true → OddByte (readRanges i s.lp) s → af = Config.freeBit s.draws)
    (hrule : checksTag i = true → ¬ OddByte (readRanges i s.lp) s → af = out) : af = oddAuthFail i out s := by
  cases htag : checksTag i
  case false => simp [oddAuthFail, htag, hnone htag]
  case true =>
    by_cases hodd : OddByte (readRanges i s.lp) s
    · simp [oddAuthFail, htag, hfree htag hodd, oddByte_iff.mp hodd]
    · simp [oddAuthFail, htag, hrule htag hodd, allBytes_ordinary_of_not_oddByte hodd]

theorem endOdd_mismatch {i : Instr} {out : Bool} {s : State} (h : oddAuthFail i out s = true) :
    endOdd i out s = endCommand .ok true { s with draws := s.draws + 1 } := if_pos h

theorem endOdd_writeUnanswered {i : Instr} {out : Bool} {s : State} (h : oddAuthFail i out s = false)
    (hwrites : ¬ WritesAnswered i s) : endOdd i out s = endBusError i s := by
  rw [writesAnswered_iff] at hwrites
  simp [endOdd, h, hwrites]

theorem endOdd_finish {i : Instr} {out : Bool} {s : State} (h : oddAuthFail i out s = false)
    (hwrites : WritesAnswered i s) :
    endOdd i out s =
      endCommand .ok false { s with mem := havoc s.mem s.draws (writeRanges i s.lp), draws := s.draws + 1 } := by
  simp [endOdd, h, hwrites.all]

/-- Settles O28: a race, an unanswered read byte and an odd byte each have their end, and AUTH_FAIL of the last is
`oddAuthFail` of what the rule reports on ordinary memory. -/
theorem disturbedCommandEndsUnspecified : Obligations.DisturbedCommandEndsUnspecified := by
  refine ⟨fun i => checksTag_iff, fun i s hr hm => ⟨fun hraced => ?_, fun hraced hodd =>
    ⟨fun hreads => ?_, fun hreads u af hu hnone hfree hrule => ?_⟩⟩⟩
  · exact ⟨_, racedErr i s, exec_raced hr hraced, ended_of_draws _ _ s s.work _ _, racedErr_ok_or_bus i s,
      racedErr_answered, racedErr_readUnanswered, racedErr_writeUnanswered, havoc_free hr hm rfl⟩
  · exact ⟨_, exec_readUnanswered hr hraced hreads, ended_of_draws _ _ s s.work _ _, havoc_free hr hm rfl⟩
  · rw [authFail_ordinaryPlatform hr hraced hu] at hrule
    have hexec := exec_odd hr hraced hreads hodd
    generalize (ruleOf i Config.cipherPort s.lp s.mem s.work).authFail = out at hexec hrule
    generalize (ruleOf i Config.cipherPort s.lp s.mem s.work).work = w at hexec
    have haf : af = oddAuthFail i out { s with work := w } := eq_oddAuthFail (s := s) hnone hfree hrule
    refine ⟨fun hmismatch => ?_, fun hmatch => ?_⟩
    · rw [endOdd_mismatch (haf.symm.trans hmismatch)] at hexec
      exact ⟨_, hexec, ended_of_draws _ _ s w s.mem _, rfl⟩
    · by_cases hwrites : WritesAnswered i s
      · rw [endOdd_finish (s := { s with work := w }) (haf.symm.trans hmatch) hwrites] at hexec
        exact ⟨_, hexec, fun _ => ended_of_draws _ _ s w _ _, fun hno => absurd hwrites hno, havoc_free hr hm rfl⟩
      · rw [endOdd_writeUnanswered (s := { s with work := w }) (haf.symm.trans hmatch) hwrites] at hexec
        exact ⟨_, hexec, fun hyes => absurd hyes hwrites, fun _ => ended_of_draws _ _ s w _ _, havoc_free hr hm rfl⟩

end Sys2Proof.Machine
end

section
/-! SUPPORT. A command is one atomic transition: what a host that keeps its duties leaves to the running command, and that
the command's end depends on nothing else (20_memory.md R86, 40_engine.md R131, 70_reset_and_hazards.md R290, R292). -/

namespace Sys2Proof.Machine

/-! ## What the host leaves to the running command -/

/-- State `s'` holds the running command `i` of `s` as `s` does: all that its end may read, and its used bytes. -/
structure SameCommand (i : Instr) (s s' : State) : Prop where
  busy : s'.status.busy = s.status.busy
  lp : s'.lp = s.lp
  work : s'.work = s.work
  platform : s'.platform = s.platform
  raced : s'.raced = s.raced
  draws : s'.draws = s.draws
  memWf : Mem.wf s'.mem = true
  used : ∀ a, inRanges (usedRanges i s.lp) a = true → readByte s'.mem a = readByte s.mem a

namespace SameCommand

theorem refl {i : Instr} {s : State} (hm : Mem.wf s.mem = true) : SameCommand i s s :=
  ⟨rfl, rfl, rfl, rfl, rfl, rfl, hm, fun _ _ => rfl⟩

theorem trans {i : Instr} {s s' s'' : State} (h : SameCommand i s s') (h' : SameCommand i s' s'') :
    SameCommand i s s'' where
  busy := h'.busy.trans h.busy
  lp := h'.lp.trans h.lp
  work := h'.work.trans h.work
  platform := h'.platform.trans h.platform
  raced := h'.raced.trans h.raced
  draws := h'.draws.trans h.draws
  memWf := h'.memWf
  used a ha := (h'.used a (h.lp ▸ ha)).trans (h.used a ha)

theorem running {i : Instr} {s s' : State} (h : SameCommand i s s') (hr : Running i s) : Running i s' :=
  ⟨h.busy.trans hr.1, h.lp ▸ hr.2⟩

end SameCommand

/-- One action of a host that keeps its duties succeeds and leaves the running command as it was (R84, R87, R88, R292). -/
theorem step_quiet {i : Instr} {s : State} {e : Event} {rest : List Event} (hb : s.status.busy = true)
    (hd : decode s.lp.cmd = .command i) (hm : Mem.wf s.mem = true) (hs : s.schedule = e :: rest)
    (he : QuietEvent i s.lp e) : ∃ t, step s = .next t ∧ t.schedule = rest ∧ SameCommand i s t := by
  cases e with
  | engine => exact he.elim
  | regWrite size off v =>
    obtain ⟨r, hoff, hsrst⟩ := he
    by_cases hcmd : r = .cmd
    · subst hcmd
      refine ⟨{ s with schedule := rest, status := { s.status with cmdOvr := true } }, ?_, rfl,
        ⟨rfl, rfl, rfl, rfl, rfl, rfl, hm, fun _ _ => rfl⟩⟩
      rw [step_cons hs]
      simp only [perform, hoff]
      rw [writeCmd_busy (s := { s with schedule := rest }) v hb, carryOut_next]
    · obtain ⟨rfl, hat⟩ := regOfAccess_some hoff
      obtain ⟨ie, st, regs, hw, hbusy, -⟩ := writeReg_keeps r v { s with schedule := rest } hsrst
      refine ⟨_, step_regWrite hs hat hcmd, ?_⟩
      rw [hw]
      exact ⟨rfl, hbusy, rfl, rfl, rfl, rfl, rfl, hm, fun _ _ => rfl⟩
  | regRead size off =>
    obtain ⟨r, hoff⟩ := he
    obtain ⟨rfl, hat⟩ := regOfAccess_some hoff
    exact ⟨_, step_regRead hs hat, rfl, ⟨rfl, rfl, rfl, rfl, rfl, rfl, hm, fun _ _ => rfl⟩⟩
  | memWrite a b =>
    have he : inRanges (usedRanges i s.lp) a.toNat = false := he
    refine ⟨_, step_memWrite hs, rfl, ⟨rfl, rfl, rfl, rfl, ?_, rfl, writeByte_wf hm (lt_memorySize a), fun c hc => ?_⟩⟩
    · rw [hostWriteByte_raced, liveUsedRanges_busy (s := { s with schedule := rest }) hb hd]
      simp [he]
    · exact readByte_writeByte_other _ _ _ _ fun hca => by simp [← hca, hc] at he
  | memRead a =>
    have he : inRanges (liveWriteRanges s) a.toNat = false := by rw [liveWriteRanges_busy hb hd]; exact he
    refine ⟨_, step_memRead hs, ?_⟩
    rw [hostReadByte_settled (s := { s with schedule := rest }) he]
    exact ⟨rfl, rfl, rfl, rfl, rfl, rfl, rfl, hm, fun _ _ => rfl⟩
  | reset => exact he.elim

/-- A run of such actions leaves the running command as it was, and the run goes on from there. -/
theorem run_quiet {i : Instr} (es : List Event) {s : State} {tail : List Event} (hb : s.status.busy = true)
    (hd : decode s.lp.cmd = .command i) (hm : Mem.wf s.mem = true) (hs : s.schedule = es ++ tail)
    (hes : ∀ e ∈ es, QuietEvent i s.lp e) :
    ∃ s', s'.schedule = tail ∧ SameCommand i s s' ∧
      ∀ n, Host.Core.run Sys2Proof.core (es.length + n) s = Host.Core.run Sys2Proof.core n s' := by
  induction es generalizing s with
  | nil => exact ⟨s, hs, .refl hm, fun n => by rw [List.length_nil, Nat.zero_add]⟩
  | cons e es ih =>
    obtain ⟨t, hstep, ht, hsame⟩ := step_quiet hb hd hm hs (hes e (by simp))
    obtain ⟨s', hs', hsame', hrun⟩ := ih (hsame.busy.trans hb) (hsame.lp ▸ hd) hsame.memWf ht
      fun e he => hsame.lp ▸ hes e (by simp [he])
    refine ⟨s', hs', hsame.trans hsame', fun n => ?_⟩
    rw [List.length_cons, show es.length + 1 + n = es.length + n + 1 by omega, run_step hstep, hrun]

/-! ## What the end depends on -/

/-- Where two memories agree on a byte, they agree on it after the same byte strings are written to both. -/
theorem readByte_memWriteAll_congr {ws : List (Nat × Bytes)} {m m' : Mem} (hm : Mem.wf m = true)
    (hm' : Mem.wf m' = true) (hfit : ∀ w ∈ ws, w.1 + w.2.length ≤ Config.memorySize) {a : Nat}
    (h : readByte m' a = readByte m a) : readByte (memWriteAll m' ws) a = readByte (memWriteAll m ws) a := by
  induction ws generalizing m m' with
  | nil => exact h
  | cons w ws ih =>
    obtain ⟨b, bs⟩ := w
    have hbs : b + bs.length ≤ Config.memorySize := hfit (b, bs) (by simp)
    refine ih (memWrite_wf hm hbs) (memWrite_wf hm' hbs) (fun w hw => hfit w (by simp [hw])) ?_
    by_cases hin : b ≤ a ∧ a - b < bs.length
    · rw [readByte_memWrite_same hm' b bs a hin.1 hin.2 hbs, readByte_memWrite_same hm b bs a hin.1 hin.2 hbs]
    · rw [readByte_memWrite_other m' b bs a (by omega), readByte_memWrite_other m b bs a (by omega), h]

/-- The byte strings of a validated command's rule lie in memory (40_engine.md R127). -/
theorem writes_fit {ws : List (Nat × Bytes)} {i : Instr} {lp : Latch} (hv : validateCommand i lp = .ok)
    (h : ws.map (fun x => (⟨x.1, x.2.length⟩ : Range)) = writeRanges i lp) :
    ∀ w ∈ ws, w.1 + w.2.length ≤ Config.memorySize := by
  intro w hw
  have hr : (⟨w.1, w.2.length⟩ : Range) ∈ writeRanges i lp := h ▸ List.mem_map.mpr ⟨w, hw, rfl⟩
  have hbase := writeRange_base_lt hr
  rcases usedRange_bound hv (List.mem_append_right _ hr) with hsize | hfit
  · simp only at hbase hsize
    omega
  · exact hfit

theorem readByte_havoc_congr {m m' : Mem} {n : Nat} {rs : List Range} (hm : Mem.wf m = true) (hm' : Mem.wf m' = true)
    (hfit : rs.all Range.fits = true) {a : Nat} (h : readByte m' a = readByte m a) :
    readByte (havoc m' n rs) a = readByte (havoc m n rs) a := by
  cases hin : inRanges rs a
  case true => rw [readByte_havoc_inside hm' hfit hin, readByte_havoc_inside hm hfit hin]
  case false => rw [readByte_havoc_other _ _ _ _ hin, readByte_havoc_other _ _ _ _ hin, h]

/-- Ends `t`, begun with memory `m`, and `t'`, begun with `m'`, report alike, and agree on every byte on which `m` and `m'`
do. -/
structure SameEnd (m m' : Mem) (t t' : State) : Prop where
  err : t'.status.err = t.status.err
  authFail : t'.status.authFail = t.status.authFail
  mem : ∀ a, readByte m' a = readByte m a → readByte t'.mem a = readByte t.mem a

namespace SameCommand

variable {i : Instr} {s s' : State}

theorem endUnspecified (h : SameCommand i s s') (hm : Mem.wf s.mem = true) (hv : validateCommand i s.lp = .ok) :
    SameEnd s.mem s'.mem (Machine.endUnspecified i s) (Machine.endUnspecified i s') where
  err := by simp [racedErr, h.lp, h.platform, h.draws]
  authFail := by simp [h.draws]
  mem a ha := by
    simpa [h.lp, h.draws] using readByte_havoc_congr hm h.memWf (writeRanges_fit hv) ha

theorem endBusError (h : SameCommand i s s') (hm : Mem.wf s.mem = true) (hv : validateCommand i s.lp = .ok) :
    SameEnd s.mem s'.mem (Machine.endBusError i s) (Machine.endBusError i s') where
  err := rfl
  authFail := rfl
  mem a ha := by
    simpa [h.lp, h.draws] using readByte_havoc_congr hm h.memWf (writeRanges_fit hv) ha

theorem setWork (h : SameCommand i s s') (w : Work) : SameCommand i { s with work := w } { s' with work := w } :=
  { h with work := rfl }

theorem endOdd (h : SameCommand i s s') (hm : Mem.wf s.mem = true) (hv : validateCommand i s.lp = .ok) (af : Bool) :
    SameEnd s.mem s'.mem (Machine.endOdd i af s) (Machine.endOdd i af s') := by
  have haf : oddAuthFail i af s' = oddAuthFail i af s := by simp [oddAuthFail, h.lp, h.platform, h.draws]
  unfold Machine.endOdd
  rw [haf, h.lp, h.platform, h.draws]
  split_ifs
  · exact ⟨rfl, rfl, fun _ ha => ha⟩
  · exact h.endBusError hm hv
  · exact ⟨rfl, rfl, fun a ha => readByte_havoc_congr hm h.memWf (writeRanges_fit hv) ha⟩

/-- The rule gives the same outputs: it reads memory only in the read ranges (40_engine.md R131). -/
theorem rule_eq (h : SameCommand i s s') (c : Config.CipherPort) :
    ruleOf i c s'.lp s'.mem s'.work = ruleOf i c s.lp s.mem s.work := by
  rw [h.lp, h.work]
  exact rule_memory fun a ha => h.used a (by simp [usedRanges, ha])

/-- What the platform says of the command's bytes is the same. -/
theorem allBytes_eq (h : SameCommand i s s') (ranges : Instr → Latch → List Range) (f : Platform → Nat → Bool) :
    allBytes (ranges i s'.lp) (f s'.platform) = allBytes (ranges i s.lp) (f s.platform) := by rw [h.lp, h.platform]

/-- The command comes to the same end from both states (R86). -/
theorem completeCommand (h : SameCommand i s s') (hm : Mem.wf s.mem = true) (hv : validateCommand i s.lp = .ok) :
    SameEnd s.mem s'.mem (Machine.completeCommand Config.cipherPort i (ruleOf i) s)
      (Machine.completeCommand Config.cipherPort i (ruleOf i) s') := by
  have hwrites := fun haf => writes_fit hv (rule_writes (c := Config.cipherPort) (m := s.mem) (w := s.work) hv haf)
  unfold Machine.completeCommand
  by_cases hr : s.raced = true
  · rw [if_pos hr, if_pos (h.raced.trans hr)]
    exact h.endUnspecified hm hv
  have hr' : ¬ s'.raced = true := h.raced ▸ hr
  rw [if_neg hr, if_neg hr', h.rule_eq, h.allBytes_eq readRanges busOK, h.allBytes_eq usedRanges ordinaryByte,
    h.allBytes_eq writeRanges busOK]
  generalize ruleOf i Config.cipherPort s.lp s.mem s.work = out at hwrites
  dsimp only
  split_ifs with _ _ haf _
  · exact h.endBusError hm hv
  · exact (h.setWork out.work).endOdd hm hv out.authFail
  · exact ⟨rfl, rfl, fun _ ha => ha⟩
  · exact (h.setWork out.work).endBusError hm hv
  · exact ⟨rfl, rfl, fun a => readByte_memWriteAll_congr hm h.memWf (hwrites (by simpa using haf))⟩

end SameCommand

/-- Settles O34: the host's actions leave the running command as it was, so the engine's turn ends it alike. -/
theorem completionIsOneAtomicTransition : Obligations.CompletionIsOneAtomicTransition := by
  intro i s u es rest hr hd hm hs hes hu
  obtain ⟨s', hs', hsame, hrun⟩ := run_quiet es hr.1 hd hm hs hes
  have hsame' : SameCommand i s { s' with schedule := rest } := { hsame with }
  have hr' := hsame'.running hr
  have hstep : step s' = .next (completeCommand Config.cipherPort i (ruleOf i) { s' with schedule := rest }) := by
    rw [step_engine hs', carryOut_engineTurn_busy hr'.1 (hsame'.lp ▸ hd), exec_busy hr'.1 hr'.2]
  rw [exec_busy hr.1 hr.2] at hu
  obtain rfl := Host.Outcome.next.inj hu
  have hend := hsame'.completeCommand hm hr.2
  obtain ⟨e, af, m, d, hc, -⟩ := completeCommand_eq_endCommand Config.cipherPort i (ruleOf i) { s' with schedule := rest }
  exact ⟨_, (hrun 1).trans (run_step hstep 0), by rw [hc]; rfl, by rw [hc]; rfl, hend.err, hend.authFail,
    fun a ha => hend.mem a (hsame'.used a ha)⟩

end Sys2Proof.Machine
end

section
/-! SUPPORT. The command-word encoding: the fields of a word as parts of its number, the words whose fields are legal, and
what the decoder answers on them (30_encoding.md R101 to R108). -/

namespace Sys2Proof.Machine

/-! ## The fields of a word as parts of its number (R101) -/

theorem opField_toNat (v : Word) : (opField v).toNat = v.toNat % 64 := by simp [opField]

theorem opField_eq_iff {v : Word} {op : BitVec 6} : opField v = op ↔ v.toNat % 64 = op.toNat := by
  rw [← opField_toNat, BitVec.toNat_inj]

theorem reservedLow_toNat (v : Word) : (reservedLow v).toNat = v.toNat / 64 % 4 := by
  simp [reservedLow, Nat.shiftRight_eq_div_pow]

theorem reservedHigh_toNat (v : Word) : (reservedHigh v).toNat = v.toNat / 1024 := by
  have := v.isLt
  simp only [reservedHigh, BitVec.extractLsb'_toNat, Nat.shiftRight_eq_div_pow]
  omega

theorem cwField_toNat (v : Word) : (cwField v).toNat = v.toNat / 256 % 2 := Nat.toNat_testBit v.toNat 8

theorem hsrcField_toNat (v : Word) : (hsrcField v).toNat = v.toNat / 512 % 2 := Nat.toNat_testBit v.toNat 9

theorem cwField_eq_true_iff {v : Word} : cwField v = true ↔ v.toNat / 256 % 2 = 1 := by
  rw [← cwField_toNat, Bool.toNat_eq_one]

theorem hsrcField_eq_true_iff {v : Word} : hsrcField v = true ↔ v.toNat / 512 % 2 = 1 := by
  rw [← hsrcField_toNat, Bool.toNat_eq_one]

theorem commandWord_toNat (op : BitVec 6) (cw hsrc : Bool) :
    (commandWord op cw hsrc).toNat = op.toNat + 256 * cw.toNat + 512 * hsrc.toNat := by
  revert op cw hsrc
  decide

/-- A word whose reserved bits are zero is put together from its three fields (R101, R105). -/
theorem eq_commandWord_of_reserved_zero {v : Word} (hlow : reservedLow v = 0) (hhigh : reservedHigh v = 0) :
    v = commandWord (opField v) (cwField v) (hsrcField v) := by
  have hlow : v.toNat / 64 % 4 = 0 := by rw [← reservedLow_toNat, hlow]; rfl
  have hhigh : v.toNat / 1024 = 0 := by rw [← reservedHigh_toNat, hhigh]; rfl
  apply BitVec.eq_of_toNat_eq
  rw [commandWord_toNat, opField_toNat, cwField_toNat, hsrcField_toNat]
  omega

/-! ## Legal fields -/

/-- The fields of the word pass the decode checks of R107: a defined opcode (R108), no reserved bit (R105), CW only on CTR
(R103), HSRC only on GHASH (R104). -/
structure FieldsLegal (v : Word) : Prop where
  opcode : opField v ≠ 0 ∧ (opField v).toNat < 0x0C
  reserved : reservedLow v = 0 ∧ reservedHigh v = 0
  cw : cwField v = true → opField v = 0x06
  hsrc : hsrcField v = true → opField v = 0x07

theorem wordOpcodeDefined_iff (v : Word) :
    wordOpcodeDefined v = true ↔ opField v ≠ 0 ∧ (opField v).toNat < 0x0C := by
  rw [ne_eq, opField_eq_iff, opField_toNat]
  simp only [wordOpcodeDefined, Bool.and_eq_true, decide_eq_true_eq, BitVec.ofNat_eq_ofNat, BitVec.toNat_ofNat]
  omega

theorem wordReservedZero_iff (v : Word) : wordReservedZero v = true ↔ reservedLow v = 0 ∧ reservedHigh v = 0 := by
  rw [← BitVec.toNat_inj, ← BitVec.toNat_inj, reservedLow_toNat, reservedHigh_toNat]
  simp [wordReservedZero]

theorem wordCwOnlyOnCtr_iff (v : Word) : wordCwOnlyOnCtr v = true ↔ (cwField v = true → opField v = 0x06) := by
  rw [cwField_eq_true_iff, opField_eq_iff]
  simp only [wordCwOnlyOnCtr, Bool.or_eq_true, decide_eq_true_eq, BitVec.ofNat_eq_ofNat, BitVec.toNat_ofNat]
  omega

theorem wordHsrcOnlyOnGhash_iff (v : Word) :
    wordHsrcOnlyOnGhash v = true ↔ (hsrcField v = true → opField v = 0x07) := by
  rw [hsrcField_eq_true_iff, opField_eq_iff]
  simp only [wordHsrcOnlyOnGhash, Bool.or_eq_true, decide_eq_true_eq, BitVec.ofNat_eq_ofNat, BitVec.toNat_ofNat]
  omega

/-- The checks on the word's number are the checks on its fields. -/
theorem wordWellFormed_iff_fieldsLegal (v : Word) : wordWellFormed v = true ↔ FieldsLegal v := by
  simp only [wordWellFormed, Bool.and_eq_true, wordOpcodeDefined_iff, wordReservedZero_iff, wordCwOnlyOnCtr_iff,
    wordHsrcOnlyOnGhash_iff]
  exact ⟨fun ⟨⟨⟨hop, hres⟩, hcw⟩, hhsrc⟩ => ⟨hop, hres, hcw, hhsrc⟩,
    fun ⟨hop, hres, hcw, hhsrc⟩ => ⟨⟨⟨hop, hres⟩, hcw⟩, hhsrc⟩⟩

/-! ## The opcode map (R106) -/

/-- The defined opcodes are those with a command. -/
theorem opcodeMap_isSome (op : BitVec 6) (cw hsrc : Bool) :
    (opcodeMap op cw hsrc).isSome = true ↔ op ≠ 0 ∧ op.toNat < 0x0C := by
  revert op cw hsrc
  decide

/-- Where the option bits are legal, the encoder takes the command of the opcode map back to its fields. -/
theorem map_encode_opcodeMap {op : BitVec 6} {cw hsrc : Bool} (hop : op ≠ 0 ∧ op.toNat < 0x0C)
    (hcw : cw = true → op = 0x06) (hhsrc : hsrc = true → op = 0x07) :
    (opcodeMap op cw hsrc).map encode = some (commandWord op cw hsrc) := by
  revert op cw hsrc
  decide

/-! ## The decoder (R107) -/

/-- The words that decode are those with legal fields, and the opcode map gives the command. -/
theorem decode_eq_command_iff_fieldsLegal {v : Word} {i : Instr} :
    decode v = .command i ↔ FieldsLegal v ∧ opcodeMap (opField v) (cwField v) (hsrcField v) = some i := by
  unfold decode
  constructor
  · intro h
    split_ifs at h with hop hres hcw hhsrc
    split at h
    · rename_i hmap
      obtain rfl := Decoded.command.inj h
      exact ⟨⟨by simpa using hop, by simpa using hres, by simpa using hcw, by simpa using hhsrc⟩, hmap⟩
    · cases h
  · rintro ⟨⟨hop, hres, hcw, hhsrc⟩, hmap⟩
    rw [if_neg (by simpa using hop), if_neg (by simpa using hres), if_neg (by simpa using hcw),
      if_neg (by simpa using hhsrc), hmap]

theorem exists_decode_iff_wordWellFormed (v : Word) : (∃ i, decode v = .command i) ↔ wordWellFormed v = true := by
  rw [wordWellFormed_iff_fieldsLegal]
  constructor
  · rintro ⟨i, h⟩
    exact (decode_eq_command_iff_fieldsLegal.mp h).1
  · intro h
    obtain ⟨i, hmap⟩ := Option.isSome_iff_exists.mp ((opcodeMap_isSome _ (cwField v) (hsrcField v)).mpr h.opcode)
    exact ⟨i, decode_eq_command_iff_fieldsLegal.mpr ⟨h, hmap⟩⟩

/-- A word that decodes is the encoding of its command: the fields give the word back, and the opcode map the fields. -/
theorem eq_encode_of_decode {v : Word} {i : Instr} (h : decode v = .command i) : v = encode i := by
  obtain ⟨hv, hmap⟩ := decode_eq_command_iff_fieldsLegal.mp h
  have hword := map_encode_opcodeMap hv.opcode hv.cw hv.hsrc
  rw [hmap, Option.map_some] at hword
  calc v = commandWord (opField v) (cwField v) (hsrcField v) :=
        eq_commandWord_of_reserved_zero hv.reserved.1 hv.reserved.2
    _ = encode i := (Option.some.inj hword).symm

/-- Settles O5: the decoder's branches are the field checks, and a word with legal fields is put together from them. -/
theorem decodeAndEncodeAgree : Obligations.DecodeAndEncodeAgree :=
  ⟨fun i _ => decode_encode i, fun _ _ => eq_encode_of_decode, exists_decode_iff_wordWellFormed⟩

theorem decode_eq_command_iff {v : Word} {i : Instr} : decode v = .command i ↔ v = encode i :=
  ⟨eq_encode_of_decode, fun h => h ▸ decode_encode i⟩

/-- Settles O6: each of the thirteen words is the encoding of its command. -/
theorem commandWordsDecode : Obligations.CommandWordsDecode := by
  simp only [Obligations.CommandWordsDecode, decode_eq_command_iff]
  decide

/-! ## An illegal word (R108) -/

theorem decode_rejected_of_illFormed {v : Word} (h : wordWellFormed v = false) : ∃ why, decode v = .rejected why := by
  cases hd : decode v with
  | rejected why => exact ⟨why, rfl⟩
  | command i =>
    have hwf := (exists_decode_iff_wordWellFormed v).mp ⟨i, hd⟩
    simp [h] at hwf

theorem step_cmdWrite {s : State} {v : Word} {rest : List Event} (h : s.schedule = .regWrite .word 0x08 v :: rest) :
    step s = carryOut (writeCmd v { s with schedule := rest }) := step_cons h

/-- Accepting a word changes only the flags and the latch, which an end sets anew (40_engine.md R120, R141). -/
theorem ended_endCommand_acceptWord (e : Err) (af : Bool) (v : Word) (s : State) :
    Ended s (endCommand e af (acceptWord v s)) e af := by
  constructor <;> rfl

/-- Settles O7: the decoder rejects the word, so the CMD write accepts it and ends with ERR_CMD. -/
theorem illegalWordEndsWithErrCmd : Obligations.IllegalWordEndsWithErrCmd := by
  intro s v rest hs hb hv
  obtain ⟨why, hd⟩ := decode_rejected_of_illFormed hv
  have hstep : step s = .next (endCommand .cmd false (acceptWord v { s with schedule := rest })) := by
    rw [step_cmdWrite hs, writeCmd_rejected (s := { s with schedule := rest }) hb hd, carryOut_next]
  exact ⟨_, hstep, ended_endCommand_acceptWord _ _ _ _, rfl, rfl, rfl⟩

end Sys2Proof.Machine
end

section
/-! SUPPORT. How a command is accepted: what each check of `validate` asks and which code it gives, the used ranges, and the
CMD write that an idle engine takes and a busy one drops (40_engine.md R120 to R130, R147). -/

namespace Sys2Proof.Machine

/-! ## The order of the checks (R122, R261) -/

section
variable {i : Instr} {lp : Latch}

theorem validateCommand_eq_ivLen (hiv : ivOk i lp = false) : validateCommand i lp = .ivLen := by
  simp [validateCommand, hiv]

theorem validateCommand_eq_tagLen (hiv : ivOk i lp = true) (htag : tagOk i lp = false) :
    validateCommand i lp = .tagLen := by
  simp [validateCommand, hiv, htag]

theorem validateCommand_eq_len (hiv : ivOk i lp = true) (htag : tagOk i lp = true) (hlen : lenOk i lp = false) :
    validateCommand i lp = .len := by
  simp [validateCommand, hiv, htag, hlen]

theorem validateCommand_eq_msgLen (hiv : ivOk i lp = true) (htag : tagOk i lp = true) (hlen : lenOk i lp = true)
    (hmsg : msgLenOk i lp = false) : validateCommand i lp = .msgLen := by
  simp [validateCommand, hiv, htag, hlen, hmsg]

theorem validateCommand_eq_range (hiv : ivOk i lp = true) (htag : tagOk i lp = true) (hlen : lenOk i lp = true)
    (hmsg : msgLenOk i lp = true) (hrange : rangesOk i lp = false) : validateCommand i lp = .range := by
  simp [validateCommand, hiv, htag, hlen, hmsg, hrange]

theorem validateCommand_eq_overlap (hiv : ivOk i lp = true) (htag : tagOk i lp = true) (hlen : lenOk i lp = true)
    (hmsg : msgLenOk i lp = true) (hrange : rangesOk i lp = true) (hover : overlapOk i lp = false) :
    validateCommand i lp = .overlap := by
  simp [validateCommand, hiv, htag, hlen, hmsg, hrange, hover]

end

theorem validate_of_rejected {lp : Latch} {why : DecodeError} (h : decode lp.cmd = .rejected why) :
    validate lp = .cmd := by simp [validate, h]

/-- Settles O10: a word that decodes leaves the code to `validateCommand`, whose checks stand in this order. -/
theorem validationReportsFirstError : Obligations.ValidationReportsFirstError := by
  refine fun lp => ⟨fun why => validate_of_rejected, fun i hd => ?_⟩
  rw [validate_of_decode hd]
  exact ⟨validateCommand_eq_ivLen, validateCommand_eq_tagLen, validateCommand_eq_len, validateCommand_eq_msgLen,
    validateCommand_eq_range, validateCommand_eq_overlap,
    fun hiv htag hlen hmsg hrange hover => validateCommand_ok_iff.mpr ⟨hiv, htag, hlen, hmsg, hrange, hover⟩, rfl⟩

/-! ## The length checks (R123 to R125) -/

theorem lenOk_of_len_eq_zero {lp : Latch} (h : lp.len = 0) (i : Instr) : lenOk i lp = true := by
  cases i <;> simp [lenOk, h]

/-- Settles O11: each row of the table is the branch of `ivOk` and `lenOk` for its commands. -/
theorem ivAndLengthRequirements : Obligations.IvAndLengthRequirements := by
  intro lp
  have hivBlock : lp.ivLen.toNat = 16 ↔ lp.ivLen = 16 := BitVec.toNat_inj (y := 16)
  have hivSome : 1 ≤ lp.ivLen.toNat ↔ lp.ivLen ≠ 0 := by
    rw [ne_eq, ← BitVec.toNat_inj]
    exact Nat.one_le_iff_ne_zero
  refine ⟨?_, ?_, ?_, ?_, ?_, lenOk_of_len_eq_zero⟩
  · simp [ivOk, lenOk, hivBlock]
  · simp [ivOk, lenOk, hivBlock]
  · simp [ivOk, lenOk]
  · simp [ivOk, lenOk, hivSome]
  · simp [ivOk, lenOk]

theorem mem_ccmTagLengths (t : Nat) : t ∈ [4, 6, 8, 10, 12, 14, 16] ↔ 4 ≤ t ∧ t ≤ 16 ∧ t % 2 = 0 := by
  simp only [List.mem_cons, List.not_mem_nil, or_false]
  omega

/-- CCM's list of tag lengths is the even lengths from 4 to 16 (R124). -/
theorem ccm_tagOk_iff {i : Instr} (hi : i ∈ [Instr.ccmEnc, .ccmDec]) (lp : Latch) :
    tagOk i lp = true ↔ (4 ≤ lp.tagLen.toNat ∧ lp.tagLen.toNat ≤ 16 ∧ lp.tagLen.toNat % 2 = 0) ∧
      lp.tagMin.toNat ≤ lp.tagLen.toNat := by
  simp only [List.mem_cons, List.not_mem_nil, or_false] at hi
  rcases hi with rfl | rfl <;>
    rw [tagOk, Bool.and_eq_true, List.contains_iff_mem, mem_ccmTagLengths, decide_eq_true_eq]

/-- Settles O12: GCM bounds the tag length, CCM takes the even ones of its list, and no other command looks at it. -/
theorem tagLengthRequirements : Obligations.TagLengthRequirements :=
  fun lp => ⟨by simp [tagOk], fun _ hi => ccm_tagOk_iff hi lp, by simp [tagOk]⟩

/-- A CCM message fits its length field (R125). -/
theorem ccm_msgLenOk_iff {i : Instr} (hi : i ∈ [Instr.ccmEnc, .ccmDec]) (lp : Latch) :
    msgLenOk i lp = true ↔ lp.len.toNat < 2 ^ (8 * (15 - lp.ivLen.toNat)) := by
  simp only [List.mem_cons, List.not_mem_nil, or_false] at hi
  rcases hi with rfl | rfl <;> exact decide_eq_true_iff

/-- Settles O13: with a nonce of at most 11 bytes the field is 32 bits or more, which no LEN exceeds. -/
theorem messageLengthRequirement : Obligations.MessageLengthRequirement := by
  refine fun lp => ⟨fun i hi _ => ?_, by simp [msgLenOk]⟩
  have hfits := ccm_msgLenOk_iff hi lp
  refine ⟨hfits, fun h => ?_, fun h => ?_, fun h => hfits.mpr ?_⟩
  · rw [hfits, h]
    exact Nat.lt_succ_iff
  · rw [hfits, h]
    exact Nat.lt_succ_iff
  · calc lp.len.toNat < 2 ^ 32 := lp.len.isLt
      _ ≤ 2 ^ (8 * (15 - lp.ivLen.toNat)) := Nat.pow_le_pow_right (by decide) (by omega)

/-! ## The used ranges (R126, R127) -/

theorem rangesOk_iff_end_le {i : Instr} {lp : Latch} :
    rangesOk i lp = true ↔ ∀ r ∈ usedRanges i lp, 0 < r.size → r.base + r.size ≤ 2 ^ 32 := by
  simp only [rangesOk_iff, Range.fits_iff, Nat.pos_iff_ne_zero, or_iff_not_imp_left, Config.memorySize, ne_eq]

/-- Settles O14: the ranges are those of the model's table, and an empty range fits wherever it stands. -/
theorem usedRangesAndTheirCheck : Obligations.UsedRangesAndTheirCheck := by
  refine ⟨fun lp => ⟨?_, ⟨rfl, rfl⟩, ⟨rfl, rfl⟩, ?_, ?_, fun i => ⟨rfl, rfl, rfl⟩⟩, fun i lp =>
    ⟨rangesOk_iff_end_le, fun hiv htag hlen hmsg hrange => ⟨validateCommand_eq_range hiv htag hlen hmsg hrange, rfl⟩⟩⟩
  · simp [namedReadRanges, namedWriteRanges, ivBlockRange, inRange, outRange]
  · simp [namedReadRanges, namedWriteRanges, ivRange, aadRange, inRange, outRange, tagRange]
  · simp [namedReadRanges, namedWriteRanges, ivRange, aadRange, inRange, outRange, tagRange]

/-! ## The overlap check (R128) -/

/-- Two ranges overlap exactly when they share a byte: the higher of their base addresses. -/
theorem Range.overlaps_iff_shared {r q : Range} :
    r.overlaps q = true ↔ ∃ a, r.contains a = true ∧ q.contains a = true := by
  refine ⟨fun h => ⟨max r.base q.base, ?_⟩, fun ⟨a, hr, hq⟩ => ?_⟩
  · obtain ⟨hr, hq, hrq, hqr⟩ := Range.overlaps_iff.mp h
    rw [Range.contains_iff, Range.contains_iff]
    omega
  · by_contra h
    exact not_overlaps (by simpa using h) hr hq

theorem Range.overlaps_false_iff {r q : Range} :
    r.overlaps q = false ↔ ∀ a, r.contains a = true → q.contains a = false := by
  rw [← Bool.not_eq_true, Range.overlaps_iff_shared]
  simp

theorem isGhash_false_iff {i : Instr} : isGhash i = false ↔ i ≠ .ghash ∧ i ≠ .ghashHmem := by cases i <;> decide

theorem inPlacePair_iff {i : Instr} {lp : Latch} {r w : RangeName} :
    inPlacePair i lp r w = true ↔ r = .inp ∧ w = .out ∧ lp.inAddr = lp.outAddr ∧ i ≠ .ghash ∧ i ≠ .ghashHmem := by
  simp [inPlacePair, isGhash_false_iff, and_assoc]

/-- What R128 asks of the pairs of a read and a write range. -/
theorem pair_ok_iff {i : Instr} {lp : Latch} {r w : RangeName × Range} :
    (inPlacePair i lp r.1 w.1 || !(r.2.overlaps w.2)) = true ↔
      ∀ a, r.2.contains a = true → w.2.contains a = true → inPlacePair i lp r.1 w.1 = true := by
  cases hp : inPlacePair i lp r.1 w.1
  case true => simp
  case false => simp [Range.overlaps_false_iff]

/-- The two parts of the overlap check (R128). -/
theorem overlapOk_iff {i : Instr} {lp : Latch} :
    overlapOk i lp = true ↔
      (∀ r ∈ namedReadRanges i lp, ∀ w ∈ namedWriteRanges i lp,
        (inPlacePair i lp r.1 w.1 || !(r.2.overlaps w.2)) = true) ∧
      (i = .gcmEnc ∨ i = .ccmEnc → (outRange lp).overlaps (tagRange lp) = false) := by
  unfold overlapOk
  rw [Bool.and_eq_true, List.all_eq_true]
  refine and_congr (forall₂_congr fun r _ => List.all_eq_true) ?_
  cases i <;> simp

/-- Settles O15: ranges overlap exactly when they share a byte, pair by pair. -/
theorem overlapCheckForbidsSharedBytes : Obligations.OverlapCheckForbidsSharedBytes := by
  refine fun i lp => ⟨?_, fun hv => ?_, fun hiv htag hlen hmsg hrange hover =>
    ⟨validateCommand_eq_overlap hiv htag hlen hmsg hrange hover, rfl⟩⟩
  · simp only [overlapOk_iff, pair_ok_iff, inPlacePair_iff, Range.overlaps_false_iff]
  · obtain ⟨-, -, -, -, -, hover⟩ := validateCommand_ok_iff.mp hv
    exact hover

/-! ## The CMD write and acceptance (R120, R121, R129, R130, R147) -/

/-- A CMD write to an idle engine runs the command it decodes to (R120). -/
theorem step_cmdWrite_idle {s : State} {v : Word} {i : Instr} {rest : List Event} (hb : s.status.busy = false)
    (hd : decode v = .command i) (hs : s.schedule = .regWrite .word 0x08 v :: rest) :
    step s = exec i { s with schedule := rest } := by
  rw [step_cmdWrite hs, writeCmd_command (s := { s with schedule := rest }) hb hd, carryOut_run]

/-- `withFetchWord` puts the write of the word to CMD in front of the schedule (entry 1). -/
theorem withFetchWord_schedule (s : State) (v : Word) :
    (s.withFetchWord 32 v.toNat).schedule = .regWrite .word 0x08 v :: s.schedule := by
  rw [State.withFetchWord, Nat.mod_eq_of_lt v.isLt, BitVec.ofNat_toNat, BitVec.setWidth_eq]

/-- Settles O3: both states' next action is that CMD write; with it off, the second is `s` again. -/
theorem stepRunsWrittenCommandWord : Obligations.StepRunsWrittenCommandWord :=
  fun s v _ hb hd => ⟨fun _ => step_cmdWrite_idle hb hd,
    step_cmdWrite_idle (s := s.withFetchWord 32 v.toNat) hb hd (withFetchWord_schedule s v)⟩

/-- Settles O39: on a busy engine `writeCmd` only sets CMD_OVR. -/
theorem commandWriteWhileBusyIsDropped : Obligations.CommandWriteWhileBusyIsDropped := by
  intro s v rest hs hb
  rw [step_cmdWrite hs, writeCmd_busy (s := { s with schedule := rest }) v hb, carryOut_next]

/-- Settles O8: an idle engine's acceptance of a valid command is `startCommand` of the latched word. -/
theorem acceptedCommandStarts : Obligations.AcceptedCommandStarts := by
  intro i s hb hv
  rw [exec_idle hb, acceptCommand_ok hv]
  rfl

/-- Settles O9: an idle engine's acceptance of an invalid command is its end with the error. -/
theorem rejectedCommandEndsAtAcceptance : Obligations.RejectedCommandEndsAtAcceptance := by
  rintro i s e hb rfl hne
  refine ⟨_, exec_idle hb, ?_⟩
  rw [acceptCommand_error hne]
  exact ⟨ended_endCommand_acceptWord _ _ _ _, rfl, rfl⟩

end Sys2Proof.Machine
end

section
/-! SUPPORT. How a running command ends: what every end scrubs, ERR_BUS, what the result depends on, and that the end always
comes (40_engine.md R131, R132, R140, R141, R146, R148). -/

namespace Sys2Proof.Machine

/-! ## Every end (R140, R141) -/

/-- After an end DONE is 1, IRQ follows IE and the working state is scrubbed. -/
theorem endCommand_scrubs_and_raises (e : Err) (af : Bool) (s : State) :
    (endCommand e af s).status.done = true ∧ (endCommand e af s).irq = s.ie ∧
      (endCommand e af s).work = ⟨0, 0, 0, 0, 0, 0, 0, 0⟩ ∧ (endCommand e af s).lp = Latch.cleared ∧
      (endCommand e af s).seq = none :=
  ⟨rfl, by simp [State.irq], rfl, rfl, rfl⟩

/-- Settles O31: `exec` starts the command, which leaves the engine busy, or is an `endCommand`. -/
theorem everyEndScrubsAndRaisesDone : Obligations.EveryEndScrubsAndRaisesDone := by
  intro i s t h
  rcases exec_next_cases h with ⟨hb, rfl⟩ | ⟨-, -, rfl⟩
  · refine ⟨fun hb' => absurd hb' (by simp [hb]), fun hidle => ?_⟩
    by_cases hv : validateCommand i (latch (encode i) s) = .ok
    · simp [acceptCommand_ok hv] at hidle
    · rw [acceptCommand_error hv]
      exact endCommand_scrubs_and_raises _ _ _
  · obtain ⟨e, af, m, d, hc, -⟩ := completeCommand_eq_endCommand Config.cipherPort i (ruleOf i) s
    rw [hc]
    exact ⟨fun _ => rfl, fun _ => endCommand_scrubs_and_raises _ _ _⟩

/-! ## ERR_BUS (R132, R258) -/

/-- Where every byte answers, AUTH_FAIL of an undisturbed command is what its rule reports (R136). -/
theorem authFail_answeringPlatform {i : Instr} {s u : State} (hr : Running i s) (hu : Undisturbed i s)
    (h : exec i { s with platform := ⟨[], s.platform.odd⟩ } = .next u) :
    u.status.authFail = (ruleOf i Config.cipherPort s.lp s.mem s.work).authFail := by
  have hrun : Running i { s with platform := ⟨[], s.platform.odd⟩ } := hr
  have hundisturbed : Undisturbed i { s with platform := ⟨[], s.platform.odd⟩ } := hu
  have hreads : ReadsAnswered i { s with platform := ⟨[], s.platform.odd⟩ } := fun _ _ _ _ => rfl
  rw [exec_undisturbed hrun hundisturbed hreads] at h
  obtain rfl := Host.Outcome.next.inj h
  have hwrites : WritesAnswered i { s with platform := ⟨[], s.platform.odd⟩ } := fun _ _ _ _ => rfl
  rw [if_pos hwrites.all]
  cases haf : (ruleOf i Config.cipherPort s.lp s.mem s.work).authFail <;> simp

/-- What ERR_BUS leaves, whatever the working registers held: the end with code 8, and free write ranges. -/
theorem endBusError_ends {i : Instr} {s : State} (hr : Running i s) (hm : Mem.wf s.mem = true) (w : Work) :
    Ended s (endBusError i { s with work := w }) .bus false ∧
      errCode (endBusError i { s with work := w }).status.err = 8 ∧
      FreeInside (writeRanges i s.lp) s.draws (endBusError i { s with work := w }) ∧
      SameOutside (writeRanges i s.lp) s (endBusError i { s with work := w }) :=
  ⟨ended_of_draws _ _ s w _ _, rfl, havoc_free hr hm rfl⟩

/-- Settles O27: a read byte is asked before the rule runs, a write byte only after a rule that reports no mismatch. -/
theorem unansweredByteEndsWithErrBus : Obligations.UnansweredByteEndsWithErrBus := by
  refine fun i s hr hu hm => ⟨fun hreads => ?_, fun hreads u h => ?_⟩
  · exact ⟨_, exec_readUnanswered hr hu.1 hreads, endBusError_ends hr hm s.work⟩
  · rw [authFail_answeringPlatform hr hu h]
    have hexec := exec_undisturbed hr hu hreads
    refine ⟨fun haf hwrites => ?_, fun haf => ?_⟩
    · rw [writesAnswered_iff] at hwrites
      rw [haf, if_neg Bool.false_ne_true, if_neg hwrites] at hexec
      exact ⟨_, hexec, endBusError_ends hr hm _⟩
    · rw [if_pos haf] at hexec
      exact ⟨_, hexec, finished_endCommand _ _ _ _, rfl⟩

/-! ## What the result depends on (R131, R148) -/

/-- A byte of the byte strings written reads the same whatever memory they are written to. -/
theorem readByte_memWriteAll_inside {ws : List (Nat × Bytes)} {m m' : Mem} (hm : Mem.wf m = true)
    (hm' : Mem.wf m' = true) (hfit : ∀ w ∈ ws, w.1 + w.2.length ≤ Config.memorySize) {a : Nat}
    (ha : inRanges (ws.map fun x => (⟨x.1, x.2.length⟩ : Range)) a = true) :
    readByte (memWriteAll m' ws) a = readByte (memWriteAll m ws) a := by
  induction ws generalizing m m' with
  | nil => simp [inRanges] at ha
  | cons w ws ih =>
    obtain ⟨b, bs⟩ := w
    have hbs : b + bs.length ≤ Config.memorySize := hfit (b, bs) (by simp)
    have hrest : ∀ w ∈ ws, w.1 + w.2.length ≤ Config.memorySize := fun w hw => hfit w (by simp [hw])
    have hwf := memWrite_wf hm hbs
    have hwf' := memWrite_wf hm' hbs
    by_cases hin : b ≤ a ∧ a - b < bs.length
    · refine readByte_memWriteAll_congr hwf hwf' hrest ?_
      rw [readByte_memWrite_same hm' b bs a hin.1 hin.2 hbs, readByte_memWrite_same hm b bs a hin.1 hin.2 hbs]
    · refine ih hwf hwf' hrest ?_
      have hout : ¬ (b ≤ a ∧ a < b + bs.length) := by omega
      simpa [inRanges, Range.contains, hout] using ha

/-- The result of a clean run is its rule's: ERR = 0, the rule's AUTH_FAIL, and without a mismatch its outputs (R136, R139). -/
theorem exec_clean_result {i : Instr} {s t : State} (h : Clean i s) (ht : exec i s = .next t) :
    t.status.err = .ok ∧ t.status.authFail = (ruleOf i Config.cipherPort s.lp s.mem s.work).authFail ∧
      (t.status.authFail = false → t.mem = memWriteAll s.mem (ruleOf i Config.cipherPort s.lp s.mem s.work).writes) := by
  rw [exec_undisturbed h.running h.undisturbed h.reads, if_pos h.writes.all] at ht
  obtain rfl := Host.Outcome.next.inj ht
  cases haf : (ruleOf i Config.cipherPort s.lp s.mem s.work).authFail <;> simp

/-- Settles O33: a rule's outputs depend on the latch and the bytes of the read ranges alone. -/
theorem resultDependsOnlyOnOperands : Obligations.ResultDependsOnlyOnOperands := by
  intro i s₁ s₂ t₁ t₂ h₁ h₂ hlp hreads ht₁ ht₂
  obtain ⟨herr₁, haf₁, hmem₁⟩ := exec_clean_result h₁ ht₁
  obtain ⟨herr₂, haf₂, hmem₂⟩ := exec_clean_result h₂ ht₂
  obtain ⟨hwrites, haf⟩ := rule_work i Config.cipherPort s₁.lp s₁.mem s₁.work s₂.work
  rw [rule_memory hreads (w := s₂.work), hlp] at hwrites haf
  rw [hlp] at haf₁ hmem₁
  have hauth : t₁.status.authFail = t₂.status.authFail := by rw [haf₁, haf, haf₂]
  refine ⟨herr₁.trans herr₂.symm, hauth, fun hno a ha => ?_⟩
  have hno₂ := hauth.symm.trans hno
  have hv := h₂.running.2
  have hranges := rule_writes hv (haf₂.symm.trans hno₂)
  rw [hmem₁ hno, hmem₂ hno₂, hwrites]
  exact readByte_memWriteAll_inside h₂.memWf h₁.memWf (writes_fit hv hranges) (by rwa [hranges, ← hlp])

/-! ## Every command ends (R146, R298) -/

/-- The engine's turn ends the running command of an invariant state. -/
theorem Invariant.engineTurn_ends {s : State} (h : Invariant s) (hb : s.status.busy = true) :
    ∃ t, carryOut (engineTurn s) = .next t ∧ t.status.busy = false := by
  obtain ⟨i, hd, hv⟩ := validate_ok_iff.mp (h.busy hb).1
  obtain ⟨e, af, m, d, hc, -⟩ := completeCommand_eq_endCommand Config.cipherPort i (ruleOf i) s
  exact ⟨_, (carryOut_engineTurn_busy hb hd).trans (exec_busy hb hv), by rw [hc]; rfl⟩

/-- A register write leaves the schedule alone, a soft reset too (10_state.md R59, 70_reset_and_hazards.md R283). -/
theorem writeReg_schedule (r : Reg) (v : Word) (s : State) : (writeReg r v s).schedule = s.schedule := by
  by_cases hreset : r = .ctrl ∧ v.getLsbD 1 = true
  · obtain ⟨rfl, hv⟩ := hreset
    rw [writeReg_ctrl_softReset s hv]
    rfl
  · obtain ⟨ie, st, regs, hw, -⟩ := writeReg_keeps r v s fun hr => by simpa [hr] using hreset
    rw [hw]

theorem hostReadByte_schedule (a : Word) (s : State) : (hostReadByte a s).schedule = s.schedule := by
  unfold hostReadByte
  split <;> rfl

/-- An action of the host ends the running command, the engine having its turn, or is off the schedule. -/
theorem Invariant.perform_ends_or_advances {s₀ s : State} (h₀ : Invariant s₀) (hb₀ : s₀.status.busy = true)
    (h : Invariant s) (hb : s.status.busy = true) (e : Event) :
    ∃ t, carryOut (perform s₀ e s) = .next t ∧ (t.status.busy = false ∨ t.schedule = s.schedule) := by
  have hstuck : ∃ t, carryOut (hostStuck s₀) = .next t ∧ (t.status.busy = false ∨ t.schedule = s.schedule) := by
    obtain ⟨t, ht, hidle⟩ := h₀.engineTurn_ends hb₀
    exact ⟨t, by rwa [hostStuck_busy hb₀], .inl hidle⟩
  cases e with
  | engine =>
    obtain ⟨t, ht, hidle⟩ := h.engineTurn_ends hb
    exact ⟨t, ht, .inl hidle⟩
  | regWrite size off v =>
    simp only [perform]
    split
    · exact ⟨_, congrArg carryOut (writeCmd_busy v hb), .inr rfl⟩
    · exact ⟨_, rfl, .inr (writeReg_schedule _ v s)⟩
    · exact hstuck
  | regRead size off =>
    simp only [perform]
    split
    · exact ⟨_, rfl, .inr rfl⟩
    · exact hstuck
  | memWrite a b => exact ⟨_, rfl, .inr rfl⟩
  | memRead a => exact ⟨_, rfl, .inr (hostReadByte_schedule a s)⟩
  | reset => exact ⟨_, rfl, .inl rfl⟩

/-- The running command of an invariant state ends, by induction on the actions left. -/
theorem Invariant.run_ends {s : State} (h : Invariant s) (hb : s.status.busy = true) :
    ∃ (n : Nat) (t : State), n ≤ s.schedule.length + 1 ∧ Host.Core.run Sys2Proof.core n s = .next t ∧
      t.status.busy = false := by
  generalize hs : s.schedule = es
  induction es generalizing s with
  | nil =>
    obtain ⟨t, ht, hidle⟩ := h.engineTurn_ends hb
    exact ⟨1, t, by simp, run_step ((step_nil hs).trans ht) 0, hidle⟩
  | cons e rest ih =>
    obtain ⟨t, ht, hcase⟩ := h.perform_ends_or_advances hb (h.setSchedule rest) hb e
    have hstep := (step_cons hs).trans ht
    cases hbt : t.status.busy
    case false => exact ⟨1, t, by simp, run_step hstep 0, hbt⟩
    case true =>
      have hrest : t.schedule = rest := hcase.resolve_left (by simp [hbt])
      obtain ⟨n, u, hn, hu, hidle⟩ := ih (everyStepKeepsInvariant s t h hstep) hbt hrest
      exact ⟨n + 1, u, by simpa using hn, (run_step hstep n).trans hu, hidle⟩

/-- Settles O35: each action ends the command or is off the schedule, and the engine's turn ends it when none is left. -/
theorem everyAcceptedCommandEnds : Obligations.EveryAcceptedCommandEnds :=
  fun _ h hb => h.run_ends hb

end Sys2Proof.Machine
end

section
/-! SUPPORT. The laws of the counter increment (40_engine.md R142, R143). -/

namespace Sys2Proof.Machine

/-- The low `w` bytes count up modulo `2^(8w)` (R142). -/
theorem incCounter_low {w : Nat} (hw : w ≤ 16) (cb : Block) (i : Nat) :
    (incCounter w cb i).toNat % 2 ^ (8 * w) = (cb.toNat % 2 ^ (8 * w) + i) % 2 ^ (8 * w) := by
  rw [incCounter_toNat w hw, Nat.mul_add_mod', Nat.mod_mod]

/-- The bytes above the low `w` never change (R142). -/
theorem incCounter_high {w : Nat} (hw : w ≤ 16) (cb : Block) (i : Nat) :
    (incCounter w cb i).toNat / 2 ^ (8 * w) = cb.toNat / 2 ^ (8 * w) := by
  have hpos : 0 < 2 ^ (8 * w) := by positivity
  rw [incCounter_toNat w hw, Nat.add_comm, Nat.add_mul_div_right _ _ hpos, Nat.div_eq_of_lt (Nat.mod_lt _ hpos),
    Nat.zero_add]

theorem blockByte_toNat (x : Block) (j : Nat) : (blockByte x j).toNat = x.toNat / 2 ^ (8 * (15 - j)) % 256 := by
  simp [blockByte, BitVec.extractLsb'_toNat, Nat.shiftRight_eq_div_pow]

/-- A byte above the low `w` is a digit of the number above them. -/
theorem blockByte_toNat_above {w j : Nat} (hj : j < 16 - w) (x : Block) :
    (blockByte x j).toNat = x.toNat / 2 ^ (8 * w) / 2 ^ (8 * (15 - j - w)) % 256 := by
  rw [blockByte_toNat, Nat.div_div_eq_div_mul, ← pow_add]
  congr 3
  omega

theorem blockByte_incCounter {w j : Nat} (hw : w ≤ 16) (hj : j < 16 - w) (cb : Block) (i : Nat) :
    blockByte (incCounter w cb i) j = blockByte cb j := by
  apply BitVec.eq_of_toNat_eq
  rw [blockByte_toNat_above hj, blockByte_toNat_above hj, incCounter_high hw]

/-- Counting through the whole period comes back (R143). -/
theorem incCounter_period {w : Nat} (hw : w ≤ 16) (cb : Block) : incCounter w cb (2 ^ (8 * w)) = cb := by
  apply BitVec.eq_of_toNat_eq
  rw [incCounter_toNat w hw, Nat.add_mod_right, Nat.mod_mod, Nat.div_add_mod']

/-- Settles O47: the number of the counter block splits into the bytes that never change and those that count. -/
theorem counterIncrementLaws : Obligations.CounterIncrementLaws := by
  refine ⟨fun w cb _ hw => ⟨incCounter_low hw cb, fun i j hj => blockByte_incCounter hw hj cb i, incCounter_zero w hw cb,
    incCounter_incCounter w hw cb, incCounter_period hw cb⟩, ?_, ?_⟩
  · decide
  · decide

end Sys2Proof.Machine
end

section
/-! SUPPORT. What a confidentiality command (CBC, CFB, OFB, CTR) writes, as one function of the key handle, the IV and the
input, and that a clean run leaves it in OUTR (41_cbc.md R150, R151, 42_cfb.md R160, R161, 43_ofb.md R170,
44_ctr.md R180). -/

namespace Sys2Proof.Machine

/-! ## Blocks of a string and back -/

theorem blocksOf_append {s : Bytes} (hs : s.length = 16) (r : Bytes) :
    blocksOf (s ++ r) = blockOfBytes s :: blocksOf r := by
  have hlen : (s ++ r).length / 16 = r.length / 16 + 1 := by
    rw [List.length_append]
    omega
  rw [blocksOf, hlen, takeBlocks, List.take_left' hs, List.drop_left' hs]
  rfl

@[simp] theorem blocksOf_bytesOfBlocks (xs : List Block) : blocksOf (bytesOfBlocks xs) = xs := by
  induction xs with
  | nil => rfl
  | cons x xs ih => rw [bytesOfBlocks_cons, blocksOf_append (bytesOfBlock_length x), blockOfBytes_bytesOfBlock, ih]

/-- A string of whole blocks is the string of its blocks (00_scope.md R11). -/
theorem bytesOfBlocks_blocksOf {s : Bytes} (hs : s.length % 16 = 0) : bytesOfBlocks (blocksOf s) = s := by
  apply List.ext_getElem
  · rw [bytesOfBlocks_length, blocksOf_length]
    omega
  intro i h₁ h₂
  have hblock : ((s.drop (16 * (i / 16))).take 16).length = 16 := by
    rw [List.length_take, List.length_drop]
    omega
  rw [bytesOfBlocks_getElem]
  refine (congrArg (blockByte · (i % 16)) (takeBlocks_getElem _ s (i / 16) (by simp; omega))).trans ?_
  rw [blockByte_blockOfBytes hblock (Nat.mod_lt _ (by decide)), List.getElem_take, List.getElem_drop]
  congr 1
  omega

/-! ## The output of a confidentiality command -/

/-- The commands of 41_cbc.md to 43_ofb.md: block chaining over whole blocks. -/
def feedbackModes : List Instr := [.cbcEnc, .cbcDec, .cfbEnc, .cfbDec, .ofb]

/-- The commands of 41_cbc.md to 44_ctr.md. -/
def confidentialityModes : List Instr := feedbackModes ++ [.ctr, .ctrC64]

theorem mem_feedbackModes {i : Instr} :
    i ∈ feedbackModes ↔ i = .cbcEnc ∨ i = .cbcDec ∨ i = .cfbEnc ∨ i = .cfbDec ∨ i = .ofb := by
  simp [feedbackModes]

theorem mem_confidentialityModes {i : Instr} :
    i ∈ confidentialityModes ↔
      (i = .cbcEnc ∨ i = .cbcDec ∨ i = .cfbEnc ∨ i = .cfbDec ∨ i = .ofb) ∨ i = .ctr ∨ i = .ctrC64 := by
  simp [confidentialityModes, mem_feedbackModes]

/-- The output blocks of a feedback mode from the IV in `W.FB`; a command of another kind has none. -/
def feedbackBlocks (i : Instr) (k : Word) (iv : Block) (xs : List Block) : List Block :=
  match i with
  | .cbcEnc => (cbcEncLoop (encryptBlock k) { Work.zero with fb := iv } xs).2
  | .cbcDec => (cbcDecLoop (decryptBlock k) { Work.zero with fb := iv } xs).2
  | .cfbEnc => (cfbEncLoop (encryptBlock k) { Work.zero with fb := iv } xs).2
  | .cfbDec => (cfbDecLoop (encryptBlock k) { Work.zero with fb := iv } xs).2
  | .ofb => (ofbLoop (encryptBlock k) { Work.zero with fb := iv } xs).2
  | .ctr | .ctrC64 | .ghash | .ghashHmem | .gcmEnc | .gcmDec | .ccmEnc | .ccmDec => []

/-- The output of a confidentiality command; a command of another kind has none. -/
def modeBytes (i : Instr) (k : Word) (iv : Block) (x : Bytes) : Bytes :=
  match i with
  | .ctr => keystreamOut (encryptBlock k) 4 (blockCount x.length) iv x
  | .ctrC64 => keystreamOut (encryptBlock k) 8 (blockCount x.length) iv x
  | i => bytesOfBlocks (feedbackBlocks i k iv (blocksOf x))

theorem modeBytes_feedback {i : Instr} (hi : i ∈ feedbackModes) (k : Word) (iv : Block) (x : Bytes) :
    modeBytes i k iv x = bytesOfBlocks (feedbackBlocks i k iv (blocksOf x)) := by
  rcases mem_feedbackModes.mp hi with rfl | rfl | rfl | rfl | rfl <;> rfl

@[simp] theorem inBytes_length (s : State) : (inBytes s).length = s.lp.len.toNat := memRead_length _ _ _

/-- What the rule of a confidentiality command writes, and that it reports no mismatch (40_engine.md R136). -/
theorem ruleOf_confidentiality {i : Instr} (hi : i ∈ confidentialityModes) (s : State) :
    (ruleOf i Config.cipherPort s.lp s.mem s.work).authFail = false ∧
      (ruleOf i Config.cipherPort s.lp s.mem s.work).writes =
        [(s.lp.outAddr.toNat, modeBytes i s.lp.keyh (memBlock s.mem s.lp.ivAddr.toNat) (inBytes s))] := by
  have hlen := inBytes_length s
  rw [(rule_work i Config.cipherPort s.lp s.mem s.work Work.zero).1,
    (rule_work i Config.cipherPort s.lp s.mem s.work Work.zero).2]
  rcases mem_confidentialityModes.mp hi with (rfl | rfl | rfl | rfl | rfl) | rfl | rfl
  case inr.inl => exact ⟨rfl, by rw [modeBytes, hlen]; rfl⟩
  case inr.inr => exact ⟨rfl, by rw [modeBytes, hlen]; rfl⟩
  all_goals exact ⟨rfl, rfl⟩

theorem writeRanges_confidentiality {i : Instr} (hi : i ∈ confidentialityModes) (lp : Latch) :
    writeRanges i lp = [outRange lp] := by
  rcases mem_confidentialityModes.mp hi with (rfl | rfl | rfl | rfl | rfl) | rfl | rfl <;> rfl

/-- A clean run of a confidentiality command finishes with its output in OUTR and memory elsewhere unchanged. -/
theorem exec_confidentiality {i : Instr} (hi : i ∈ confidentialityModes) {s : State} (h : Clean i s) :
    ∃ t, exec i s = .next t ∧ Finished s t false ∧ SameOutside [outRange s.lp] s t ∧
      memRead t.mem s.lp.outAddr.toNat s.lp.len.toNat =
        modeBytes i s.lp.keyh (memBlock s.mem s.lp.ivAddr.toNat) (inBytes s) := by
  obtain ⟨haf, hw⟩ := ruleOf_confidentiality hi s
  obtain ⟨t, ht, hfin, hmem, hout⟩ := exec_clean h haf
  have hranges := rule_writes h.running.2 haf
  have hfit := writes_fit h.running.2 hranges
  rw [writeRanges_confidentiality hi] at hout hranges
  rw [hw] at hmem hranges hfit
  have hlen : (modeBytes i s.lp.keyh (memBlock s.mem s.lp.ivAddr.toNat) (inBytes s)).length = s.lp.len.toNat := by
    simpa [outRange] using hranges
  refine ⟨t, ht, hfin, hout, ?_⟩
  rw [hmem, ← hlen]
  exact memRead_memWrite_same h.memWf _ _ (hfit _ (List.mem_singleton_self _))

theorem feedbackModes_subset {i : Instr} (hi : i ∈ feedbackModes) : i ∈ confidentialityModes :=
  List.mem_append_left _ hi

theorem feedbackBlocks_length {i : Instr} (hi : i ∈ feedbackModes) (k : Word) (iv : Block) (xs : List Block) :
    (feedbackBlocks i k iv xs).length = xs.length := by
  rcases mem_feedbackModes.mp hi with rfl | rfl | rfl | rfl | rfl <;> simp [feedbackBlocks]

/-- A feedback mode finishes with its output blocks in OUTR and memory elsewhere unchanged. -/
theorem exec_feedback {i : Instr} (hi : i ∈ feedbackModes) {s : State} (h : Clean i s) :
    ∃ t, exec i s = .next t ∧ Finished s t false ∧ SameOutside [outRange s.lp] s t ∧
      ∀ j (hj : j < (blocksOf (inBytes s)).length),
        memBlock t.mem (s.lp.outAddr.toNat + 16 * j) =
          (feedbackBlocks i s.lp.keyh (memBlock s.mem s.lp.ivAddr.toNat) (blocksOf (inBytes s)))[j]'(by
            rwa [feedbackBlocks_length hi]) := by
  obtain ⟨t, ht, hfin, hout, hbytes⟩ := exec_confidentiality (feedbackModes_subset hi) h
  refine ⟨t, ht, hfin, hout, fun j hj => ?_⟩
  rw [← blocksOf_memRead_getElem t.mem _ s.lp.len.toNat j (by simpa using hj)]
  simp only [hbytes, modeBytes_feedback hi, blocksOf_bytesOfBlocks]

/-! ## The operands of a confidentiality command -/

/-- A feedback mode runs over whole blocks (40_engine.md R123). -/
theorem Clean.len_mod {i : Instr} (hi : i ∈ feedbackModes) {s : State} (h : Clean i s) : s.lp.len.toNat % 16 = 0 := by
  have := mem_feedbackModes.mp hi
  exact Machine.len_mod h.running.2 (by tauto)

/-- The IV of a confidentiality command is the block at IV_ADDR (40_engine.md R123). -/
theorem Clean.ivBytes_eq {i : Instr} (hi : i ∈ confidentialityModes) {s : State} (h : Clean i s) :
    ivBytes s = bytesOfBlock (memBlock s.mem s.lp.ivAddr.toNat) := by
  have hlen : s.lp.ivLen.toNat = 16 := by
    have := mem_confidentialityModes.mp hi
    exact ivLen_eq h.running.2 (by tauto)
  rw [bytesOfBlock_memBlock, ivBytes, hlen]

/-- Two confidentiality commands have the same IV bytes exactly when the blocks at IV_ADDR agree. -/
theorem ivBytes_eq_iff {i j : Instr} (hi : i ∈ confidentialityModes) (hj : j ∈ confidentialityModes) {s₁ s₂ : State}
    (h₁ : Clean i s₁) (h₂ : Clean j s₂) :
    ivBytes s₂ = ivBytes s₁ ↔ memBlock s₂.mem s₂.lp.ivAddr.toNat = memBlock s₁.mem s₁.lp.ivAddr.toNat := by
  rw [h₁.ivBytes_eq hi, h₂.ivBytes_eq hj]
  exact ⟨fun h => by simpa using congrArg blockOfBytes h, congrArg bytesOfBlock⟩

/-- A block of INR that begins inside it is one of its blocks (40_engine.md R123). -/
theorem Clean.inBlock_lt {i : Instr} (hi : i ∈ feedbackModes) {s : State} (h : Clean i s) {j : Nat}
    (hj : 16 * j < s.lp.len.toNat) : j < (blocksOf (inBytes s)).length := by
  have hmod := h.len_mod hi
  rw [blocksOf_length, inBytes_length]
  omega

theorem memBlock_inBytes (s : State) (j : Nat) (hj : j < (blocksOf (inBytes s)).length) :
    memBlock s.mem (s.lp.inAddr.toNat + 16 * j) = (blocksOf (inBytes s))[j] :=
  (blocksOf_memRead_getElem _ _ _ _ hj).symm

end Sys2Proof.Machine
end

section
/-! SUPPORT. CBC: what CBC_ENC and CBC_DEC leave in OUTR, that the IV reaches every ciphertext block (41_cbc.md R150 to
R152), and the round trips of CBC, CFB, OFB and CTR (42_cfb.md R162, 43_ofb.md R171, 44_ctr.md R182). -/

namespace Sys2Proof.Machine

/-! ## The cipher port -/

@[simp] theorem decryptBlock_encryptBlock (k : Word) (x : Block) : decryptBlock k (encryptBlock k x) = x :=
  (Config.cipher k).symm_apply_apply x

theorem encryptBlock_injective (k : Word) : Function.Injective (encryptBlock k) := (Config.cipher k).injective

/-! ## CBC in memory -/

/-- Settles O16: the blocks of OUTR are those of the block loop, whose closed form is R150. -/
theorem cbcEncWritesChainedCiphertext : Obligations.CbcEncWritesChainedCiphertext := by
  intro s h
  have hi : Instr.cbcEnc ∈ feedbackModes := by decide
  obtain ⟨t, ht, hfin, hsame, hout⟩ := exec_feedback hi h
  refine ⟨t, ht, hfin, hsame, fun j hj => ?_⟩
  have hj' := h.inBlock_lt hi hj
  rw [hout j hj', memBlock_inBytes s j hj']
  refine (cbcEncLoop_getElem _ _ _ j hj').trans ?_
  cases j with
  | zero => rfl
  | succ j =>
    rw [dif_neg j.succ_ne_zero, if_neg j.succ_ne_zero, hout (j + 1 - 1) (by omega)]
    rfl

/-- Settles O17: the block loop runs over the ciphertext as read before the one write, and its closed form is R151. -/
theorem cbcDecWritesPlaintext : Obligations.CbcDecWritesPlaintext := by
  intro s h
  have hi : Instr.cbcDec ∈ feedbackModes := by decide
  obtain ⟨t, ht, hfin, hsame, hout⟩ := exec_feedback hi h
  refine ⟨t, ht, hfin, hsame, fun j hj => ?_⟩
  have hj' := h.inBlock_lt hi hj
  rw [hout j hj', memBlock_inBytes s j hj']
  refine (cbcDecLoop_getElem _ _ _ j hj').trans ?_
  cases j with
  | zero => rfl
  | succ j => rw [dif_neg j.succ_ne_zero, if_neg j.succ_ne_zero, memBlock_inBytes s (j + 1 - 1) (by omega)]

/-! ## Round trips -/

theorem cbcDecLoop_cbcEncLoop {enc dec : Block → Block} (hdec : ∀ x, dec (enc x) = x) (xs : List Block) (w w' : Work)
    (hw : w'.fb = w.fb) : (cbcDecLoop dec w' (cbcEncLoop enc w xs).2).2 = xs := by
  induction xs generalizing w w' with
  | nil => rfl
  | cons x xs ih =>
    simp only [cbcEncLoop, cbcDecLoop, hdec, hw, BitVec.xor_assoc, BitVec.xor_self, BitVec.xor_zero]
    exact congrArg _ (ih _ _ rfl)

theorem cfbDecLoop_cfbEncLoop (enc : Block → Block) (xs : List Block) (w w' : Work) (hw : w'.fb = w.fb) :
    (cfbDecLoop enc w' (cfbEncLoop enc w xs).2).2 = xs := by
  induction xs generalizing w w' with
  | nil => rfl
  | cons x xs ih =>
    simp only [cfbEncLoop, cfbDecLoop, hw, BitVec.xor_assoc, BitVec.xor_self, BitVec.xor_zero]
    exact congrArg _ (ih _ _ rfl)

theorem ofbLoop_ofbLoop (enc : Block → Block) (xs : List Block) (w w' : Work) (hw : w'.fb = w.fb) :
    (ofbLoop enc w' (ofbLoop enc w xs).2).2 = xs := by
  induction xs generalizing w w' with
  | nil => rfl
  | cons x xs ih =>
    simp only [ofbLoop, hw, BitVec.xor_assoc, BitVec.xor_self, BitVec.xor_zero]
    exact congrArg _ (ih _ _ rfl)

@[simp] theorem keystreamOut_length (enc : Block → Block) (width : Nat) (cb : Block) (x : Bytes) :
    (keystreamOut enc width (blockCount x.length) cb x).length = x.length := by
  rw [keystreamOut, keystreamXor_length, min_eq_left (blockCount_bound _)]

/-- Applying one keystream twice gives the input back (40_engine.md R144). -/
theorem keystreamOut_keystreamOut (enc : Block → Block) {width : Nat} (hw : width ≤ 16) (cb : Block) (x : Bytes) :
    keystreamOut enc width (blockCount x.length) cb (keystreamOut enc width (blockCount x.length) cb x) = x := by
  apply List.ext_getElem
  · simpa using keystreamOut_length enc width cb (keystreamOut enc width (blockCount x.length) cb x)
  intro j h₁ h₂
  simp only [keystreamOut, keystreamXor_getElem _ _ hw, BitVec.xor_assoc, BitVec.xor_self, BitVec.xor_zero]

theorem undoing_confidentiality {p : Instr × Instr} (hp : p ∈ undoing) :
    p.1 ∈ confidentialityModes ∧ p.2 ∈ confidentialityModes := by
  revert p
  decide

/-- The undoing command gives the input back from the output, for a length the command accepts. -/
theorem modeBytes_undoing {p : Instr × Instr} (hp : p ∈ undoing) (k : Word) (iv : Block) {x : Bytes}
    (hx : p.1 ∈ feedbackModes → x.length % 16 = 0) : modeBytes p.2 k iv (modeBytes p.1 k iv x) = x := by
  have hchain : ∀ ys, p.1 ∈ feedbackModes → ys = blocksOf x → bytesOfBlocks ys = x :=
    fun ys hi hys => hys ▸ bytesOfBlocks_blocksOf (hx hi)
  simp only [undoing, List.mem_cons, List.not_mem_nil, or_false] at hp
  rcases hp with rfl | rfl | rfl | rfl | rfl <;> simp only [modeBytes, blocksOf_bytesOfBlocks, feedbackBlocks]
  · exact hchain _ (by decide) (cbcDecLoop_cbcEncLoop (decryptBlock_encryptBlock k) _ _ _ rfl)
  · exact hchain _ (by decide) (cfbDecLoop_cfbEncLoop _ _ _ _ rfl)
  · exact hchain _ (by decide) (ofbLoop_ofbLoop _ _ _ _ rfl)
  · rw [keystreamOut_length, keystreamOut_keystreamOut _ (by decide)]
  · rw [keystreamOut_length, keystreamOut_keystreamOut _ (by decide)]

/-- Settles O54: OUTR holds the mode's output of the input bytes, so the buffers' places do not matter. -/
theorem confidentialityModesRoundTrip : Obligations.ConfidentialityModesRoundTrip := by
  intro p hp s₁ s₂ t₁ h₁ h₂ hkey hiv _ ht₁ hin
  obtain ⟨hi₁, hi₂⟩ := undoing_confidentiality hp
  obtain ⟨_, ht, -, -, hout₁⟩ := exec_confidentiality hi₁ h₁
  obtain rfl := Host.Outcome.next.inj (ht₁.symm.trans ht)
  obtain ⟨t₂, ht₂, hfin, -, hout₂⟩ := exec_confidentiality hi₂ h₂
  refine ⟨t₂, ht₂, hfin, ?_⟩
  rw [hout₂, hin, hout₁, hkey, (ivBytes_eq_iff hi₁ hi₂ h₁ h₂).mp hiv]
  exact modeBytes_undoing hp _ _ fun hi => by simpa using h₁.len_mod hi

/-! ## The IV of CBC -/

/-- A ciphertext block depends on the chaining value injectively (41_cbc.md R150). -/
theorem encryptBlock_xor_ne_iff (k : Word) (p x y : Block) :
    encryptBlock k (p ^^^ x) ≠ encryptBlock k (p ^^^ y) ↔ x ≠ y := by
  rw [(encryptBlock_injective k).ne_iff, Ne, BitVec.xor_right_inj]

/-- Settles O57, by induction on the block: E is injective, so a difference in the chaining value reaches the next
block. -/
theorem cbcIvChangesEveryBlock : Obligations.CbcIvChangesEveryBlock := by
  intro s₁ s₂ t₁ t₂ h₁ h₂ hkey hlen hin hiv ht₁ ht₂ j hj
  obtain ⟨_, ht, -, -, hout₁⟩ := cbcEncWritesChainedCiphertext s₁ h₁
  obtain rfl := Host.Outcome.next.inj (ht₁.symm.trans ht)
  obtain ⟨_, ht, -, -, hout₂⟩ := cbcEncWritesChainedCiphertext s₂ h₂
  obtain rfl := Host.Outcome.next.inj (ht₂.symm.trans ht)
  have hi : Instr.cbcEnc ∈ feedbackModes := by decide
  have hic := feedbackModes_subset hi
  rw [Ne, ivBytes_eq_iff hic hic h₁ h₂] at hiv
  have hplain : ∀ j, 16 * j < s₁.lp.len.toNat →
      memBlock s₂.mem (s₂.lp.inAddr.toNat + 16 * j) = memBlock s₁.mem (s₁.lp.inAddr.toNat + 16 * j) := fun j hj => by
    have hj' := h₁.inBlock_lt hi hj
    rw [memBlock_inBytes s₁ j hj', memBlock_inBytes s₂ j (by rwa [hin])]
    simp only [hin]
  induction j with
  | zero =>
    rw [hout₁ 0 hj, hout₂ 0 (by rwa [hlen]), hkey, hplain 0 hj, encryptBlock_xor_ne_iff]
    simpa using hiv
  | succ j ih =>
    rw [hout₁ _ hj, hout₂ _ (by rwa [hlen]), hkey, hplain _ hj, encryptBlock_xor_ne_iff]
    simpa using ih (by omega)

end Sys2Proof.Machine
end

section
/-! SUPPORT. CFB: what CFB_ENC and CFB_DEC leave in OUTR, the feedback taken from the ciphertext on either side
(42_cfb.md R160, R161). -/

namespace Sys2Proof.Machine

/-- A feedback mode finishes with block `j` of its output at place `j` of OUTR, and block `j` of its input is the one that
stood at place `j` of INR. -/
theorem exec_feedback_blocks {i : Instr} (hi : i ∈ feedbackModes) {s : State} (h : Clean i s) :
    ∃ t, exec i s = .next t ∧ Finished s t false ∧ SameOutside [outRange s.lp] s t ∧
      ∀ j, 16 * j < s.lp.len.toNat → ∃ hj : j < (blocksOf (inBytes s)).length,
        memBlock t.mem (s.lp.outAddr.toNat + 16 * j) =
          (feedbackBlocks i s.lp.keyh (memBlock s.mem s.lp.ivAddr.toNat) (blocksOf (inBytes s)))[j]'(by
            rwa [feedbackBlocks_length hi]) ∧
        memBlock s.mem (s.lp.inAddr.toNat + 16 * j) = (blocksOf (inBytes s))[j] := by
  obtain ⟨t, ht, hfin, hsame, hout⟩ := exec_feedback hi h
  exact ⟨t, ht, hfin, hsame, fun j hj =>
    have hj' := h.inBlock_lt hi hj
    ⟨hj', hout j hj', memBlock_inBytes s j hj'⟩⟩

/-- Settles O18: the blocks of OUTR are those of the block loop, and the feedback of its closed form R160 is the block of
OUTR before. -/
theorem cfbEncWritesFeedbackCiphertext : Obligations.CfbEncWritesFeedbackCiphertext := by
  intro s h
  obtain ⟨t, ht, hfin, hsame, hblock⟩ := exec_feedback_blocks (by decide) h
  refine ⟨t, ht, hfin, hsame, fun j hj => ?_⟩
  obtain ⟨hj', hout, hin⟩ := hblock j hj
  rw [hout, hin]
  refine (cfbEncLoop_getElem _ _ _ j hj').trans ?_
  cases j with
  | zero => rfl
  | succ j =>
    obtain ⟨_, hprev, -⟩ := hblock j (by omega)
    exact congrArg (_ ^^^ encryptBlock s.lp.keyh ·) hprev.symm

/-- Settles O19: the block loop runs over the ciphertext as read before the one write, so the feedback of its closed form
R161 is a block of INR, also where OUTR is INR. -/
theorem cfbDecWritesPlaintext : Obligations.CfbDecWritesPlaintext := by
  intro s h
  obtain ⟨t, ht, hfin, hsame, hblock⟩ := exec_feedback_blocks (by decide) h
  refine ⟨t, ht, hfin, hsame, fun j hj => ?_⟩
  obtain ⟨hj', hout, hin⟩ := hblock j hj
  rw [hout, hin]
  refine (cfbDecLoop_getElem _ _ _ j hj').trans ?_
  cases j with
  | zero => rfl
  | succ j =>
    obtain ⟨_, -, hprev⟩ := hblock j (by omega)
    exact congrArg (_ ^^^ encryptBlock s.lp.keyh ·) hprev.symm

end Sys2Proof.Machine
end

section
/-! SUPPORT. OFB: what it leaves in OUTR (43_ofb.md R170, R171). -/

namespace Sys2Proof.Machine

/-- Settles O20: the blocks of OUTR are those of the block loop, whose keystream starts from the IV in `W.FB` and never
meets the data, so its closed form is an iterate of E. -/
theorem ofbWritesIteratedKeystream : Obligations.OfbWritesIteratedKeystream := by
  intro s h
  obtain ⟨t, ht, hfin, hsame, hblock⟩ := exec_feedback_blocks (by decide) h
  refine ⟨t, ht, hfin, hsame, fun j hj => ?_⟩
  obtain ⟨hj', hout, hin⟩ := hblock j hj
  rw [hout, hin]
  exact ofbLoop_getElem _ _ _ j hj'

end Sys2Proof.Machine
end

section
/-! SUPPORT. CTR: its output as the input xored with one keystream string, what it leaves in OUTR, and what two commands
under one key handle and IV show (44_ctr.md R180 to R182, 42_cfb.md R162). -/

namespace Sys2Proof.Machine

/-! ## The keystream as a byte string -/

/-- The first `n` bytes of `E(k, inc_w(CB, 0)) || E(k, inc_w(CB, 1)) || …` (40_engine.md R144). -/
def keystreamBytes (k : Word) (width : Nat) (cb : Block) (n : Nat) : Bytes :=
  (List.range n).map (keystreamByte k width cb)

@[simp] theorem keystreamBytes_length (k : Word) (width : Nat) (cb : Block) (n : Nat) :
    (keystreamBytes k width cb n).length = n := by simp [keystreamBytes]

theorem keystreamBytes_getElem (k : Word) (width : Nat) (cb : Block) (n j : Nat)
    (h : j < (keystreamBytes k width cb n).length) :
    (keystreamBytes k width cb n)[j] = keystreamByte k width cb j := by simp [keystreamBytes]

/-- The keystream loop xors the input with the keystream string, whatever the data (40_engine.md R144). -/
theorem keystreamOut_eq_xorBytes (k : Word) {width : Nat} (hw : width ≤ 16) (cb : Block) (x : Bytes) :
    keystreamOut (encryptBlock k) width (blockCount x.length) cb x =
      xorBytes x (keystreamBytes k width cb x.length) := by
  apply List.ext_getElem
  · rw [keystreamOut_length, xorBytes_length, keystreamBytes_length, min_self]
  intro j h₁ h₂
  rw [xorBytes_getElem, keystreamBytes_getElem]
  exact keystreamXor_getElem _ _ hw _ _ _ j h₁

/-- A string xored into both operands drops out of their xor (00_scope.md R11). -/
theorem xorBytes_xorBytes_cancel {x y ks : Bytes} (hx : x.length ≤ ks.length) (hy : y.length ≤ ks.length) :
    xorBytes (xorBytes x ks) (xorBytes y ks) = xorBytes x y := by
  apply List.ext_getElem
  · simp only [xorBytes_length, min_eq_left hx, min_eq_left hy]
  intro j h₁ h₂
  have hcancel (a b c : Byte) : (a ^^^ c) ^^^ (b ^^^ c) = a ^^^ b := by
    rw [BitVec.xor_comm b, BitVec.xor_assoc, ← BitVec.xor_assoc c, BitVec.xor_self, BitVec.zero_xor]
  simp only [xorBytes_getElem, hcancel]

/-! ## The counter modes -/

/-- The commands of 44_ctr.md, each with the width of its counter in bytes (R180, R181). -/
def counterModes : List (Instr × Nat) := [(.ctr, 4), (.ctrC64, 8)]

theorem counterModes_confidentiality {p : Instr × Nat} (hp : p ∈ counterModes) : p.1 ∈ confidentialityModes := by
  revert p
  decide

theorem modeBytes_counter {p : Instr × Nat} (hp : p ∈ counterModes) (k : Word) (iv : Block) (x : Bytes) :
    modeBytes p.1 k iv x = xorBytes x (keystreamBytes k p.2 iv x.length) := by
  simp only [counterModes, List.mem_cons, List.not_mem_nil, or_false] at hp
  rcases hp with rfl | rfl
  · exact keystreamOut_eq_xorBytes k (by decide) iv x
  · exact keystreamOut_eq_xorBytes k (by decide) iv x

/-- A clean run of a counter mode finishes with its input xored with the keystream in OUTR and memory elsewhere
unchanged. -/
theorem exec_counter {p : Instr × Nat} (hp : p ∈ counterModes) {s : State} (h : Clean p.1 s) :
    ∃ t, exec p.1 s = .next t ∧ Finished s t false ∧ SameOutside [outRange s.lp] s t ∧
      memRead t.mem s.lp.outAddr.toNat s.lp.len.toNat =
        xorBytes (inBytes s) (keystreamBytes s.lp.keyh p.2 (memBlock s.mem s.lp.ivAddr.toNat) s.lp.len.toNat) := by
  obtain ⟨t, ht, hfin, hsame, hout⟩ := exec_confidentiality (counterModes_confidentiality hp) h
  exact ⟨t, ht, hfin, hsame, by rw [hout, modeBytes_counter hp, inBytes_length]⟩

/-- Settles O21: OUTR holds the input xored with the keystream string, read off byte by byte. -/
theorem ctrWritesCounterKeystream : Obligations.CtrWritesCounterKeystream := by
  intro p hp s h
  obtain ⟨t, ht, hfin, hsame, hout⟩ := exec_counter hp h
  refine ⟨t, ht, hfin, hsame, fun j hj => ?_⟩
  have hread (m : Mem) (a : Nat) : readByte m (a + j) = (memRead m a s.lp.len.toNat)[j]'(by simpa using hj) :=
    (memRead_getElem _ _ _ _ _).symm
  simp only [hread, hout, xorBytes_getElem, keystreamBytes_getElem, inBytes]

/-! ## One key handle and IV, one keystream -/

/-- Two runs of a counter mode with one key handle, IV and length give outputs whose xor is the xor of their inputs
(44_ctr.md R182 item 2). -/
theorem counter_outputs_xor {p : Instr × Nat} (hp : p ∈ counterModes) {s₁ s₂ t₁ t₂ : State} (h₁ : Clean p.1 s₁)
    (h₂ : Clean p.1 s₂) (hkey : s₂.lp.keyh = s₁.lp.keyh) (hiv : ivBytes s₂ = ivBytes s₁) (hlen : s₂.lp.len = s₁.lp.len)
    (ht₁ : exec p.1 s₁ = .next t₁) (ht₂ : exec p.1 s₂ = .next t₂) :
    xorBytes (memRead t₁.mem s₁.lp.outAddr.toNat s₁.lp.len.toNat) (memRead t₂.mem s₂.lp.outAddr.toNat s₂.lp.len.toNat) =
      xorBytes (inBytes s₁) (inBytes s₂) := by
  have hi := counterModes_confidentiality hp
  obtain ⟨_, ht, -, -, hout₁⟩ := exec_counter hp h₁
  obtain rfl := Host.Outcome.next.inj (ht₁.symm.trans ht)
  obtain ⟨_, ht, -, -, hout₂⟩ := exec_counter hp h₂
  obtain rfl := Host.Outcome.next.inj (ht₂.symm.trans ht)
  rw [hout₁, hout₂, hkey, (ivBytes_eq_iff hi hi h₁ h₂).mp hiv, hlen]
  exact xorBytes_xorBytes_cancel (by simp) (by simp [hlen])

/-- The first output block of CFB_ENC and of OFB is the first input block xor `E(k, IV)`, so under one key handle and IV
it is the same for the same first input block (42_cfb.md R162 item 2). -/
theorem cfbEnc_ofb_firstBlock {s₁ s₂ t₁ t₂ : State} (h₁ : Clean .cfbEnc s₁) (h₂ : Clean .ofb s₂)
    (hkey : s₂.lp.keyh = s₁.lp.keyh) (hiv : ivBytes s₂ = ivBytes s₁) (hlen₁ : 16 ≤ s₁.lp.len.toNat)
    (hlen₂ : 16 ≤ s₂.lp.len.toNat) (hin : memBlock s₂.mem s₂.lp.inAddr.toNat = memBlock s₁.mem s₁.lp.inAddr.toNat)
    (ht₁ : exec .cfbEnc s₁ = .next t₁) (ht₂ : exec .ofb s₂ = .next t₂) :
    memBlock t₂.mem s₂.lp.outAddr.toNat = memBlock t₁.mem s₁.lp.outAddr.toNat := by
  obtain ⟨_, ht, -, -, hcfb⟩ := cfbEncWritesFeedbackCiphertext s₁ h₁
  obtain rfl := Host.Outcome.next.inj (ht₁.symm.trans ht)
  obtain ⟨_, ht, -, -, hofb⟩ := ofbWritesIteratedKeystream s₂ h₂
  obtain rfl := Host.Outcome.next.inj (ht₂.symm.trans ht)
  have hivBlock := (ivBytes_eq_iff (by decide) (by decide) h₁ h₂).mp hiv
  calc memBlock t₂.mem s₂.lp.outAddr.toNat
      = memBlock s₂.mem s₂.lp.inAddr.toNat ^^^ encryptBlock s₂.lp.keyh (memBlock s₂.mem s₂.lp.ivAddr.toNat) :=
        hofb 0 (by omega)
    _ = memBlock s₁.mem s₁.lp.inAddr.toNat ^^^ encryptBlock s₁.lp.keyh (memBlock s₁.mem s₁.lp.ivAddr.toNat) := by
        rw [hin, hkey, hivBlock]
    _ = memBlock t₁.mem s₁.lp.outAddr.toNat := (hcfb 0 (by omega)).symm

/-- Settles O58: the keystream depends on the key handle and the IV alone, so it drops out of the xor of two CTR outputs;
and the first keystream block of CFB_ENC and OFB is `E(k, IV)` in both. -/
theorem sameIvGivesSameKeystream : Obligations.SameIvGivesSameKeystream := by
  refine ⟨fun i hi s₁ s₂ t₁ t₂ h₁ h₂ hkey hiv hlen ht₁ ht₂ => ?_, fun _ _ _ _ => cfbEnc_ofb_firstBlock⟩
  obtain ⟨p, hp, rfl⟩ : ∃ p ∈ counterModes, p.1 = i := List.mem_map.mp hi
  exact counter_outputs_xor hp h₁ h₂ hkey hiv hlen ht₁ ht₂

end Sys2Proof.Machine
end

section
/-! SUPPORT. The laws of multiplication in GF(2^128) (45_ghash.md R190 to R192): the loop of `gfmul` as a sum of one term
per coefficient, every block as a sum of powers of `x`, and the field laws by induction over such sums. -/

namespace Sys2Proof.Machine

/-! ## Exclusive-or -/

theorem block_xor_xor_xor_comm (a b c d : Block) : (a ^^^ b) ^^^ (c ^^^ d) = (a ^^^ c) ^^^ (b ^^^ d) := by ac_rfl

theorem block_xor_right_comm (a b c : Block) : (a ^^^ b) ^^^ c = (a ^^^ c) ^^^ b := by ac_rfl

/-! ## Coefficients (R190) -/

@[simp] theorem gfCoeff_zero (i : Nat) : gfCoeff 0#128 i = false := by simp [gfCoeff]

@[simp] theorem gfCoeff_xor (x y : Block) (i : Nat) : gfCoeff (x ^^^ y) i = (gfCoeff x i ^^ gfCoeff y i) := by
  simp [gfCoeff]

@[simp] theorem gfCoeff_shiftRight_zero (x : Block) : gfCoeff (x >>> 1) 0 = false := by simp [gfCoeff]

theorem gfCoeff_shiftRight_succ (x : Block) {i : Nat} (hi : i + 1 < 128) :
    gfCoeff (x >>> 1) (i + 1) = gfCoeff x i := by simp [gfCoeff, hi]

theorem gfCoeff_gfOne {i : Nat} (hi : i < 128) : gfCoeff gfOne i = decide (i = 0) := by
  revert i
  decide

/-- Blocks with the same coefficients are equal. -/
theorem gf_ext {x y : Block} (h : ∀ i, i < 128 → gfCoeff x i = gfCoeff y i) : x = y := BitVec.eq_of_getMsbD_eq h

/-! ## Multiplication by `x` (R191) -/

@[simp] theorem gfMulX_zero : gfMulX 0#128 = 0#128 := by decide

theorem gfMulX_of_coeff_false {v : Block} (h : gfCoeff v 127 = false) : gfMulX v = v >>> 1 := by simp [gfMulX, h]

theorem gfMulX_of_coeff_true {v : Block} (h : gfCoeff v 127 = true) : gfMulX v = v >>> 1 ^^^ gfReduction := by
  simp [gfMulX, h]

theorem gfMulX_xor (x y : Block) : gfMulX (x ^^^ y) = gfMulX x ^^^ gfMulX y := by
  have hshift : (x ^^^ y) >>> 1 = x >>> 1 ^^^ y >>> 1 := BitVec.ushiftRight_xor_distrib x y 1
  cases hx : gfCoeff x 127 <;> cases hy : gfCoeff y 127 <;>
    simp only [gfMulX, gfCoeff_xor, hx, hy, hshift, Bool.xor_self, Bool.xor_true, Bool.xor_false, Bool.not_false,
      Bool.false_eq_true, if_true, if_false]
  case true.true => rw [block_xor_xor_xor_comm, BitVec.xor_self, BitVec.xor_zero]
  case true.false => exact block_xor_right_comm _ _ _
  case false.true => exact BitVec.xor_assoc _ _ _

@[simp] theorem gfMulX_iterate_zero (n : Nat) : gfMulX^[n] 0#128 = 0#128 := Function.iterate_fixed gfMulX_zero n

theorem gfMulX_iterate_xor (n : Nat) (x y : Block) : gfMulX^[n] (x ^^^ y) = gfMulX^[n] x ^^^ gfMulX^[n] y :=
  Function.Semiconj₂.iterate gfMulX_xor n x y

/-- Below degree 128 the powers of `x` need no reduction. -/
theorem gfCoeff_gfMulX_iterate_gfOne {n i : Nat} (hn : n < 128) (hi : i < 128) :
    gfCoeff (gfMulX^[n] gfOne) i = decide (i = n) := by
  induction n generalizing i with
  | zero => exact gfCoeff_gfOne hi
  | succ n ih =>
    have htop : gfCoeff (gfMulX^[n] gfOne) 127 = false := by
      rw [ih (by omega) (by decide)]
      exact decide_eq_false (by omega)
    rw [Function.iterate_succ_apply', gfMulX_of_coeff_false htop]
    cases i with
    | zero => simp
    | succ i => simp [gfCoeff_shiftRight_succ _ hi, ih (by omega) (Nat.lt_of_succ_lt hi)]

/-- `x^128 = x^7 + x^2 + x + 1` modulo `P` (R191). -/
theorem gfMulX_iterate_128_gfOne : gfMulX^[128] gfOne = gfReduction := by decide +kernel

/-! ## The product as a sum -/

/-- `X_i * x^i • Y`, the term of `X • Y` for the coefficient of `x^i`. -/
def gfTerm (x : Block) (i : Nat) (y : Block) : Block := if gfCoeff x i then gfMulX^[i] y else 0#128

/-- The sum of the first `n` terms of `X • Y`. -/
def gfSum (x : Block) : Nat → Block → Block
  | 0, _ => 0#128
  | n + 1, y => gfSum x n y ^^^ gfTerm x n y

theorem gfMulLoop_eq_gfSum (x y : Block) (n i : Nat) :
    gfMulLoop x n i (gfSum x i y) (gfMulX^[i] y) = gfSum x (i + n) y := by
  induction n generalizing i with
  | zero => rfl
  | succ n ih =>
    have hsum : (if gfCoeff x i then gfSum x i y ^^^ gfMulX^[i] y else gfSum x i y) = gfSum x (i + 1) y := by
      cases h : gfCoeff x i <;> simp [gfSum, gfTerm, h]
    rw [gfMulLoop, hsum, ← Function.iterate_succ_apply' gfMulX, ih, Nat.add_right_comm, Nat.add_assoc]

/-- The loop of `gfmul` adds up one term per coefficient (R191). -/
theorem gfMul_eq_gfSum (x y : Block) : gfMul x y = gfSum x 128 y := gfMulLoop_eq_gfSum x y 128 0

/-! ### The factor on the right -/

theorem gfTerm_zero_right (x : Block) (i : Nat) : gfTerm x i 0#128 = 0#128 := by simp [gfTerm]

theorem gfTerm_xor_right (x y z : Block) (i : Nat) : gfTerm x i (y ^^^ z) = gfTerm x i y ^^^ gfTerm x i z := by
  cases h : gfCoeff x i <;> simp [gfTerm, h, gfMulX_iterate_xor]

theorem gfTerm_gfMulX_right (x y : Block) (i : Nat) : gfTerm x i (gfMulX y) = gfMulX (gfTerm x i y) := by
  have hcomm := (Function.Commute.refl gfMulX).iterate_left i y
  cases h : gfCoeff x i <;> simp [gfTerm, h, hcomm]

theorem gfSum_zero_right (x : Block) (n : Nat) : gfSum x n 0#128 = 0#128 := by
  induction n with
  | zero => rfl
  | succ n ih => simp [gfSum, ih, gfTerm_zero_right]

theorem gfSum_xor_right (x y z : Block) (n : Nat) : gfSum x n (y ^^^ z) = gfSum x n y ^^^ gfSum x n z := by
  induction n with
  | zero => simp [gfSum]
  | succ n ih => rw [gfSum, ih, gfTerm_xor_right, gfSum, gfSum, block_xor_xor_xor_comm]

theorem gfSum_gfMulX_right (x y : Block) (n : Nat) : gfSum x n (gfMulX y) = gfMulX (gfSum x n y) := by
  induction n with
  | zero => simp [gfSum]
  | succ n ih => rw [gfSum, ih, gfTerm_gfMulX_right, gfSum, gfMulX_xor]

/-- The sum of the first `n` terms of `X • 1` keeps the first `n` coefficients of `X` and no other. -/
theorem gfCoeff_gfSum_gfOne (x : Block) {n i : Nat} (hn : n ≤ 128) (hi : i < 128) :
    gfCoeff (gfSum x n gfOne) i = (decide (i < n) && gfCoeff x i) := by
  induction n with
  | zero => simp [gfSum]
  | succ n ih =>
    have hterm : gfCoeff (gfTerm x n gfOne) i = (decide (i = n) && gfCoeff x i) := by
      by_cases hin : i = n
      · subst hin
        cases h : gfCoeff x i <;> simp [gfTerm, h, gfCoeff_gfMulX_iterate_gfOne hi hi]
      · cases h : gfCoeff x n <;> simp [gfTerm, h, hin, gfCoeff_gfMulX_iterate_gfOne hn hi]
    rw [gfSum, gfCoeff_xor, ih (by omega), hterm]
    rcases lt_trichotomy i n with h | h | h
    · simp [h, h.ne, Nat.lt_succ_of_lt h]
    · simp [h]
    · simp [h.ne', h.not_gt, show ¬ i < n + 1 by omega]

@[simp] theorem gfMul_zero (x : Block) : gfMul x 0#128 = 0#128 := by rw [gfMul_eq_gfSum, gfSum_zero_right]

theorem gfMul_xor (x y z : Block) : gfMul x (y ^^^ z) = gfMul x y ^^^ gfMul x z := by
  simp only [gfMul_eq_gfSum, gfSum_xor_right]

theorem gfMul_gfMulX (x y : Block) : gfMul x (gfMulX y) = gfMulX (gfMul x y) := by
  simp only [gfMul_eq_gfSum, gfSum_gfMulX_right]

@[simp] theorem gfMul_gfOne (x : Block) : gfMul x gfOne = x := by
  refine gf_ext fun i hi => ?_
  rw [gfMul_eq_gfSum, gfCoeff_gfSum_gfOne x le_rfl hi]
  simp [hi]

/-! ### Every block is a sum of powers of `x` -/

theorem gfSum_induction {p : Block → Prop} (zero : p 0#128) (xor : ∀ x y, p x → p y → p (x ^^^ y))
    (mulX : ∀ x, p x → p (gfMulX x)) (x : Block) {y : Block} (hy : p y) (n : Nat) : p (gfSum x n y) := by
  induction n with
  | zero => exact zero
  | succ n ih =>
    refine xor _ _ ih ?_
    cases h : gfCoeff x n
    · simpa [gfTerm, h] using zero
    · simpa [gfTerm, h] using Function.Iterate.rec p hy mulX n

/-- What holds of 0 and 1 and is kept by xor and by multiplication by `x` holds of every block (R190). -/
theorem gf_induction {p : Block → Prop} (x : Block) (zero : p 0#128) (one : p gfOne)
    (xor : ∀ x y, p x → p y → p (x ^^^ y)) (mulX : ∀ x, p x → p (gfMulX x)) : p x := by
  rw [← gfMul_gfOne x, gfMul_eq_gfSum]
  exact gfSum_induction zero xor mulX x one 128

/-! ### The factor on the left -/

theorem gfTerm_xor_left (x y z : Block) (i : Nat) : gfTerm (x ^^^ y) i z = gfTerm x i z ^^^ gfTerm y i z := by
  cases hx : gfCoeff x i <;> cases hy : gfCoeff y i <;> simp [gfTerm, hx, hy]

theorem gfSum_zero_left (y : Block) (n : Nat) : gfSum 0#128 n y = 0#128 := by
  induction n with
  | zero => rfl
  | succ n ih => simp [gfSum, ih, gfTerm]

theorem gfSum_xor_left (x y z : Block) (n : Nat) : gfSum (x ^^^ y) n z = gfSum x n z ^^^ gfSum y n z := by
  induction n with
  | zero => simp [gfSum]
  | succ n ih => rw [gfSum, ih, gfTerm_xor_left, gfSum, gfSum, block_xor_xor_xor_comm]

/-- Shifting the coefficients of the left factor multiplies each term by `x`; the last one drops out. -/
theorem gfSum_shiftRight_left (x y : Block) {n : Nat} (hn : n < 128) :
    gfSum (x >>> 1) (n + 1) y = gfSum x n (gfMulX y) := by
  induction n with
  | zero => simp [gfSum, gfTerm]
  | succ n ih =>
    have hterm : gfTerm (x >>> 1) (n + 1) y = gfTerm x n (gfMulX y) := by
      simp only [gfTerm, gfCoeff_shiftRight_succ x hn, Function.iterate_succ_apply]
    rw [gfSum, ih (by omega), hterm, gfSum]

@[simp] theorem zero_gfMul (y : Block) : gfMul 0#128 y = 0#128 := by rw [gfMul_eq_gfSum, gfSum_zero_left]

theorem xor_gfMul (x y z : Block) : gfMul (x ^^^ y) z = gfMul x z ^^^ gfMul y z := by
  simp only [gfMul_eq_gfSum, gfSum_xor_left]

@[simp] theorem gfOne_gfMul (y : Block) : gfMul gfOne y = y := by
  induction y using gf_induction with
  | zero => simp
  | one => simp
  | xor y z hy hz => rw [gfMul_xor, hy, hz]
  | mulX y hy => rw [gfMul_gfMulX, hy]

theorem gfReduction_gfMul (y : Block) : gfMul gfReduction y = gfMulX^[128] y := by
  have hcomm (y : Block) := (Function.Commute.refl gfMulX).iterate_left 128 y
  induction y using gf_induction with
  | zero => rw [gfMul_zero, gfMulX_iterate_zero]
  | one => rw [gfMul_gfOne, gfMulX_iterate_128_gfOne]
  | xor y z hy hz => rw [gfMul_xor, hy, hz, gfMulX_iterate_xor]
  | mulX y hy => rw [gfMul_gfMulX, hy, hcomm]

/-- Multiplying the left factor by `x` multiplies the product by `x`: the coefficient that the shift drops comes back as
the product with `R`. -/
theorem gfMulX_gfMul (x y : Block) : gfMul (gfMulX x) y = gfMulX (gfMul x y) := by
  have hshift : gfMul (x >>> 1) y = gfSum x 127 (gfMulX y) := by
    rw [gfMul_eq_gfSum, gfSum_shiftRight_left x y (by decide)]
  have hsplit : gfMulX (gfMul x y) = gfSum x 127 (gfMulX y) ^^^ gfTerm x 127 (gfMulX y) := by
    rw [← gfMul_gfMulX, gfMul_eq_gfSum, gfSum]
  cases h : gfCoeff x 127 with
  | false => simp [gfMulX_of_coeff_false h, hshift, hsplit, gfTerm, h]
  | true =>
    rw [gfMulX_of_coeff_true h, xor_gfMul, hshift, hsplit, gfReduction_gfMul, gfTerm, if_pos h,
      ← Function.iterate_succ_apply]

/-! ## The field laws (R192) -/

theorem gfMul_comm (x y : Block) : gfMul x y = gfMul y x := by
  induction x using gf_induction with
  | zero => simp
  | one => simp
  | xor x z hx hz => rw [xor_gfMul, gfMul_xor, hx, hz]
  | mulX x hx => rw [gfMulX_gfMul, gfMul_gfMulX, hx]

theorem gfMul_assoc (x y z : Block) : gfMul (gfMul x y) z = gfMul x (gfMul y z) := by
  induction x using gf_induction with
  | zero => simp
  | one => simp
  | xor x w hx hw => rw [xor_gfMul, xor_gfMul, xor_gfMul, hx, hw]
  | mulX x hx => rw [gfMulX_gfMul, gfMulX_gfMul, gfMulX_gfMul, hx]

/-- The block `40 00 … 00` is `x` (R190), and multiplying by it is R191's step. -/
theorem gfMulX_gfOne_gfMul (y : Block) : gfMul (gfMulX gfOne) y = gfMulX y := by rw [gfMulX_gfMul, gfOne_gfMul]

/-- Settles O48: the laws hold of 0 and 1 and are kept by xor and by multiplication by `x`, which reach every block; bit 0
of a block is its coefficient of `x^127`. -/
theorem fieldMultiplicationLaws : Obligations.FieldMultiplicationLaws := by
  have hexample : gfMul 0x0388dace60b6a392f328c2b971b2fe78 0x66e94bd4ef8a2c3b884cfa59ca342b2e =
      0x5e2ec746917062882c85b0685353deb7 := by decide +kernel
  have hx : gfMulX gfOne = 0x40000000000000000000000000000000 := by decide
  have hmulX := hx ▸ gfMulX_gfOne_gfMul
  exact ⟨gfMul_comm, gfMul_assoc, gfMul_xor, gfOne_gfMul, zero_gfMul, hmulX, hmulX _, hexample⟩

end Sys2Proof.Machine
end

section
/-! SUPPORT. GHASH: its polynomial form and its linearity (45_ghash.md R195), and what GHASH and GHASH.HMEM leave in
OUTR (R193, R194). -/

namespace Sys2Proof.Machine

/-! ## The polynomial form (R195) -/

/-- The Horner fold from any accumulator, which counts as a block before the first. -/
theorem foldl_gfMul_eq_hornerSum (h acc : Block) (xs : List Block) :
    xs.foldl (fun acc x => gfMul (acc ^^^ x) h) acc = gfMul acc (gfPow h xs.length) ^^^ hornerSum h xs := by
  induction xs generalizing acc with
  | nil => simp [gfPow, hornerSum]
  | cons x xs ih =>
    have hpow (y : Block) : gfMul (gfMul y h) (gfPow h xs.length) = gfMul y (gfPow h (xs.length + 1)) := by
      rw [gfMul_assoc, gfMul_comm h, gfPow]
    rw [List.foldl_cons, ih, hpow, xor_gfMul, BitVec.xor_assoc, hornerSum, List.length_cons]

theorem ghashBlocks_eq_hornerSum (h : Block) (xs : List Block) : ghashBlocks h xs = hornerSum h xs := by
  simp [ghashBlocks, foldl_gfMul_eq_hornerSum]

/-! ## Linearity (R195) -/

theorem hornerSum_zipWith_xor (h : Block) {xs ys : List Block} (hlen : xs.length = ys.length) :
    hornerSum h (List.zipWith (· ^^^ ·) xs ys) = hornerSum h xs ^^^ hornerSum h ys := by
  match xs, ys with
  | [], [] => simp [hornerSum]
  | x :: xs, y :: ys =>
    have hlen : xs.length = ys.length := Nat.succ.inj hlen
    have hzip : (List.zipWith (· ^^^ ·) xs ys).length = xs.length := by simp [hlen]
    rw [List.zipWith_cons_cons, hornerSum, hornerSum_zipWith_xor h hlen, hzip, xor_gfMul, hornerSum, hornerSum, hlen,
      block_xor_xor_xor_comm]

theorem blockOfBytes_xorBytes {a b : Bytes} (ha : a.length = 16) (hb : b.length = 16) :
    blockOfBytes (xorBytes a b) = blockOfBytes a ^^^ blockOfBytes b := by
  have hab : (xorBytes a b).length = 16 := by simp [ha, hb]
  refine block_ext fun i hi => ?_
  rw [blockByte_xor, blockByte_blockOfBytes hab hi, blockByte_blockOfBytes ha hi, blockByte_blockOfBytes hb hi,
    xorBytes_getElem]

theorem takeBlocks_xorBytes {n : Nat} {a b : Bytes} (ha : 16 * n ≤ a.length) (hb : 16 * n ≤ b.length) :
    takeBlocks n (xorBytes a b) = List.zipWith (· ^^^ ·) (takeBlocks n a) (takeBlocks n b) := by
  induction n generalizing a b with
  | zero => rfl
  | succ n ih =>
    have htake : (xorBytes a b).take 16 = xorBytes (a.take 16) (b.take 16) := List.take_zipWith
    have hdrop : (xorBytes a b).drop 16 = xorBytes (a.drop 16) (b.drop 16) := List.drop_zipWith
    rw [takeBlocks, htake, hdrop, blockOfBytes_xorBytes (by simp; omega) (by simp; omega),
      ih (by simp; omega) (by simp; omega)]
    rfl

/-- The blocks of a xor are the xors of the blocks (00_scope.md R11). -/
theorem blocksOf_xorBytes {a b : Bytes} (hab : a.length = b.length) :
    blocksOf (xorBytes a b) = List.zipWith (· ^^^ ·) (blocksOf a) (blocksOf b) := by
  have hlen : (xorBytes a b).length = a.length := by simp [hab]
  rw [blocksOf, hlen, takeBlocks_xorBytes (by omega) (by omega), blocksOf, blocksOf, hab]

/-- Settles O49: GHASH is a polynomial in H, and each of its terms is linear in its block. -/
theorem ghashIsLinearAndPolynomial : Obligations.GhashIsLinearAndPolynomial := by
  refine ⟨fun h x y hxy _ => ?_, ghashBlocks_eq_hornerSum⟩
  simp only [ghashBlocks_eq_hornerSum]
  rw [blocksOf_xorBytes hxy, hornerSum_zipWith_xor h (by simp [hxy])]

/-! ## The commands (R193, R194) -/

/-- The subkey of a GHASH command: the encryption of the zero block, or the block at IV_ADDR (R194). -/
def ghashKey (i : Instr) (s : State) : Block :=
  if i = .ghash then encryptBlock s.lp.keyh 0 else memBlock s.mem s.lp.ivAddr.toNat

theorem writeRanges_ghash {i : Instr} (hi : i ∈ [Instr.ghash, .ghashHmem]) (lp : Latch) :
    writeRanges i lp = [outBlockRange lp] := by
  simp only [List.mem_cons, List.not_mem_nil, or_false] at hi
  rcases hi with rfl | rfl <;> rfl

/-- What the rule of a GHASH command writes, and that it reports no mismatch (40_engine.md R136). -/
theorem ruleOf_ghash {i : Instr} (hi : i ∈ [Instr.ghash, .ghashHmem]) (s : State) :
    (ruleOf i Config.cipherPort s.lp s.mem s.work).authFail = false ∧
      (ruleOf i Config.cipherPort s.lp s.mem s.work).writes =
        [(s.lp.outAddr.toNat, bytesOfBlock (ghashBlocks (ghashKey i s) (blocksOf (inBytes s))))] := by
  simp only [List.mem_cons, List.not_mem_nil, or_false] at hi
  rcases hi with rfl | rfl
  · rw [ruleOf, ruleGhash, ghashFrom, ghashRun_eq]
    exact ⟨rfl, rfl⟩
  · rw [ruleOf, ruleGhashHmem, ghashFrom, ghashRun_eq]
    exact ⟨rfl, rfl⟩

/-- A block just written reads back (20_memory.md R74). -/
theorem memBlock_memWrite_bytesOfBlock {m : Mem} (hm : Mem.wf m = true) (a : Nat) (x : Block)
    (hfit : a + 16 ≤ Config.memorySize) : memBlock (memWrite m a (bytesOfBlock x)) a = x := by
  have hread := memRead_memWrite_same hm a (bytesOfBlock x) (by simpa using hfit)
  rw [bytesOfBlock_length] at hread
  rw [memBlock, hread, blockOfBytes_bytesOfBlock]

/-- Settles O22: the rule writes the accumulator of the Horner fold over the blocks of INR. -/
theorem ghashWritesAccumulator : Obligations.GhashWritesAccumulator := by
  intro i hi s h
  obtain ⟨haf, hw⟩ := ruleOf_ghash hi s
  obtain ⟨t, ht, hfin, hmem, hout⟩ := exec_clean h haf
  have hfit := writes_fit h.running.2 (rule_writes h.running.2 haf)
  rw [writeRanges_ghash hi] at hout
  rw [hw] at hmem hfit
  have hfit : s.lp.outAddr.toNat + 16 ≤ Config.memorySize := by simpa using hfit
  refine ⟨t, ht, hfin, hout, ?_⟩
  rw [← blocksOf_memRead, hmem, memWriteAll, memWriteAll, memBlock_memWrite_bytesOfBlock h.memWf _ _ hfit]
  rfl

end Sys2Proof.Machine
end

section
/-! SUPPORT. GF(2^128) is a field (45_ghash.md R192): no product of blocks that are not zero is zero. The argument is
Berlekamp's. The map `X ↦ X^2 xor X` is additive, and its iterates from `x^127` reach 1 at the 127th and 0 after it, so these
128 blocks span the field. Hence only 0 and 1 are their own square, and `X^(2^128) = X` for every `X`, so `X` is `X^2 • W` for
some `W`. Then `X • W` is its own square, and it is 1 for an `X` that is not zero. -/

namespace Sys2Proof.Machine

/-! ## Squaring -/

/-- `X^2` in the field. -/
def gfSquare (x : Block) : Block := gfMul x x

theorem gfMul_left_comm (x y z : Block) : gfMul x (gfMul y z) = gfMul y (gfMul x z) := by
  rw [← gfMul_assoc, gfMul_comm x y, gfMul_assoc]

@[simp] theorem gfSquare_zero : gfSquare 0#128 = 0#128 := gfMul_zero _

@[simp] theorem gfSquare_gfOne : gfSquare gfOne = gfOne := gfMul_gfOne _

theorem gfSquare_xor (x y : Block) : gfSquare (x ^^^ y) = gfSquare x ^^^ gfSquare y := by
  have hcross : gfMul x y ^^^ gfMul y x = 0#128 := by rw [gfMul_comm y x, BitVec.xor_self]
  calc gfMul (x ^^^ y) (x ^^^ y)
      = (gfMul x x ^^^ gfMul x y) ^^^ (gfMul y x ^^^ gfMul y y) := by rw [xor_gfMul, gfMul_xor, gfMul_xor]
    _ = (gfMul x x ^^^ gfMul y y) ^^^ (gfMul x y ^^^ gfMul y x) := by
        rw [BitVec.xor_comm (gfMul y x), block_xor_xor_xor_comm]
    _ = gfMul x x ^^^ gfMul y y := by rw [hcross, BitVec.xor_zero]

theorem gfSquare_gfMul (x y : Block) : gfSquare (gfMul x y) = gfMul (gfSquare x) (gfSquare y) := by
  rw [gfSquare, gfMul_assoc, gfMul_left_comm y, ← gfMul_assoc, gfSquare, gfSquare]

theorem gfSquare_iterate_xor (n : Nat) (x y : Block) : gfSquare^[n] (x ^^^ y) = gfSquare^[n] x ^^^ gfSquare^[n] y :=
  Function.Semiconj₂.iterate gfSquare_xor n x y

/-! ## The blocks that are their own square -/

/-- `X^2 xor X`. -/
def artinMap (x : Block) : Block := gfSquare x ^^^ x

@[simp] theorem artinMap_zero : artinMap 0#128 = 0#128 := by simp [artinMap]

@[simp] theorem artinMap_gfOne : artinMap gfOne = 0#128 := by simp [artinMap]

@[simp] theorem artinMap_iterate_zero (n : Nat) : artinMap^[n] 0#128 = 0#128 := Function.iterate_fixed artinMap_zero n

theorem artinMap_xor (x y : Block) : artinMap (x ^^^ y) = artinMap x ^^^ artinMap y := by
  rw [artinMap, gfSquare_xor, block_xor_xor_xor_comm]
  rfl

theorem artinMap_iterate_xor (n : Nat) (x y : Block) : artinMap^[n] (x ^^^ y) = artinMap^[n] x ^^^ artinMap^[n] y :=
  Function.Semiconj₂.iterate artinMap_xor n x y

/-- From `x^127`, the block `00 … 01`, the 127th iterate is 1. -/
theorem artinMap_iterate_127 : artinMap^[127] 1#128 = gfOne := by decide +kernel

theorem artinMap_iterate_eq_zero {n : Nat} (hn : 128 ≤ n) : artinMap^[n] 1#128 = 0#128 := by
  obtain ⟨m, rfl⟩ := Nat.exists_eq_add_of_le' hn
  rw [Function.iterate_add_apply, Function.iterate_succ_apply', artinMap_iterate_127, artinMap_gfOne, artinMap_iterate_zero]

/-- The iterate `n` where the coefficient `n` of `C` is 1. -/
def artinTerm (c : Block) (n : Nat) : Block := if gfCoeff c n then artinMap^[n] 1#128 else 0#128

/-- The sum of the first `n` iterates from `x^127`, with the coefficients of `C`. -/
def artinSum (c : Block) : Nat → Block
  | 0 => 0#128
  | n + 1 => artinSum c n ^^^ artinTerm c n

theorem artinTerm_xor (c d : Block) (n : Nat) : artinTerm (c ^^^ d) n = artinTerm c n ^^^ artinTerm d n := by
  cases hc : gfCoeff c n <;> cases hd : gfCoeff d n <;> simp [artinTerm, hc, hd]

theorem artinSum_xor (c d : Block) (n : Nat) : artinSum (c ^^^ d) n = artinSum c n ^^^ artinSum d n := by
  induction n with
  | zero => simp [artinSum]
  | succ n ih => rw [artinSum, ih, artinTerm_xor, block_xor_xor_xor_comm, artinSum, artinSum]

/-- `127 - i` more steps send the terms above `i` to 0, and the term `i` to its coefficient. -/
theorem artinMap_iterate_artinTerm {c : Block} {i n : Nat} (hi : i < 128) (hlow : ∀ j < i, gfCoeff c j = false) :
    artinMap^[127 - i] (artinTerm c n) = if n = i ∧ gfCoeff c i then gfOne else 0#128 := by
  rcases lt_trichotomy n i with hlt | rfl | hgt
  · simp [artinTerm, hlow n hlt, hlt.ne]
  · have htop : artinMap^[127 - n] (artinMap^[n] 1#128) = gfOne := by
      rw [← Function.iterate_add_apply, Nat.sub_add_cancel (by omega), artinMap_iterate_127]
    cases hc : gfCoeff c n <;> simp [artinTerm, hc, htop]
  · have hzero : artinMap^[127 - i] (artinMap^[n] 1#128) = 0#128 := by
      rw [← Function.iterate_add_apply, artinMap_iterate_eq_zero (by omega)]
    cases hc : gfCoeff c n <;> simp [artinTerm, hc, hzero, hgt.ne']

theorem artinMap_iterate_artinSum {c : Block} {i : Nat} (hi : i < 128) (hlow : ∀ j < i, gfCoeff c j = false) (n : Nat) :
    artinMap^[127 - i] (artinSum c n) = if i < n ∧ gfCoeff c i then gfOne else 0#128 := by
  induction n with
  | zero => simp [artinSum]
  | succ n ih =>
    rw [artinSum, artinMap_iterate_xor, ih, artinMap_iterate_artinTerm hi hlow]
    rcases lt_trichotomy i n with h | rfl | h
    · simp [h, h.ne', Nat.lt_succ_of_lt h]
    · simp
    · simp [h.ne, h.not_gt, show ¬ i < n + 1 by omega]

/-- If the sum vanishes after `k` more steps, its coefficients below `128 - k` are 0. -/
theorem gfCoeff_of_artinMap_iterate {c : Block} {k : Nat} (h : artinMap^[k] (artinSum c 128) = 0#128) {i : Nat}
    (hi : i + k < 128) : gfCoeff c i = false := by
  induction i using Nat.strong_induction_on with
  | _ i ih =>
    have hsum := artinMap_iterate_artinSum (by omega) (fun j hj => ih j hj (by omega)) 128
    rw [show 127 - i = (127 - i - k) + k by omega, Function.iterate_add_apply, h, artinMap_iterate_zero] at hsum
    by_contra hc
    rw [if_pos ⟨by omega, by simpa using hc⟩] at hsum
    exact absurd hsum (by decide)

theorem artinSum_injective : Function.Injective (artinSum · 128) := by
  intro c d (h : artinSum c 128 = artinSum d 128)
  have hzero : artinMap^[0] (artinSum (c ^^^ d) 128) = 0#128 := by
    rw [Function.iterate_zero_apply, artinSum_xor, h, BitVec.xor_self]
  refine gf_ext fun i hi => ?_
  simpa using gfCoeff_of_artinMap_iterate hzero hi

/-- Only 0 and 1 are their own square. -/
theorem eq_zero_or_eq_gfOne {e : Block} (he : gfSquare e = e) : e = 0#128 ∨ e = gfOne := by
  obtain ⟨c, rfl⟩ := Finite.surjective_of_injective artinSum_injective e
  have hstep : artinMap^[1] (artinSum c 128) = 0#128 := by
    rw [Function.iterate_one, artinMap, he, BitVec.xor_self]
  have hlast := artinMap_iterate_artinSum (by decide) (fun j hj => gfCoeff_of_artinMap_iterate hstep (by omega)) 128
    (i := 127)
  rw [Nat.sub_self, Function.iterate_zero_apply] at hlast
  cases hc : gfCoeff c 127 <;> simp [hc] at hlast <;> simp [hlast]

/-! ## The 128th iterate of squaring -/

/-- At a power of two the mixed terms of the iterate cancel. -/
theorem artinMap_iterate_two_pow (k : Nat) (x : Block) : artinMap^[2 ^ k] x = gfSquare^[2 ^ k] x ^^^ x := by
  induction k generalizing x with
  | zero => rw [pow_zero, Function.iterate_one, Function.iterate_one, artinMap]
  | succ k ih =>
    rw [pow_succ, mul_two, Function.iterate_add_apply, ih, ih, gfSquare_iterate_xor, ← Function.iterate_add_apply,
      BitVec.xor_assoc, ← BitVec.xor_assoc (gfSquare^[2 ^ k] x), BitVec.xor_self, BitVec.zero_xor]

theorem artinMap_iterate_128_artinSum (c : Block) (n : Nat) : artinMap^[128] (artinSum c n) = 0#128 := by
  induction n with
  | zero => exact artinMap_iterate_zero _
  | succ n ih =>
    have hterm : artinMap^[128] (artinMap^[n] 1#128) = 0#128 := by
      rw [← Function.iterate_add_apply, artinMap_iterate_eq_zero (Nat.le_add_right _ _)]
    rw [artinSum, artinMap_iterate_xor, ih]
    cases hc : gfCoeff c n <;> simp [artinTerm, hc, hterm]

/-- `X^(2^128) = X` for every block: `X` is a sum of the 128 iterates, and 128 more steps send each of them to 0. -/
theorem gfSquare_iterate_128 (x : Block) : gfSquare^[128] x = x := by
  obtain ⟨c, rfl⟩ := Finite.surjective_of_injective artinSum_injective x
  have h : artinMap^[128] (artinSum c 128) = gfSquare^[128] (artinSum c 128) ^^^ artinSum c 128 :=
    artinMap_iterate_two_pow 7 _
  rw [artinMap_iterate_128_artinSum] at h
  exact BitVec.xor_eq_zero_iff.mp h.symm

/-! ## No zero divisors -/

theorem exists_gfSquare_iterate (x : Block) (n : Nat) : ∃ w, gfSquare^[n + 1] x = gfMul (gfSquare x) w := by
  induction n with
  | zero => exact ⟨gfOne, by rw [gfMul_gfOne, Function.iterate_one]⟩
  | succ n ih =>
    obtain ⟨w, hw⟩ := ih
    refine ⟨gfMul (gfSquare x) (gfSquare w), ?_⟩
    rw [Function.iterate_succ_apply', hw, gfSquare_gfMul, ← gfMul_assoc]
    rfl

/-- Every block that is not zero has an inverse. -/
theorem exists_gfMul_eq_gfOne {x : Block} (hx : x ≠ 0#128) : ∃ w, gfMul x w = gfOne := by
  obtain ⟨w, hw⟩ := exists_gfSquare_iterate x 127
  have hx' : gfMul x (gfMul x w) = x := by rw [← gfMul_assoc, ← gfSquare, ← hw, gfSquare_iterate_128]
  have hfixed : gfSquare (gfMul x w) = gfMul x w := by
    rw [gfSquare, gfMul_left_comm, ← gfMul_assoc, hx']
  refine ⟨w, (eq_zero_or_eq_gfOne hfixed).resolve_left fun hzero => hx ?_⟩
  rw [← hx', hzero, gfMul_zero]

theorem gfMul_ne_zero {x y : Block} (hx : x ≠ 0#128) (hy : y ≠ 0#128) : gfMul x y ≠ 0#128 := by
  obtain ⟨w, hw⟩ := exists_gfMul_eq_gfOne hx
  intro h
  refine hy ?_
  calc y = gfMul (gfMul x w) y := by rw [hw, gfOne_gfMul]
    _ = gfMul w (gfMul x y) := by rw [gfMul_comm x w, gfMul_assoc]
    _ = 0#128 := by rw [h, gfMul_zero]

theorem gfPow_ne_zero {h : Block} (hh : h ≠ 0#128) (n : Nat) : gfPow h n ≠ 0#128 := by
  induction n with
  | zero => rw [gfPow]; decide
  | succ n ih => exact gfMul_ne_zero ih hh

end Sys2Proof.Machine
end

section
/-! SUPPORT. How an authenticated command completes (46_gcm.md R205, R206, 47_ccm.md R229, R230): a sealing command leaves its
two outputs in OUTR and TAGR, an opening command its one output in OUTR, and a mismatch leaves memory alone. -/

namespace Sys2Proof.Machine

/-! ## Two outputs in memory -/

/-- A string write leaves a range alone that it does not overlap. -/
theorem memRead_memWrite_of_not_overlaps {r : Range} {a : Nat} {bs : Bytes} (h : r.overlaps ⟨a, bs.length⟩ = false)
    (m : Mem) : memRead (memWrite m a bs) r.base r.size = memRead m r.base r.size := by
  refine memRead_congr fun i hi => readByte_memWrite_other _ _ _ _ ?_
  have hout := Range.overlaps_false_iff.mp h (r.base + i) (Range.contains_iff.mpr ⟨by omega, by omega⟩)
  rw [← Bool.not_eq_true, Range.contains_iff] at hout
  simp only at hout
  omega

/-! ## The ends of a command in terms of its rule -/

/-- A clean sealing command finishes with its two outputs in OUTR and TAGR (40_engine.md R126, R128, R139). -/
theorem exec_sealed {i : Instr} (hi : i = .gcmEnc ∨ i = .ccmEnc) {s : State} (h : Clean i s) {ct tag : Bytes}
    (haf : (ruleOf i Config.cipherPort s.lp s.mem s.work).authFail = false)
    (hw : (ruleOf i Config.cipherPort s.lp s.mem s.work).writes = [(s.lp.outAddr.toNat, ct), (s.lp.tagAddr.toNat, tag)]) :
    ∃ t, exec i s = .next t ∧ Finished s t false ∧ SameOutside [outRange s.lp, tagRange s.lp] s t ∧
      memRead t.mem s.lp.outAddr.toNat s.lp.len.toNat = ct ∧
      memRead t.mem s.lp.tagAddr.toNat s.lp.tagLen.toNat = tag := by
  obtain ⟨t, ht, hfin, hmem, hsame⟩ := exec_clean h haf
  have hranges := rule_writes h.running.2 haf
  have hfit := writes_fit h.running.2 hranges
  have hwr : writeRanges i s.lp = [outRange s.lp, tagRange s.lp] := by rcases hi with rfl | rfl <;> rfl
  rw [hwr] at hsame hranges
  rw [hw] at hmem hranges hfit
  obtain ⟨hct, htag⟩ : ct.length = s.lp.len.toNat ∧ tag.length = s.lp.tagLen.toNat := by
    simpa [outRange, tagRange] using hranges
  obtain ⟨-, -, -, -, -, hover⟩ := validateCommand_ok_iff.mp h.running.2
  have hdisj : (outRange s.lp).overlaps ⟨s.lp.tagAddr.toNat, tag.length⟩ = false := by
    rw [htag]
    exact (overlapOk_iff.mp hover).2 hi
  have hctFit : s.lp.outAddr.toNat + ct.length ≤ Config.memorySize := hfit (_, ct) (by simp)
  have htagFit : s.lp.tagAddr.toNat + tag.length ≤ Config.memorySize := hfit (_, tag) (by simp)
  refine ⟨t, ht, hfin, hsame, ?_, ?_⟩
  · rw [hmem]
    refine (memRead_memWrite_of_not_overlaps hdisj _).trans ?_
    rw [outRange, ← hct, memRead_memWrite_same h.memWf _ _ hctFit]
  · rw [hmem, ← htag]
    exact memRead_memWrite_same (memWrite_wf h.memWf hctFit) _ _ htagFit

/-- A clean opening command whose rule finds no mismatch finishes with its output in OUTR (40_engine.md R139). -/
theorem exec_opened {i : Instr} (hi : i = .gcmDec ∨ i = .ccmDec) {s : State} (h : Clean i s) {pt : Bytes}
    (haf : (ruleOf i Config.cipherPort s.lp s.mem s.work).authFail = false)
    (hw : (ruleOf i Config.cipherPort s.lp s.mem s.work).writes = [(s.lp.outAddr.toNat, pt)]) :
    ∃ t, exec i s = .next t ∧ Finished s t false ∧ SameOutside [outRange s.lp] s t ∧
      memRead t.mem s.lp.outAddr.toNat s.lp.len.toNat = pt := by
  obtain ⟨t, ht, hfin, hmem, hsame⟩ := exec_clean h haf
  have hranges := rule_writes h.running.2 haf
  have hfit := writes_fit h.running.2 hranges
  have hwr : writeRanges i s.lp = [outRange s.lp] := by rcases hi with rfl | rfl <;> rfl
  rw [hwr] at hsame hranges
  rw [hw] at hmem hranges hfit
  have hpt : pt.length = s.lp.len.toNat := by simpa [outRange] using hranges
  refine ⟨t, ht, hfin, hsame, ?_⟩
  rw [hmem, ← hpt]
  exact memRead_memWrite_same h.memWf _ _ (hfit (_, pt) (by simp))

/-- An undisturbed command whose rule finds a mismatch finishes with AUTH_FAIL = 1 and leaves memory alone, whether or not
its write ranges answer (40_engine.md R132, R136). -/
theorem exec_mismatch {i : Instr} {s : State} (hr : Running i s) (hu : Undisturbed i s) (ha : ReadsAnswered i s)
    (haf : (ruleOf i Config.cipherPort s.lp s.mem s.work).authFail = true) :
    ∃ t, exec i s = .next t ∧ Finished s t true ∧ t.mem = s.mem := by
  refine ⟨_, exec_undisturbed hr hu ha, ?_⟩
  rw [if_pos haf]
  exact ⟨finished_endCommand _ _ _ _, rfl⟩

/-! ## A keystream output byte by byte -/

/-- A buffer that holds the input xored with a keystream, read at one byte (40_engine.md R144). -/
theorem readByte_of_memRead_keystreamOut {s : State} {m : Mem} {a width : Nat} {k : Word} {cb : Block}
    (hw : width ≤ 16)
    (h : memRead m a s.lp.len.toNat = keystreamOut (encryptBlock k) width (blockCount (inBytes s).length) cb (inBytes s))
    {j : Nat} (hj : j < s.lp.len.toNat) :
    readByte m (a + j) = readByte s.mem (s.lp.inAddr.toNat + j) ^^^ keystreamByte k width cb j := by
  have hread (m : Mem) (a : Nat) : readByte m (a + j) = (memRead m a s.lp.len.toNat)[j]'(by simpa using hj) :=
    (memRead_getElem _ _ _ _ _).symm
  simp only [hread, h, keystreamOut_eq_xorBytes k hw, xorBytes_getElem, keystreamBytes_getElem, inBytes]

end Sys2Proof.Machine
end

section
/-! SUPPORT. GCM: what GCM_ENC leaves in OUTR and TAGR, when GCM_DEC opens and to what, that it undoes GCM_ENC, and what a
changed byte or a changed tag does (46_gcm.md R200 to R207; for the changed tag also 47_ccm.md R231). -/

namespace Sys2Proof.Machine

/-! ## GCTR (R202) -/

/-- GCTR of `X` under one key handle and IV (46_gcm.md R201, R202). -/
def gcmBytes (k : Word) (iv x : Bytes) : Bytes :=
  keystreamOut (encryptBlock k) 4 (blockCount x.length) (incCounter 4 (gcmJ0 k iv) 1) x

theorem gcmCtr_eq_gcmBytes {k : Word} {iv : Bytes} {w : Work} (hj : w.j0 = gcmJ0 k iv) (x : Bytes) :
    (gcmCtr (Config.cipherPort.encrypt k) w x).2 = gcmBytes k iv x := by
  rw [gcmCtr, keystreamXor_out, hj]
  rfl

theorem gcmCtr_keeps (enc : Block → Block) (w : Work) (x : Bytes) :
    (gcmCtr enc w x).1.h = w.h ∧ (gcmCtr enc w x).1.j0 = w.j0 := by
  obtain ⟨hh, -, hj, -⟩ := keystreamXor_keeps enc 4 (blockCount x.length) { w with cb := incCounter 4 w.j0 1 } x
  exact ⟨hh, hj⟩

/-- GCTR applied twice gives its input back. -/
@[simp] theorem gcmBytes_gcmBytes (k : Word) (iv x : Bytes) : gcmBytes k iv (gcmBytes k iv x) = x := by
  unfold gcmBytes
  rw [keystreamOut_length, keystreamOut_keystreamOut _ (by decide)]

/-! ## What the rules write (R205, R206) -/

/-- GCM_ENC writes GCTR of its input and the tag over that ciphertext. -/
theorem ruleOf_gcmEnc (s : State) :
    (ruleOf .gcmEnc Config.cipherPort s.lp s.mem s.work).authFail = false ∧
      (ruleOf .gcmEnc Config.cipherPort s.lp s.mem s.work).writes =
        [(s.lp.outAddr.toNat, gcmBytes s.lp.keyh (ivBytes s) (inBytes s)),
          (s.lp.tagAddr.toNat, (bytesOfBlock (gcmTagBlock s.lp.keyh (ivBytes s) (aadBytes s)
            (gcmBytes s.lp.keyh (ivBytes s) (inBytes s)))).take s.lp.tagLen.toNat)] := by
  refine ⟨rfl, ?_⟩
  obtain ⟨hh, hj⟩ := gcmStart_eq s.lp.keyh (ivBytes s) s.work
  obtain ⟨hh', hj'⟩ := gcmCtr_keeps (Config.cipherPort.encrypt s.lp.keyh)
    (gcmStart (Config.cipherPort.encrypt s.lp.keyh) (ivBytes s) s.work) (inBytes s)
  rw [← gcmCtr_eq_gcmBytes hj (inBytes s), ← gcmAuth_tc _ _ _ _ _ (hh'.trans hh) (hj'.trans hj)]
  rfl

/-- GCM_DEC without a mismatch writes GCTR of its input. -/
theorem ruleOf_gcmDec_writes {s : State} (haf : (ruleOf .gcmDec Config.cipherPort s.lp s.mem s.work).authFail = false) :
    (ruleOf .gcmDec Config.cipherPort s.lp s.mem s.work).writes =
      [(s.lp.outAddr.toNat, gcmBytes s.lp.keyh (ivBytes s) (inBytes s))] := by
  obtain ⟨-, hj⟩ := gcmStart_eq s.lp.keyh (ivBytes s) s.work
  have hj' : (gcmAuth (Config.cipherPort.encrypt s.lp.keyh) (aadBytes s) (inBytes s)
      (gcmStart (Config.cipherPort.encrypt s.lp.keyh) (ivBytes s) s.work)).j0 = gcmJ0 s.lp.keyh (ivBytes s) := by
    rw [gcmAuth, ghashRun_eq]
    exact hj
  rw [← gcmCtr_eq_gcmBytes hj' (inBytes s)]
  rw [ruleOf, ruleGcmDec] at haf ⊢
  rcases openRule_cases s.lp s.mem _ _ with ⟨-, h⟩ | ⟨-, h⟩
  · rw [h]
    rfl
  · rw [h] at haf
    cases haf

/-- GCM_DEC's rule reports a mismatch exactly where the supplied tag is not the one it computes (R206). -/
theorem ruleOf_gcmDec_authFail {s : State} :
    (ruleOf .gcmDec Config.cipherPort s.lp s.mem s.work).authFail = true ↔ tagBufBytes s ≠ gcmTag s :=
  ruleGcmDec_authFail s.lp s.mem s.work

/-! ## The commands -/

/-- A clean GCM_ENC finishes with GCTR of its input in OUTR and the tag over it in TAGR. -/
theorem exec_gcmEnc {s : State} (h : Clean .gcmEnc s) :
    ∃ t, exec .gcmEnc s = .next t ∧ Finished s t false ∧ SameOutside [outRange s.lp, tagRange s.lp] s t ∧
      memRead t.mem s.lp.outAddr.toNat s.lp.len.toNat = gcmBytes s.lp.keyh (ivBytes s) (inBytes s) ∧
      memRead t.mem s.lp.tagAddr.toNat s.lp.tagLen.toNat =
        (bytesOfBlock (gcmTagBlock s.lp.keyh (ivBytes s) (aadBytes s)
          (gcmBytes s.lp.keyh (ivBytes s) (inBytes s)))).take s.lp.tagLen.toNat := by
  obtain ⟨haf, hw⟩ := ruleOf_gcmEnc s
  exact exec_sealed (.inl rfl) h haf hw

/-- A clean GCM_DEC whose tag matches finishes with GCTR of its input in OUTR. -/
theorem exec_gcmDec_match {s : State} (h : Clean .gcmDec s) (htag : tagBufBytes s = gcmTag s) :
    ∃ t, exec .gcmDec s = .next t ∧ Finished s t false ∧ SameOutside [outRange s.lp] s t ∧
      memRead t.mem s.lp.outAddr.toNat s.lp.len.toNat = gcmBytes s.lp.keyh (ivBytes s) (inBytes s) := by
  have haf : (ruleOf .gcmDec Config.cipherPort s.lp s.mem s.work).authFail = false := by
    rw [← Bool.not_eq_true, ruleOf_gcmDec_authFail, not_not]
    exact htag
  exact exec_opened (.inl rfl) h haf (ruleOf_gcmDec_writes haf)

/-- Settles O23: OUTR holds GCTR of the plaintext and TAGR the tag over OUTR, which do not overlap. -/
theorem gcmEncWritesCiphertextAndTag : Obligations.GcmEncWritesCiphertextAndTag := by
  intro s h
  obtain ⟨t, ht, hfin, hsame, hout, htag⟩ := exec_gcmEnc h
  exact ⟨t, ht, hfin, hsame, fun j => readByte_of_memRead_keystreamOut (by decide) hout, by rw [htag, hout]⟩

/-- Settles O24: the rule compares before it writes, so a mismatch ends before OUTR is asked. -/
theorem gcmDecOpensOnlyOnTagMatch : Obligations.GcmDecOpensOnlyOnTagMatch := by
  intro s hrun hund hread hwf
  refine ⟨fun htag => exec_mismatch hrun hund hread (ruleOf_gcmDec_authFail.mpr htag), fun htag hwrite => ?_⟩
  obtain ⟨t, ht, hfin, hsame, hout⟩ := exec_gcmDec_match ⟨hrun, hund, hread, hwrite, hwf⟩ htag
  exact ⟨t, ht, hfin, hsame, fun j => readByte_of_memRead_keystreamOut (by decide) hout⟩

/-- Settles O55: both commands compute one tag over one ciphertext, and GCTR is its own inverse. -/
theorem gcmRoundTrip : Obligations.GcmRoundTrip := by
  intro s₁ s₂ t₁ h₁ h₂ hkey hiv haad _ htagLen ht₁ hin htag
  obtain ⟨_, ht, -, -, hout₁, htag₁⟩ := exec_gcmEnc h₁
  obtain rfl := Host.Outcome.next.inj (ht₁.symm.trans ht)
  have hmatch : tagBufBytes s₂ = gcmTag s₂ := by
    rw [htag, htag₁, gcmTag, hkey, hiv, haad, hin, hout₁, htagLen]
  obtain ⟨t₂, ht₂, hfin, -, hout₂⟩ := exec_gcmDec_match h₂ hmatch
  exact ⟨t₂, ht₂, hfin, by rw [hout₂, hkey, hiv, hin, hout₁, gcmBytes_gcmBytes]⟩

/-! ## When an opening command reports AUTH_FAIL -/

theorem gcmDec_authFail_iff {s t : State} (h : Clean .gcmDec s) (ht : exec .gcmDec s = .next t) :
    t.status.authFail = true ↔ tagBufBytes s ≠ gcmTag s := by
  obtain ⟨-, haf, -⟩ := exec_clean_result h ht
  rw [haf, ruleOf_gcmDec_authFail]

theorem ccmDec_authFail_iff {s t : State} (h : Clean .ccmDec s) (ht : exec .ccmDec s = .next t) {pt : Bytes}
    (hpt : CcmOpensTo s pt) : t.status.authFail = true ↔ tagBufBytes s ≠ ccmTagFor s pt := by
  obtain ⟨-, haf, -⟩ := exec_clean_result h ht
  rw [haf]
  exact ruleCcmDec_authFail hpt s.work

theorem ccmL_eq_ivBytes (s : State) : ccmL s.lp = 15 - (ivBytes s).length := by simp [ccmL, ivBytes]

/-- Under one key handle and nonce one ciphertext opens to one plaintext (47_ccm.md R227). -/
theorem CcmOpensTo.unique {s₁ s₂ : State} {pt₁ pt₂ : Bytes} (h₁ : CcmOpensTo s₁ pt₁) (h₂ : CcmOpensTo s₂ pt₂)
    (hkey : s₂.lp.keyh = s₁.lp.keyh) (hiv : ivBytes s₂ = ivBytes s₁) (hin : inBytes s₂ = inBytes s₁) : pt₂ = pt₁ := by
  have hout₁ := h₁.eq_ccmCtr (w := { Work.zero with j0 := ccmA0Block (ivBytes s₁) }) rfl
  have hout₂ := h₂.eq_ccmCtr (w := { Work.zero with j0 := ccmA0Block (ivBytes s₂) }) rfl
  rw [← hout₁, ← hout₂, ccmL_eq_ivBytes, ccmL_eq_ivBytes, hkey, hiv, hin]

/-- Two opening commands on one message compute one tag (46_gcm.md R206, 47_ccm.md R230). -/
theorem sameMessage_sameTag {i : Instr} (hi : i ∈ [Instr.gcmDec, .ccmDec]) {s₁ s₂ t₁ t₂ : State} (h₁ : Clean i s₁)
    (h₂ : Clean i s₂) (hkey : s₂.lp.keyh = s₁.lp.keyh) (htagLen : s₂.lp.tagLen = s₁.lp.tagLen)
    (hiv : ivBytes s₂ = ivBytes s₁) (haad : aadBytes s₂ = aadBytes s₁) (hin : inBytes s₂ = inBytes s₁)
    (ht₁ : exec i s₁ = .next t₁) (ht₂ : exec i s₂ = .next t₂) :
    ∃ tag, (t₁.status.authFail = true ↔ tagBufBytes s₁ ≠ tag) ∧ (t₂.status.authFail = true ↔ tagBufBytes s₂ ≠ tag) := by
  simp only [List.mem_cons, List.not_mem_nil, or_false] at hi
  rcases hi with rfl | rfl
  · have htag : gcmTag s₂ = gcmTag s₁ := by rw [gcmTag, gcmTag, hkey, htagLen, hiv, haad, hin]
    exact ⟨gcmTag s₁, gcmDec_authFail_iff h₁ ht₁, htag ▸ gcmDec_authFail_iff h₂ ht₂⟩
  · obtain ⟨pt, hpt₁⟩ := exists_ccmOpensTo s₁
    obtain ⟨pt₂, hpt₂⟩ := exists_ccmOpensTo s₂
    obtain rfl := hpt₁.unique hpt₂ hkey hiv hin
    have htag : ccmTagFor s₂ pt₂ = ccmTagFor s₁ pt₂ := by rw [ccmTagFor, ccmTagFor, hkey, htagLen, hiv, haad]
    exact ⟨ccmTagFor s₁ pt₂, ccmDec_authFail_iff h₁ ht₁ hpt₁, htag ▸ ccmDec_authFail_iff h₂ ht₂ hpt₂⟩

/-- Settles O59: one message has one tag, and two different tags are not both equal to it. -/
theorem changedTagIsRejected : Obligations.ChangedTagIsRejected := by
  intro i hi s₁ s₂ t₁ t₂ h₁ h₂ hkey _ htagLen hiv haad hin hne ht₁ ht₂
  obtain ⟨tag, haf₁, haf₂⟩ := sameMessage_sameTag hi h₁ h₂ hkey htagLen hiv haad hin ht₁ ht₂
  rw [haf₁, haf₂]
  by_contra hboth
  rw [not_or, not_not, not_not] at hboth
  exact hne (hboth.2.trans hboth.1.symm)

end Sys2Proof.Machine
end

section
/-! SUPPORT. Tampering with GCM: how one changed byte of a string shifts its GHASH, that the shift is not zero, and when
GCM_DEC reports it (46_gcm.md R207 item 3, 45_ghash.md R195). -/

namespace Sys2Proof.Machine

/-! ## One changed block -/

theorem blocksOf_append_of_mod {a : Bytes} (ha : a.length % 16 = 0) (r : Bytes) :
    blocksOf (a ++ r) = blocksOf a ++ blocksOf r := by
  have hblocks (xs : List Block) : blocksOf (bytesOfBlocks xs ++ r) = xs ++ blocksOf r := by
    induction xs with
    | nil => rfl
    | cons x xs ih =>
      rw [bytesOfBlocks_cons, List.append_assoc, blocksOf_append (bytesOfBlock_length x), ih, blockOfBytes_bytesOfBlock]
      rfl
  rw [← hblocks, bytesOfBlocks_blocksOf ha]

/-- A block of the polynomial changed from `X` to `Y` shifts its value by `(X xor Y) • H^j` (45_ghash.md R195). -/
theorem hornerSum_changed (h : Block) (xs ys : List Block) (x y : Block) :
    hornerSum h (xs ++ y :: ys) =
      hornerSum h (xs ++ x :: ys) ^^^ gfMul (x ^^^ y) (gfPow h (ys.length + 1)) := by
  induction xs with
  | nil =>
    have hy : gfMul y (gfPow h (ys.length + 1)) =
        gfMul x (gfPow h (ys.length + 1)) ^^^ gfMul (x ^^^ y) (gfPow h (ys.length + 1)) := by
      rw [← xor_gfMul, ← BitVec.xor_assoc, BitVec.xor_self, BitVec.zero_xor]
    rw [List.nil_append, List.nil_append, hornerSum, hornerSum, hy, block_xor_right_comm]
  | cons z xs ih =>
    have hlen : (xs ++ y :: ys).length = (xs ++ x :: ys).length := by simp
    rw [List.cons_append, List.cons_append, hornerSum, hornerSum, ih, hlen, BitVec.xor_assoc]

/-- One block of a block-aligned string changed from `b` to `b'`. -/
theorem ghashBlocks_changed (h : Block) {a b b' : Bytes} (ha : a.length % 16 = 0) (hb : b.length = 16)
    (hb' : b'.length = 16) (r : Bytes) :
    ghashBlocks h (blocksOf (a ++ (b' ++ r))) =
      ghashBlocks h (blocksOf (a ++ (b ++ r))) ^^^
        gfMul (blockOfBytes b ^^^ blockOfBytes b') (gfPow h (r.length / 16 + 1)) := by
  rw [blocksOf_append_of_mod ha, blocksOf_append_of_mod ha, blocksOf_append hb, blocksOf_append hb',
    ghashBlocks_eq_hornerSum, ghashBlocks_eq_hornerSum, hornerSum_changed h _ _ (blockOfBytes b), blocksOf_length]

/-! ## One changed byte -/

theorem pad16_length (s : Bytes) : (pad16 s).length = 16 * blockCount s.length := by
  simp [pad16, blockCount]
  omega

theorem pad16_getElem? {s : Bytes} {i : Nat} (hi : i < s.length) : (pad16 s)[i]? = s[i]? := by
  rw [pad16, List.getElem?_append_left hi]

/-- The 16 bytes of the block that holds byte `q`. -/
def blockAround (s : Bytes) (q : Nat) : Bytes := (s.drop (16 * (q / 16))).take 16

theorem blockAround_getElem? (s : Bytes) (q : Nat) : (blockAround s q)[q % 16]? = s[q]? := by
  rw [blockAround, List.getElem?_take_of_lt (Nat.mod_lt _ (by decide)), List.getElem?_drop, Nat.div_add_mod]

/-- A string around the block that holds byte `q`. -/
theorem take_blockAround_drop (s : Bytes) (q : Nat) :
    s.take (16 * (q / 16)) ++ (blockAround s q ++ s.drop (16 * (q / 16) + 16)) = s := by
  rw [blockAround, ← List.drop_drop, List.take_append_drop, List.take_append_drop]

theorem blockChange_eq (x y : Bytes) (q : Nat) :
    blockChange x y q = blockOfBytes (blockAround (pad16 x) q) ^^^ blockOfBytes (blockAround (pad16 y) q) := rfl

theorem blockAround_pad16_length {s : Bytes} {q : Nat} (hq : q < s.length) : (blockAround (pad16 s) q).length = 16 := by
  have hbound := blockCount_bound s.length
  rw [blockAround, List.length_take, List.length_drop, pad16_length]
  omega

namespace DifferOnlyAt

theorem padded {x y : Bytes} {q : Nat} (h : DifferOnlyAt x y q) : DifferOnlyAt (pad16 x) (pad16 y) q := by
  obtain ⟨hlen, hq, hne, heq⟩ := h
  have hbound := blockCount_bound x.length
  refine ⟨by rw [pad16_length, pad16_length, hlen], by rw [pad16_length]; omega, ?_, fun i hi => ?_⟩
  · rwa [pad16_getElem? hq, pad16_getElem? (hlen ▸ hq)]
  · rw [pad16, pad16, List.getElem?_append, List.getElem?_append, hlen, heq i hi]

theorem take_eq {x y : Bytes} {q : Nat} (h : DifferOnlyAt x y q) {n : Nat} (hn : n ≤ q) : y.take n = x.take n := by
  obtain ⟨-, -, -, heq⟩ := h
  refine List.ext_getElem? fun i => ?_
  by_cases hi : i < n
  · rw [List.getElem?_take_of_lt hi, List.getElem?_take_of_lt hi, heq i (by omega)]
  · rw [List.getElem?_eq_none (by simp; omega), List.getElem?_eq_none (by simp; omega)]

theorem drop_eq {x y : Bytes} {q : Nat} (h : DifferOnlyAt x y q) {n : Nat} (hn : q < n) : y.drop n = x.drop n := by
  obtain ⟨-, -, -, heq⟩ := h
  refine List.ext_getElem? fun i => ?_
  rw [List.getElem?_drop, List.getElem?_drop, heq (n + i) (by omega)]

/-- The change of a block in which a byte changed is not zero. -/
theorem blockChange_ne_zero {x y : Bytes} {q : Nat} (h : DifferOnlyAt x y q) : blockChange x y q ≠ 0#128 := by
  obtain ⟨-, -, hne, -⟩ := h.padded
  obtain ⟨hlen, hq, -, -⟩ := h
  intro hzero
  have hblock := congrArg bytesOfBlock (BitVec.xor_eq_zero_iff.mp (blockChange_eq x y q ▸ hzero))
  rw [bytesOfBlock_blockOfBytes (blockAround_pad16_length hq),
    bytesOfBlock_blockOfBytes (blockAround_pad16_length (hlen ▸ hq))] at hblock
  refine hne ?_
  rw [← blockAround_getElem?, hblock, blockAround_getElem?]

/-- A changed byte of a padded part of a GHASH input shifts its GHASH by the change of its block times the power of H that
counts the blocks from that block on (45_ghash.md R195). -/
theorem ghashBlocks_eq {x y : Bytes} {q : Nat} (hd : DifferOnlyAt x y q) (h : Block) {a : Bytes}
    (ha : a.length % 16 = 0) (r : Bytes) :
    ghashBlocks h (blocksOf (a ++ (pad16 y ++ r))) =
      ghashBlocks h (blocksOf (a ++ (pad16 x ++ r))) ^^^
        gfMul (blockChange x y q) (gfPow h (blockCount x.length - q / 16 + r.length / 16)) := by
  have htake := hd.padded.take_eq (Nat.mul_div_le q 16)
  have hdrop := hd.padded.drop_eq (n := 16 * (q / 16) + 16) (by omega)
  obtain ⟨hlen, hq, -, -⟩ := hd
  have hbound := blockCount_bound x.length
  have hsplit (s : Bytes) : a ++ (pad16 s ++ r) =
      (a ++ (pad16 s).take (16 * (q / 16))) ++
        (blockAround (pad16 s) q ++ ((pad16 s).drop (16 * (q / 16) + 16) ++ r)) := by
    conv_lhs => rw [← take_blockAround_drop (pad16 s) q]
    simp only [List.append_assoc]
  have hbefore : (a ++ (pad16 x).take (16 * (q / 16))).length % 16 = 0 := by
    rw [List.length_append, List.length_take, pad16_length]
    omega
  have hblocks : ((pad16 x).drop (16 * (q / 16) + 16) ++ r).length / 16 + 1 =
      blockCount x.length - q / 16 + r.length / 16 := by
    rw [List.length_append, List.length_drop, pad16_length]
    omega
  rw [hsplit y, hsplit x, htake, hdrop, ghashBlocks_changed h hbefore (blockAround_pad16_length hq)
    (blockAround_pad16_length (hlen ▸ hq)), hblocks, blockChange_eq]

/-- A changed ciphertext byte shifts the authentication value of GCM (46_gcm.md R203, R207 item 3). -/
theorem gcmTagBlock_ciphertext {x y : Bytes} {q : Nat} (h : DifferOnlyAt x y q) (k : Word) (iv z : Bytes) :
    gcmTagBlock k iv z y = gcmTagBlock k iv z x ^^^
      gfMul (blockChange x y q) (gfPow (encryptBlock k 0) (blockCount x.length - q / 16 + 1)) := by
  have hlens : (beBytes 8 (8 * z.length) ++ beBytes 8 (8 * x.length)).length / 16 = 1 := by simp
  have hshift := h.ghashBlocks_eq (encryptBlock k 0) (pad16_length_mod z)
    (beBytes 8 (8 * z.length) ++ beBytes 8 (8 * x.length))
  obtain ⟨hlen, -, -, -⟩ := h
  simp only [gcmTagBlock, List.append_assoc, ← hlen, hshift, hlens, BitVec.xor_assoc]

/-- A changed AAD byte shifts the authentication value of GCM (46_gcm.md R203, R207 item 3). -/
theorem gcmTagBlock_aad {x y : Bytes} {q : Nat} (h : DifferOnlyAt x y q) (k : Word) (iv z : Bytes) :
    gcmTagBlock k iv y z = gcmTagBlock k iv x z ^^^
      gfMul (blockChange x y q) (gfPow (encryptBlock k 0) (blockCount x.length - q / 16 + blockCount z.length + 1)) := by
  have hlens : (pad16 z ++ (beBytes 8 (8 * x.length) ++ beBytes 8 (8 * z.length))).length / 16 =
      blockCount z.length + 1 := by
    simp only [List.length_append, pad16_length, beBytes_length]
    omega
  have hshift := h.ghashBlocks_eq (encryptBlock k 0) (a := []) rfl
    (pad16 z ++ (beBytes 8 (8 * x.length) ++ beBytes 8 (8 * z.length)))
  obtain ⟨hlen, -, -, -⟩ := h
  simp only [List.nil_append] at hshift
  simp only [gcmTagBlock, List.append_assoc, ← hlen, hshift, hlens, BitVec.xor_assoc, ← Nat.add_assoc]

end DifferOnlyAt

/-! ## The first bytes of a shifted block -/

theorem zeroBytes_eq_take_bytesOfBlock {t : Nat} (ht : t ≤ 16) : zeroBytes t = (bytesOfBlock 0#128).take t := by
  have hzero : bytesOfBlock 0#128 = zeroBytes 16 := by decide
  rw [hzero, zeroBytes, zeroBytes, List.take_replicate, min_eq_left ht]

theorem take_bytesOfBlock_eq_iff {x y : Block} {t : Nat} (ht : t ≤ 16) :
    (bytesOfBlock x).take t = (bytesOfBlock y).take t ↔ ∀ i < t, blockByte x i = blockByte y i := by
  have hlen (z : Block) : ((bytesOfBlock z).take t).length = t := by simp [ht]
  have hbyte (z : Block) (i : Nat) (hi : i < t) : ((bytesOfBlock z).take t)[i]'(by rwa [hlen]) = blockByte z i := by
    rw [List.getElem_take, bytesOfBlock_getElem]
  refine ⟨fun h i hi => ?_, fun h => List.ext_getElem (by rw [hlen, hlen]) fun i hi _ => ?_⟩
  · simp only [← hbyte _ i hi, h]
  · rw [hlen] at hi
    rw [hbyte x i hi, hbyte y i hi, h i hi]

/-- A shift of a block changes its first `t` bytes exactly where its own first `t` bytes are not zero. -/
theorem take_bytesOfBlock_xor_eq_iff (x d : Block) {t : Nat} (ht : t ≤ 16) :
    (bytesOfBlock x).take t = (bytesOfBlock (x ^^^ d)).take t ↔ (bytesOfBlock d).take t = zeroBytes t := by
  rw [zeroBytes_eq_take_bytesOfBlock ht, take_bytesOfBlock_eq_iff ht, take_bytesOfBlock_eq_iff ht]
  refine forall₂_congr fun i _ => ?_
  have hzero : blockByte 0#128 i = 0#8 := by simp [blockByte]
  rw [hzero, blockByte_xor, eq_comm]
  exact xor_left_eq_self_iff

/-! ## When GCM_DEC reports it -/

/-- Of two GCM_DEC with the same tag and authentication values apart by `d`, where the first is accepted the second reports
AUTH_FAIL = 1 exactly when the first `t` bytes of `d` are not zero. -/
theorem gcmDec_shifted_authFail_iff {s₁ s₂ t₁ t₂ : State} {d : Block} (h₁ : Clean .gcmDec s₁) (h₂ : Clean .gcmDec s₂)
    (htagLen : s₂.lp.tagLen = s₁.lp.tagLen) (htag : tagBufBytes s₂ = tagBufBytes s₁)
    (hshift : gcmTagBlock s₂.lp.keyh (ivBytes s₂) (aadBytes s₂) (inBytes s₂) =
      gcmTagBlock s₁.lp.keyh (ivBytes s₁) (aadBytes s₁) (inBytes s₁) ^^^ d)
    (ht₁ : exec .gcmDec s₁ = .next t₁) (ht₂ : exec .gcmDec s₂ = .next t₂) (haf : t₁.status.authFail = false) :
    t₂.status.authFail = true ↔ (bytesOfBlock d).take s₁.lp.tagLen.toNat ≠ zeroBytes s₁.lp.tagLen.toNat := by
  have haccepted : tagBufBytes s₁ = gcmTag s₁ := by
    rw [← Bool.not_eq_true, gcmDec_authFail_iff h₁ ht₁, not_not] at haf
    exact haf
  have hle : s₁.lp.tagLen.toNat ≤ 16 := tagLen_le h₁.running.2 (.inr (.inl rfl))
  rw [gcmDec_authFail_iff h₂ ht₂, htag, haccepted, gcmTag, gcmTag, hshift, htagLen, Ne,
    take_bytesOfBlock_xor_eq_iff _ _ hle]

/-- The authentication values of two GCM_DEC that differ in one ciphertext or AAD byte only (46_gcm.md R207 item 3). -/
theorem tampered_gcmTagBlock {s₁ s₂ : State} {q j : Nat} {delta : Block} (hkey : s₂.lp.keyh = s₁.lp.keyh)
    (hiv : ivBytes s₂ = ivBytes s₁)
    (h : aadBytes s₂ = aadBytes s₁ ∧ DifferOnlyAt (inBytes s₁) (inBytes s₂) q ∧
        delta = blockChange (inBytes s₁) (inBytes s₂) q ∧ j = blockCount s₁.lp.len.toNat - q / 16 + 1 ∨
      inBytes s₂ = inBytes s₁ ∧ DifferOnlyAt (aadBytes s₁) (aadBytes s₂) q ∧
        delta = blockChange (aadBytes s₁) (aadBytes s₂) q ∧
        j = blockCount s₁.lp.aadLen.toNat - q / 16 + blockCount s₁.lp.len.toNat + 1) :
    delta ≠ 0#128 ∧
      gcmTagBlock s₂.lp.keyh (ivBytes s₂) (aadBytes s₂) (inBytes s₂) =
        gcmTagBlock s₁.lp.keyh (ivBytes s₁) (aadBytes s₁) (inBytes s₁) ^^^
          gfMul delta (gfPow (encryptBlock s₁.lp.keyh 0) j) := by
  have haadLen : (aadBytes s₁).length = s₁.lp.aadLen.toNat := memRead_length _ _ _
  rcases h with ⟨haad, hd, rfl, rfl⟩ | ⟨hin, hd, rfl, rfl⟩
  · refine ⟨hd.blockChange_ne_zero, ?_⟩
    rw [hkey, hiv, haad, hd.gcmTagBlock_ciphertext, inBytes_length]
  · refine ⟨hd.blockChange_ne_zero, ?_⟩
    rw [hkey, hiv, hin, hd.gcmTagBlock_aad, inBytes_length, haadLen]

/-- Settles O50: GHASH is a polynomial in H, so one changed block shifts it by one term, and the field has no zero divisors,
so with the whole tag compared the shift always shows. -/
theorem tamperingShiftsGcmTag : Obligations.TamperingShiftsGcmTag := by
  refine ⟨fun k iv x y z q hd => ⟨hd.blockChange_ne_zero, hd.gcmTagBlock_ciphertext k iv z, hd.gcmTagBlock_aad k iv z⟩,
    fun s₁ s₂ t₁ t₂ q j delta h₁ h₂ hkey htagLen hiv htag hdiff ht₁ ht₂ haf => ?_⟩
  obtain ⟨hdelta, hshift⟩ := tampered_gcmTagBlock hkey hiv hdiff
  have hiff := gcmDec_shifted_authFail_iff h₁ h₂ htagLen htag hshift ht₁ ht₂ haf
  refine ⟨hiff, fun hfull hH => hiff.mpr fun hzero => ?_⟩
  have hlen : s₁.lp.tagLen.toNat = 16 := by rw [hfull]; rfl
  rw [hlen, zeroBytes_eq_take_bytesOfBlock le_rfl, take_bytesOfBlock_eq_iff le_rfl] at hzero
  exact gfMul_ne_zero hdelta (gfPow_ne_zero hH j) (block_ext hzero)

end Sys2Proof.Machine
end

section
/-! SUPPORT. What a reset leaves of a running command (70_reset_and_hazards.md R284). -/

namespace Sys2Proof.Machine

/-- Settles O2: both ways of reset are `engineReset`, whose one draw of free values falls on the write ranges of the command
that was running. -/
theorem abortedCommandLeavesFreeBytes : Obligations.AbortedCommandLeavesFreeBytes := by
  intro s e rest i h he hr hd hm
  have hmem : (engineReset { s with schedule := rest }).mem = havoc s.mem s.draws (writeRanges i s.lp) :=
    congrArg (havoc s.mem s.draws) (liveWriteRanges_busy hr.1 hd)
  obtain ⟨hfree, hsame⟩ := havoc_free hr hm hmem
  exact ⟨_, step_resetEvent h he, rfl, rfl, rfl, hfree, hsame⟩

end Sys2Proof.Machine
end

section
/-! SUPPORT. The formats of CCM: counter blocks, B0, the AAD length and the AAD blocks (47_ccm.md R220 to R226). -/

namespace Sys2Proof.Machine

/-! ## Counter blocks (R226) -/

theorem intBE_append_beBytes (p : Bytes) (n v : Nat) :
    intBE (p ++ beBytes n v) = intBE p * 256 ^ n + v % 256 ^ n := by
  induction n generalizing v with
  | zero => simp [beBytes, Nat.mod_one]
  | succ n ih =>
    rw [beBytes_succ, ← List.append_assoc, intBE_append_one, ih, pow_succ, mul_comm (256 ^ n) 256, Nat.mod_mul,
      BitVec.toNat_ofNat]
    ring

theorem blockOfBytes_toNat {s : Bytes} (hs : s.length = 16) : (blockOfBytes s).toNat = intBE s := by
  have hlt := intBE_lt s
  rw [hs] at hlt
  exact Nat.mod_eq_of_lt hlt

/-- A block whose low `w` bytes are a big-endian number counts up in that number (40_engine.md R142). -/
theorem incCounter_blockOfBytes {p : Bytes} {w : Nat} (hp : p.length + w = 16) (v i : Nat) :
    incCounter w (blockOfBytes (p ++ beBytes w v)) i = blockOfBytes (p ++ beBytes w (v + i)) := by
  have hlen (v : Nat) : (p ++ beBytes w v).length = 16 := by rw [List.length_append, beBytes_length, hp]
  have hpow : (2 : Nat) ^ (8 * w) = 256 ^ w := pow_mul 2 8 w
  have hpos : 0 < 256 ^ w := by positivity
  apply BitVec.eq_of_toNat_eq
  rw [incCounter_toNat w (by omega), blockOfBytes_toNat (hlen v), blockOfBytes_toNat (hlen (v + i)),
    intBE_append_beBytes, intBE_append_beBytes, hpow, Nat.mul_add_mod', Nat.mod_mod, Nat.mod_add_mod,
    Nat.add_comm (intBE p * _), Nat.add_mul_div_right _ _ hpos, Nat.div_eq_of_lt (Nat.mod_lt v hpos), Nat.zero_add]

theorem zeroBytes_eq_beBytes (n : Nat) : zeroBytes n = beBytes n 0 := by
  apply List.ext_getElem (by simp)
  intro i _ _
  rw [beBytes_getElem, Nat.zero_div]
  simp [zeroBytes]

/-- `A_i` is the counter block of R226 with the number `i` in its last `L` bytes. -/
theorem incCounter_ccmA0Block {nonce : Bytes} (hn : nonce.length ≤ 15) (i : Nat) :
    incCounter (15 - nonce.length) (ccmA0Block nonce) i =
      blockOfBytes (BitVec.ofNat 8 (15 - nonce.length - 1) :: nonce ++ beBytes (15 - nonce.length) i) := by
  have hp : (BitVec.ofNat 8 (15 - nonce.length - 1) :: nonce).length + (15 - nonce.length) = 16 := by
    rw [List.length_cons]
    omega
  rw [ccmA0Block, ccmA0, zeroBytes_eq_beBytes, incCounter_blockOfBytes hp, Nat.zero_add]

/-! ## B0 (R221, R222) -/

theorem ccmB0_length {nonce : Bytes} (hn : nonce.length ≤ 15) (a m t : Nat) : (ccmB0 nonce a m t).length = 16 := by
  simp only [ccmB0, List.cons_append, List.length_cons, List.length_append, beBytes_length]
  omega

/-- The flags fit one byte: Adata is bit 6, the tag length's code bits 5:3 and `L - 1` bits 2:0 (R221). -/
theorem ccmFlags_lt {a t l : Nat} (ht : t ≤ 16) (hl : l ≤ 8) : ccmFlags a t l < 256 := by
  unfold ccmFlags
  split <;> omega

/-! ## The AAD (R223, R224) -/

theorem ccmAadLen_short {a : Nat} (h : a < 0xFF00) : ccmAadLen a = beBytes 2 a := if_pos h

theorem ccmAadLen_middle {a : Nat} (hlo : 0xFF00 ≤ a) (hhi : a < 2 ^ 32) : ccmAadLen a = 0xFF :: 0xFE :: beBytes 4 a := by
  rw [ccmAadLen, if_neg (by omega), if_pos hhi]
  rfl

theorem ccmAadLen_long {a : Nat} (h : 2 ^ 32 ≤ a) : ccmAadLen a = 0xFF :: 0xFF :: beBytes 8 a := by
  rw [ccmAadLen, if_neg (by omega), if_neg (by omega)]
  rfl

theorem ccmAadBlocks_of_pos {aad : Bytes} (h : 0 < aad.length) :
    ccmAadBlocks aad = pad16 (ccmAadLen aad.length ++ aad) := if_pos h

theorem ccmAadBlocks_length_mod (aad : Bytes) : (ccmAadBlocks aad).length % 16 = 0 := by
  unfold ccmAadBlocks
  split
  · exact pad16_length_mod _
  · rfl

/-- Settles O53: the counter's bytes are the low ones of the block, so counting up is counting in them. -/
theorem ccmBlockFormats : Obligations.CcmBlockFormats := by
  refine ⟨fun nonce _ i _ hn _ _ => incCounter_ccmA0Block (by omega) i, fun nonce a m t hn₇ hn _ ht => ?_,
    fun a _ => ⟨ccmAadLen_short, ccmAadLen_middle, ccmAadLen_long⟩, rfl, fun aad haad => ?_⟩
  · obtain ⟨-, ht, -⟩ := (mem_ccmTagLengths t).mp ht
    refine ⟨ccmB0_length (by omega) a m t, _, rfl, ?_⟩
    rw [BitVec.toNat_ofNat, Nat.mod_eq_of_lt (ccmFlags_lt ht (by omega)), ccmFlags]
  · refine ⟨ccmAadBlocks_length_mod aad, ?_⟩
    rw [ccmAadBlocks_of_pos haad]
    exact pad16_eq_append_zeros _

end Sys2Proof.Machine
end

section
/-! SUPPORT. CCM: what CCM_ENC leaves in OUTR and TAGR, when CCM_DEC opens and to what, and that it undoes CCM_ENC
(47_ccm.md R220 to R231). -/

namespace Sys2Proof.Machine

/-! ## CCTR (R226, R227) -/

/-- CCTR of `X` under one key handle and nonce (47_ccm.md R227). -/
def ccmBytes (k : Word) (nonce x : Bytes) : Bytes :=
  keystreamOut (encryptBlock k) (15 - nonce.length) (blockCount x.length)
    (incCounter (15 - nonce.length) (ccmA0Block nonce) 1) x

theorem ccmCtr_eq_ccmBytes {k : Word} {nonce : Bytes} {w : Work} (hj : w.j0 = ccmA0Block nonce) (x : Bytes) :
    (ccmCtr (Config.cipherPort.encrypt k) (15 - nonce.length) w x).2 = ccmBytes k nonce x := by
  rw [ccmCtr, keystreamXor_out, hj]
  rfl

theorem ccmCtr_keeps (enc : Block → Block) (l : Nat) (w : Work) (x : Bytes) :
    (ccmCtr enc l w x).1.mac = w.mac ∧ (ccmCtr enc l w x).1.j0 = w.j0 := by
  obtain ⟨-, -, hj, hmac, -⟩ := keystreamXor_keeps enc l (blockCount x.length) { w with cb := incCounter l w.j0 1 } x
  exact ⟨hmac, hj⟩

theorem ccmBytes_eq_xorBytes (k : Word) (nonce x : Bytes) :
    ccmBytes k nonce x = xorBytes x (keystreamBytes k (15 - nonce.length)
      (incCounter (15 - nonce.length) (ccmA0Block nonce) 1) x.length) :=
  keystreamOut_eq_xorBytes k (by omega) _ x

@[simp] theorem ccmBytes_length (k : Word) (nonce x : Bytes) : (ccmBytes k nonce x).length = x.length :=
  keystreamOut_length _ _ _ _

/-- CCTR applied twice gives its input back. -/
@[simp] theorem ccmBytes_ccmBytes (k : Word) (nonce x : Bytes) : ccmBytes k nonce (ccmBytes k nonce x) = x := by
  unfold ccmBytes
  rw [keystreamOut_length, keystreamOut_keystreamOut _ (by omega)]

/-- The plaintext a CCM_DEC opens to is CCTR of its input. -/
theorem ccmOpensTo_iff {s : State} {pt : Bytes} :
    CcmOpensTo s pt ↔ pt = ccmBytes s.lp.keyh (ivBytes s) (inBytes s) := by
  have hopens {pt : Bytes} (h : CcmOpensTo s pt) : pt = ccmBytes s.lp.keyh (ivBytes s) (inBytes s) := by
    rw [← h.eq_ccmCtr (w := { Work.zero with j0 := ccmA0Block (ivBytes s) }) rfl, ccmL_eq_ivBytes]
    exact ccmCtr_eq_ccmBytes rfl _
  obtain ⟨pt', hpt'⟩ := exists_ccmOpensTo s
  refine ⟨hopens, fun h => ?_⟩
  rwa [h, ← hopens hpt']

/-! ## What the rules write (R229, R230) -/

/-- `W.TC` holds the authentication value once `W.MAC` holds the MAC and `W.J0` holds `A_0` (R228). -/
theorem ccmTag_tc {k : Word} {nonce aad pt : Bytes} {t : Nat} {w : Work} (hmac : w.mac = ccmMacBlock k nonce aad pt t)
    (hj : w.j0 = ccmA0Block nonce) : (ccmTag (Config.cipherPort.encrypt k) w).tc = ccmTagBlock k nonce aad pt t := by
  rw [ccmTag, hmac, hj]
  rfl

/-- CCM_ENC writes CCTR of its input and the tag over that input. -/
theorem ruleOf_ccmEnc (s : State) :
    (ruleOf .ccmEnc Config.cipherPort s.lp s.mem s.work).authFail = false ∧
      (ruleOf .ccmEnc Config.cipherPort s.lp s.mem s.work).writes =
        [(s.lp.outAddr.toNat, ccmBytes s.lp.keyh (ivBytes s) (inBytes s)),
          (s.lp.tagAddr.toNat, (bytesOfBlock (ccmTagBlock s.lp.keyh (ivBytes s) (aadBytes s) (inBytes s)
            s.lp.tagLen.toNat)).take s.lp.tagLen.toNat)] := by
  refine ⟨rfl, congrArg₂ (fun ct tc =>
    [(s.lp.outAddr.toNat, ct), (s.lp.tagAddr.toNat, (bytesOfBlock tc).take s.lp.tagLen.toNat)]) ?_ ?_⟩
  · rw [ccmL_eq_ivBytes]
    exact ccmCtr_eq_ccmBytes rfl (inBytes s)
  · obtain ⟨hmac, hj⟩ := ccmCtr_keeps (Config.cipherPort.encrypt s.lp.keyh) (ccmL s.lp) _ (inBytes s)
    exact ccmTag_tc (hmac.trans (by rw [ccmMac_eq]; rfl)) hj

/-- CCM_DEC without a mismatch writes CCTR of its input. -/
theorem ruleOf_ccmDec_writes {s : State} (haf : (ruleOf .ccmDec Config.cipherPort s.lp s.mem s.work).authFail = false) :
    (ruleOf .ccmDec Config.cipherPort s.lp s.mem s.work).writes =
      [(s.lp.outAddr.toNat, ccmBytes s.lp.keyh (ivBytes s) (inBytes s))] := by
  rw [ruleOf, ruleCcmDec] at haf ⊢
  rcases openRule_cases s.lp s.mem _ _ with ⟨-, h⟩ | ⟨-, h⟩
  · rw [h, ccmL_eq_ivBytes]
    refine congrArg (fun x => [(s.lp.outAddr.toNat, x)]) (ccmCtr_eq_ccmBytes ?_ (inBytes s))
    rw [ccmTag, ccmMac_eq]
    exact (ccmCtr_keeps _ _ _ _).2
  · rw [h] at haf
    cases haf

/-! ## The commands -/

/-- A clean CCM_ENC finishes with CCTR of its input in OUTR and the tag over its input in TAGR. -/
theorem exec_ccmEnc {s : State} (h : Clean .ccmEnc s) :
    ∃ t, exec .ccmEnc s = .next t ∧ Finished s t false ∧ SameOutside [outRange s.lp, tagRange s.lp] s t ∧
      memRead t.mem s.lp.outAddr.toNat s.lp.len.toNat = ccmBytes s.lp.keyh (ivBytes s) (inBytes s) ∧
      memRead t.mem s.lp.tagAddr.toNat s.lp.tagLen.toNat =
        (bytesOfBlock (ccmTagBlock s.lp.keyh (ivBytes s) (aadBytes s) (inBytes s) s.lp.tagLen.toNat)).take
          s.lp.tagLen.toNat := by
  obtain ⟨haf, hw⟩ := ruleOf_ccmEnc s
  exact exec_sealed (.inr rfl) h haf hw

/-- A clean CCM_DEC whose tag matches the plaintext it opens to finishes with that plaintext in OUTR. -/
theorem exec_ccmDec_match {s : State} (h : Clean .ccmDec s) {pt : Bytes} (hpt : CcmOpensTo s pt)
    (htag : tagBufBytes s = ccmTagFor s pt) :
    ∃ t, exec .ccmDec s = .next t ∧ Finished s t false ∧ SameOutside [outRange s.lp] s t ∧
      memRead t.mem s.lp.outAddr.toNat s.lp.len.toNat = pt := by
  have haf : (ruleOf .ccmDec Config.cipherPort s.lp s.mem s.work).authFail = false := by
    rw [← Bool.not_eq_true]
    exact fun hfail => (ruleCcmDec_authFail hpt s.work).mp hfail htag
  rw [ccmOpensTo_iff.mp hpt]
  exact exec_opened (.inr rfl) h haf (ruleOf_ccmDec_writes haf)

/-- Settles O25: OUTR holds CCTR of the plaintext and TAGR the tag over it, which do not overlap. -/
theorem ccmEncWritesCiphertextAndTag : Obligations.CcmEncWritesCiphertextAndTag := by
  intro s h
  obtain ⟨t, ht, hfin, hsame, hout, htag⟩ := exec_ccmEnc h
  have hiv : (ivBytes s).length = s.lp.ivLen.toNat := memRead_length _ _ _
  rw [ccmBytes, hiv] at hout
  exact ⟨t, ht, hfin, hsame, fun j => readByte_of_memRead_keystreamOut (by omega) hout, htag⟩

/-- Settles O26: the rule compares before it writes, so a mismatch ends before OUTR is asked. -/
theorem ccmDecOpensOnlyOnTagMatch : Obligations.CcmDecOpensOnlyOnTagMatch := by
  intro s pt hrun hund hread hwf hlen hbytes
  have hpt : CcmOpensTo s pt := ⟨hlen, hbytes⟩
  exact ⟨fun htag => exec_mismatch hrun hund hread ((ruleCcmDec_authFail hpt s.work).mpr htag),
    fun htag hwrite => exec_ccmDec_match ⟨hrun, hund, hread, hwrite, hwf⟩ hpt htag⟩

/-- Settles O56: the ciphertext opens to the plaintext, since CCTR is its own inverse, and both commands compute one tag over
that plaintext. -/
theorem ccmRoundTrip : Obligations.CcmRoundTrip := by
  intro s₁ s₂ t₁ h₁ h₂ hkey hiv haad _ htagLen ht₁ hin htag
  obtain ⟨_, ht, -, -, hout₁, htag₁⟩ := exec_ccmEnc h₁
  obtain rfl := Host.Outcome.next.inj (ht₁.symm.trans ht)
  have hpt : CcmOpensTo s₂ (inBytes s₁) := by
    rw [ccmOpensTo_iff, hkey, hiv, hin, hout₁, ccmBytes_ccmBytes]
  have hmatch : tagBufBytes s₂ = ccmTagFor s₂ (inBytes s₁) := by
    rw [htag, htag₁, ccmTagFor, hkey, hiv, haad, htagLen]
  obtain ⟨t₂, ht₂, hfin, -, hout₂⟩ := exec_ccmDec_match h₂ hpt hmatch
  exact ⟨t₂, ht₂, hfin, hout₂⟩

end Sys2Proof.Machine
end

section
/-! SUPPORT. Tampering with CCM: a changed byte of the authenticated string changes its CBC-MAC, whatever the key, and when
CCM_DEC reports it (47_ccm.md R231 item 3). -/

namespace Sys2Proof.Machine

/-! ## One changed block -/

theorem cbcMac_foldl_injective (k : Word) (xs : List Block) :
    Function.Injective fun acc => xs.foldl (fun acc x => encryptBlock k (acc ^^^ x)) acc := by
  induction xs with
  | nil => exact fun _ _ h => h
  | cons x xs ih => exact fun a b h => (BitVec.xor_left_inj _).mp (encryptBlock_injective k (ih h))

/-- One changed block changes the CBC-MAC: each step of the chain is a permutation (R225). -/
theorem cbcMacBlocks_changed (k : Word) (xs ys : List Block) {x y : Block} (h : x ≠ y) :
    cbcMacBlocks k (xs ++ x :: ys) ≠ cbcMacBlocks k (xs ++ y :: ys) := by
  simp only [cbcMacBlocks, List.foldl_append, List.foldl_cons]
  exact fun heq => h ((BitVec.xor_right_inj _).mp (encryptBlock_injective k (cbcMac_foldl_injective k ys heq)))

/-! ## One changed byte -/

theorem blockAround_length {s : Bytes} (hs : s.length % 16 = 0) {q : Nat} (hq : q < s.length) :
    (blockAround s q).length = 16 := by
  rw [blockAround, List.length_take, List.length_drop]
  omega

namespace DifferOnlyAt

theorem append_left {x y : Bytes} {q : Nat} (h : DifferOnlyAt x y q) (a : Bytes) :
    DifferOnlyAt (a ++ x) (a ++ y) (a.length + q) := by
  obtain ⟨hlen, hq, hne, heq⟩ := h
  refine ⟨by simp [hlen], by simp [hq], ?_, fun i hi => ?_⟩
  · rwa [List.getElem?_append_right (Nat.le_add_right _ _), List.getElem?_append_right (Nat.le_add_right _ _),
      Nat.add_sub_cancel_left]
  · rw [List.getElem?_append, List.getElem?_append]
    split
    · rfl
    · exact heq _ (by omega)

theorem append_right {x y : Bytes} {q : Nat} (h : DifferOnlyAt x y q) (a : Bytes) : DifferOnlyAt (x ++ a) (y ++ a) q := by
  obtain ⟨hlen, hq, hne, heq⟩ := h
  refine ⟨by simp [hlen], by rw [List.length_append]; omega, ?_, fun i hi => ?_⟩
  · rwa [List.getElem?_append_left hq, List.getElem?_append_left (hlen ▸ hq)]
  · rw [List.getElem?_append, List.getElem?_append, hlen, heq i hi]

/-- The same string xored into both keeps the one difference. -/
theorem xorBytes {x y : Bytes} {q : Nat} (h : DifferOnlyAt x y q) {ks : Bytes} (hks : ks.length = x.length) :
    DifferOnlyAt (Machine.xorBytes x ks) (Machine.xorBytes y ks) q := by
  obtain ⟨hlen, hq, hne, heq⟩ := h
  refine ⟨by simp [hlen], by simp [hks, hq], ?_, fun i hi => ?_⟩
  · rw [xorBytes_getElem? hks.symm hq, xorBytes_getElem? (hlen.symm.trans hks.symm) (hlen ▸ hq)]
    rw [List.getElem?_eq_getElem hq, List.getElem?_eq_getElem (hlen ▸ hq)] at hne
    simpa [List.getD, hq, hlen ▸ hq] using hne
  · rw [Machine.xorBytes, Machine.xorBytes, List.getElem?_zipWith, List.getElem?_zipWith, heq i hi]

/-- Ciphertexts that differ in one byte have plaintexts that differ in that byte (R227). -/
theorem ccmBytes {x y : Bytes} {q : Nat} (h : DifferOnlyAt x y q) (k : Word) (nonce : Bytes) :
    DifferOnlyAt (Machine.ccmBytes k nonce x) (Machine.ccmBytes k nonce y) q := by
  have hlen := h.1
  rw [ccmBytes_eq_xorBytes, ccmBytes_eq_xorBytes, ← hlen]
  exact h.xorBytes (keystreamBytes_length _ _ _ _)

/-- A changed byte of the AAD is a changed byte of the AAD blocks (R224). -/
theorem ccmAadBlocks {x y : Bytes} {q : Nat} (h : DifferOnlyAt x y q) :
    DifferOnlyAt (Machine.ccmAadBlocks x) (Machine.ccmAadBlocks y) ((ccmAadLen x.length).length + q) := by
  have hshifted := (h.append_left (ccmAadLen x.length)).padded
  obtain ⟨hlen, hq, -, -⟩ := h
  rwa [ccmAadBlocks_of_pos (by omega), ccmAadBlocks_of_pos (by omega), ← hlen]

/-- A changed byte changes the CBC-MAC of a string of whole blocks. -/
theorem cbcMacBlocks_ne {x y : Bytes} {q : Nat} (h : DifferOnlyAt x y q) (hx : x.length % 16 = 0) (k : Word) :
    cbcMacBlocks k (blocksOf x) ≠ cbcMacBlocks k (blocksOf y) := by
  have htake := h.take_eq (Nat.mul_div_le q 16)
  have hdrop := h.drop_eq (n := 16 * (q / 16) + 16) (by omega)
  obtain ⟨hlen, hq, hne, -⟩ := h
  have hxq := blockAround_length hx hq
  have hyq := blockAround_length (hlen ▸ hx) (hlen ▸ hq)
  have hbefore : (x.take (16 * (q / 16))).length % 16 = 0 := by
    rw [List.length_take]
    omega
  have hblock : blockOfBytes (blockAround x q) ≠ blockOfBytes (blockAround y q) := fun heq => hne <| by
    have hbytes := congrArg bytesOfBlock heq
    rw [bytesOfBlock_blockOfBytes hxq, bytesOfBlock_blockOfBytes hyq] at hbytes
    rw [← blockAround_getElem?, hbytes, blockAround_getElem?]
  rw [← take_blockAround_drop x q, ← take_blockAround_drop y q, htake, hdrop, blocksOf_append_of_mod hbefore,
    blocksOf_append_of_mod hbefore, blocksOf_append hxq, blocksOf_append hyq]
  exact cbcMacBlocks_changed k _ _ hblock

end DifferOnlyAt

/-- A changed byte of the AAD or of the plaintext changes the raw MAC of CCM (R225). -/
theorem ccmMacBlock_ne {nonce aad₁ aad₂ pt₁ pt₂ : Bytes} {q : Nat} (hn : nonce.length ≤ 15)
    (h : aad₂ = aad₁ ∧ DifferOnlyAt pt₁ pt₂ q ∨ pt₂ = pt₁ ∧ DifferOnlyAt aad₁ aad₂ q) (k : Word) (t : Nat) :
    ccmMacBlock k nonce aad₁ pt₁ t ≠ ccmMacBlock k nonce aad₂ pt₂ t := by
  have hwhole (a : Nat) (aad pt : Bytes) :
      (ccmB0 nonce a pt.length t ++ ccmAadBlocks aad ++ pad16 pt).length % 16 = 0 := by
    have hB0 := ccmB0_length hn a pt.length t
    have haad := ccmAadBlocks_length_mod aad
    have hpt := pad16_length_mod pt
    rw [List.length_append, List.length_append]
    omega
  unfold ccmMacBlock
  rcases h with ⟨rfl, hd⟩ | ⟨rfl, hd⟩ <;> rw [← hd.1]
  · exact (hd.padded.append_left _).cbcMacBlocks_ne (hwhole _ _ _) k
  · exact ((hd.ccmAadBlocks.append_left _).append_right _).cbcMacBlocks_ne (hwhole _ _ _) k

/-! ## When CCM_DEC reports it -/

/-- The raw MACs of two CCM_DEC that differ in one byte of the ciphertext or of the AAD (R231 item 3). -/
theorem tampered_ccmMacFor_ne {s₁ s₂ : State} {pt₁ pt₂ : Bytes} {q : Nat} (h₁ : Clean .ccmDec s₁)
    (hkey : s₂.lp.keyh = s₁.lp.keyh) (htagLen : s₂.lp.tagLen = s₁.lp.tagLen) (hiv : ivBytes s₂ = ivBytes s₁)
    (hdiff : aadBytes s₂ = aadBytes s₁ ∧ DifferOnlyAt (inBytes s₁) (inBytes s₂) q ∨
      inBytes s₂ = inBytes s₁ ∧ DifferOnlyAt (aadBytes s₁) (aadBytes s₂) q)
    (hpt₁ : CcmOpensTo s₁ pt₁) (hpt₂ : CcmOpensTo s₂ pt₂) : ccmMacFor s₁ pt₁ ≠ ccmMacFor s₂ pt₂ := by
  have hnonce : (ivBytes s₁).length ≤ 15 := by
    obtain ⟨hivOk, -⟩ := validateCommand_ok_iff.mp h₁.running.2
    simp only [ivOk, Bool.and_eq_true, decide_eq_true_eq] at hivOk
    rw [ivBytes, memRead_length]
    omega
  rw [ccmOpensTo_iff.mp hpt₁, ccmOpensTo_iff.mp hpt₂, ccmMacFor, ccmMacFor, hkey, htagLen, hiv]
  refine ccmMacBlock_ne (q := q) hnonce ?_ _ _
  rcases hdiff with ⟨haad, hd⟩ | ⟨hin, hd⟩
  · exact .inl ⟨haad, hd.ccmBytes _ _⟩
  · exact .inr ⟨by rw [hin], hd⟩

/-- One block xored into both keeps which first bytes are equal. -/
theorem take_bytesOfBlock_xor_right_eq_iff (x y z : Block) {t : Nat} (ht : t ≤ 16) :
    (bytesOfBlock (x ^^^ z)).take t = (bytesOfBlock (y ^^^ z)).take t ↔
      (bytesOfBlock x).take t = (bytesOfBlock y).take t := by
  simp only [take_bytesOfBlock_eq_iff ht, blockByte_xor, BitVec.xor_left_inj]

/-- Two CCM_DEC with one key handle, nonce and tag length compute the same tag exactly where the raw MACs have the same first
bytes (R228). -/
theorem ccmTagFor_eq_iff {s₁ s₂ : State} {pt₁ pt₂ : Bytes} (h₁ : Clean .ccmDec s₁) (hkey : s₂.lp.keyh = s₁.lp.keyh)
    (htagLen : s₂.lp.tagLen = s₁.lp.tagLen) (hiv : ivBytes s₂ = ivBytes s₁) :
    ccmTagFor s₁ pt₁ = ccmTagFor s₂ pt₂ ↔
      (bytesOfBlock (ccmMacFor s₁ pt₁)).take s₁.lp.tagLen.toNat =
        (bytesOfBlock (ccmMacFor s₂ pt₂)).take s₁.lp.tagLen.toNat := by
  have hle : s₁.lp.tagLen.toNat ≤ 16 := tagLen_le h₁.running.2 (.inr (.inr (.inr rfl)))
  rw [ccmTagFor, ccmTagFor, ccmMacFor, ccmMacFor, hkey, htagLen, hiv]
  exact take_bytesOfBlock_xor_right_eq_iff _ _ _ hle

/-- Settles O60: the key handle's E is a permutation, so a changed byte changes the MAC, and the tag shows it where the change
falls within the tag's length. -/
theorem tamperingChangesCcmMac : Obligations.TamperingChangesCcmMac := by
  intro s₁ s₂ t₁ t₂ q h₁ h₂ hkey htagLen hiv htag hdiff ht₁ ht₂
  have hne {pt₁ pt₂ : Bytes} (hpt₁ : CcmOpensTo s₁ pt₁) (hpt₂ : CcmOpensTo s₂ pt₂) :=
    tampered_ccmMacFor_ne h₁ hkey htagLen hiv hdiff hpt₁ hpt₂
  have hreport {pt₁ pt₂ : Bytes} (hpt₁ : CcmOpensTo s₁ pt₁) (hpt₂ : CcmOpensTo s₂ pt₂) (haf : t₁.status.authFail = false) :
      t₂.status.authFail = true ↔ (bytesOfBlock (ccmMacFor s₂ pt₂)).take s₁.lp.tagLen.toNat ≠
        (bytesOfBlock (ccmMacFor s₁ pt₁)).take s₁.lp.tagLen.toNat := by
    rw [← Bool.not_eq_true, ccmDec_authFail_iff h₁ ht₁ hpt₁, not_not] at haf
    rw [ccmDec_authFail_iff h₂ ht₂ hpt₂, htag, haf, Ne, ccmTagFor_eq_iff h₁ hkey htagLen hiv]
    exact ne_comm
  refine ⟨fun hfull => ?_, fun pt₁ pt₂ hpt₁ hpt₂ => ⟨hne hpt₁ hpt₂, hreport hpt₁ hpt₂⟩⟩
  obtain ⟨pt₁, hpt₁⟩ := exists_ccmOpensTo s₁
  obtain ⟨pt₂, hpt₂⟩ := exists_ccmOpensTo s₂
  refine or_iff_not_imp_left.mpr fun haf => (hreport hpt₁ hpt₂ (Bool.not_eq_true _ ▸ haf)).mpr fun heq => ?_
  have hlen : s₁.lp.tagLen.toNat = 16 := by rw [hfull]; rfl
  rw [hlen, take_bytesOfBlock_eq_iff le_rfl] at heq
  exact hne hpt₁ hpt₂ (block_ext heq).symm

end Sys2Proof.Machine
end
